-- ==== Sys2Proof/Word.lean ====
section
/-! DEFINITION. The word types of the unit: a coefficient or command is one 32-bit word (00_scope.md R4, R6), a byte is
one lane of it on the host bus (20_memory.md R37), a ring register is named by its number (10_state.md R10). -/

namespace Sys2Proof

/-- A `u32` of 00_scope.md R6: bit 0 least significant; `+`, `-`, `*` wrap modulo 2^32. -/
abbrev Word := BitVec 32

/-- Eight bits: a field of the command word (30_encoding.md R50) or a byte lane (20_memory.md R37). -/
abbrev Byte := BitVec 8

/-- The number of a ring register, `r` of `R[r]`. -/
abbrev RegNum := Nat

/-- A ring element: its coefficients, index = degree, constant term first (00_scope.md R7; 10_state.md R10). -/
abbrev RingElt := List Word

end Sys2Proof
end

