-- ==== Sys2Proof/Syntax.lean ====
section
/-! DEFINITION. The thirteen commands (30_encoding.md R53; opcode_table.json), one constructor per row. -/

namespace Sys2Proof

/-- A command of the unit, with the operands its format carries (30_encoding.md R51, R57). Register numbers and
immediates are plain numbers, as in the listings of R57; `Instr.wellFormed` says which have an encoding. -/
inductive Instr where
  /-- `ZERO Rd` (40_ring_arith.md R73). -/
  | zero (rd : RegNum)
  /-- `FOLD Rd` (40_ring_arith.md R75). -/
  | fold (rd : RegNum)
  /-- `FBCLR` (40_ring_arith.md R74). -/
  | fbclr
  /-- `ST Rs1` (40_ring_arith.md R77). -/
  | st (rs1 : RegNum)
  /-- `ADD Rd, Rs1, Rs2` (40_ring_arith.md R78). -/
  | add (rd rs1 rs2 : RegNum)
  /-- `SUB Rd, Rs1, Rs2` (40_ring_arith.md R79). -/
  | sub (rd rs1 rs2 : RegNum)
  /-- `MUL Rd, Rs1, Rs2` (40_ring_arith.md R80). -/
  | mul (rd rs1 rs2 : RegNum)
  /-- `CMPEQ Rs1, Rs2` (40_ring_arith.md R81). -/
  | cmpeq (rs1 rs2 : RegNum)
  /-- `ENC Rd, Rs1, #imm` (41_lwe_codec.md R101). -/
  | enc (rd rs1 : RegNum) (imm : Nat)
  /-- `DEC Rd, Rs1, #imm` (41_lwe_codec.md R103). -/
  | dec (rd rs1 : RegNum) (imm : Nat)
  /-- `ADDN Rd, Rs1` (41_lwe_codec.md R102). -/
  | addn (rd rs1 : RegNum)
  /-- `RNDU Rd` (41_lwe_codec.md R107). -/
  | rndu (rd : RegNum)
  /-- `RNDB Rd` (41_lwe_codec.md R108). -/
  | rndb (rd : RegNum)
  deriving DecidableEq, Repr

end Sys2Proof
end

