-- ==== Sys2Proof/WellFormed.lean ====
section
/-! DEFINITION. Which commands have an encoding: every register number and every immediate fits the 8-bit field that
carries it (30_encoding.md R50, R52, R57). Whether a number is legal for an instance is checked by the unit (E_REG,
E_PARAM), not here (R57). -/

namespace Sys2Proof

/-- The number fits an 8-bit field of the command word (30_encoding.md R50; "0 <= n <= 255", R57). -/
def fitsField (x : Nat) : Bool := decide (x < 256)

/-- The command has an encoding: each operand fits its field. -/
def Instr.wellFormed : Instr → Bool
  | .zero rd => fitsField rd
  | .fold rd => fitsField rd
  | .fbclr => true
  | .st rs1 => fitsField rs1
  | .add rd rs1 rs2 => fitsField rd && fitsField rs1 && fitsField rs2
  | .sub rd rs1 rs2 => fitsField rd && fitsField rs1 && fitsField rs2
  | .mul rd rs1 rs2 => fitsField rd && fitsField rs1 && fitsField rs2
  | .cmpeq rs1 rs2 => fitsField rs1 && fitsField rs2
  | .enc rd rs1 imm => fitsField rd && fitsField rs1 && fitsField imm
  | .dec rd rs1 imm => fitsField rd && fitsField rs1 && fitsField imm
  | .addn rd rs1 => fitsField rd && fitsField rs1
  | .rndu rd => fitsField rd
  | .rndb rd => fitsField rd

end Sys2Proof
end

