-- ==== Sys2Proof/Decode.lean ====
section
/-! DEFINITION. The decoder (30_encoding.md R50 to R55), total on all 2^32 words and rejecting by name, and after it
the encoder, the table of match and mask values (R53) and the host's view of one table word. -/

namespace Sys2Proof

/-! ### The four fields of a command word (R50) -/

/-- `op`, bits 31:24. -/
def opField (w : Word) : Byte := w.extractLsb' 24 8

/-- `a`, bits 23:16: the number `rd`. -/
def aField (w : Word) : Nat := (w.extractLsb' 16 8).toNat

/-- `b_`, bits 15:8: the number `rs1`. -/
def bField (w : Word) : Nat := (w.extractLsb' 8 8).toNat

/-- `c`, bits 7:0: the number `rs2`, or `imm8`, zero-extended and unscaled (R52). -/
def cField (w : Word) : Nat := (w.extractLsb' 0 8).toNat

/-! ### Decoding -/

/-- Why a word is no command (R54). Either way the unit raises `E_ILLEGAL`. -/
inductive Reject where
  /-- The `op` value is in no row of R53. -/
  | unknownOp (op : Byte)
  /-- The `op` value is listed, but a field its format must keep zero is not zero. -/
  | fieldNotZero (op : Byte)
  deriving DecidableEq, Repr

/-- The command `i`, if every must-be-zero field is zero (R51, R54). -/
def requireZero (w : Word) (unused : List Nat) (i : Instr) : Except Reject Instr :=
  if unused.all (fun f => decide (f = 0)) then .ok i else .error (.fieldNotZero (opField w))

/-- `Execute(w)`'s decoding (R55): the `op` field selects the row, the row's format (R51) says which fields carry
operands and which must be zero. Reads no state. -/
def decode (w : Word) : Except Reject Instr :=
  let rd := aField w
  let rs1 := bField w
  let rs2 := cField w
  if opField w = 0x01#8 then requireZero w [rs1, rs2] (.zero rd)
  else if opField w = 0x02#8 then requireZero w [rs1, rs2] (.fold rd)
  else if opField w = 0x03#8 then requireZero w [rd, rs1, rs2] .fbclr
  else if opField w = 0x04#8 then requireZero w [rd, rs2] (.st rs1)
  else if opField w = 0x10#8 then .ok (.add rd rs1 rs2)
  else if opField w = 0x11#8 then .ok (.sub rd rs1 rs2)
  else if opField w = 0x12#8 then .ok (.mul rd rs1 rs2)
  else if opField w = 0x13#8 then requireZero w [rd] (.cmpeq rs1 rs2)
  else if opField w = 0x20#8 then .ok (.enc rd rs1 rs2)
  else if opField w = 0x21#8 then .ok (.dec rd rs1 rs2)
  else if opField w = 0x22#8 then requireZero w [rs2] (.addn rd rs1)
  else if opField w = 0x30#8 then requireZero w [rs1, rs2] (.rndu rd)
  else if opField w = 0x31#8 then requireZero w [rs1, rs2] (.rndb rd)
  else .error (.unknownOp (opField w))

/-! ### Encoding -/

/-- The word with the four given fields (R50). -/
def packFields (op : Byte) (a b c : Nat) : Word :=
  op ++ BitVec.ofNat 8 a ++ BitVec.ofNat 8 b ++ BitVec.ofNat 8 c

/-- The word of a command (R51, R53); right for a well-formed one. -/
def encode : Instr → Word
  | .zero rd => packFields 0x01 rd 0 0
  | .fold rd => packFields 0x02 rd 0 0
  | .fbclr => packFields 0x03 0 0 0
  | .st rs1 => packFields 0x04 0 rs1 0
  | .add rd rs1 rs2 => packFields 0x10 rd rs1 rs2
  | .sub rd rs1 rs2 => packFields 0x11 rd rs1 rs2
  | .mul rd rs1 rs2 => packFields 0x12 rd rs1 rs2
  | .cmpeq rs1 rs2 => packFields 0x13 0 rs1 rs2
  | .enc rd rs1 imm => packFields 0x20 rd rs1 imm
  | .dec rd rs1 imm => packFields 0x21 rd rs1 imm
  | .addn rd rs1 => packFields 0x22 rd rs1 0
  | .rndu rd => packFields 0x30 rd 0 0
  | .rndb rd => packFields 0x31 rd 0 0

/-! ### The opcode map as the spec tabulates it (R53) -/

/-- A row of the opcode map: a word `w` spells its command exactly when `w AND mask = pattern` (R53). -/
structure OpcodeRow where
  mnemonic : String
  pattern : Word
  mask : Word
  deriving DecidableEq, Repr

/-- Whether a word spells the row's command (R53). -/
def rowMatches (row : OpcodeRow) (w : Word) : Bool := w &&& row.mask == row.pattern

/-- The row of R53 that a command belongs to. -/
def rowOf : Instr → OpcodeRow
  | .zero .. => ⟨"ZERO", 0x01000000, 0xFF00FFFF⟩
  | .fold .. => ⟨"FOLD", 0x02000000, 0xFF00FFFF⟩
  | .fbclr => ⟨"FBCLR", 0x03000000, 0xFFFFFFFF⟩
  | .st .. => ⟨"ST", 0x04000000, 0xFFFF00FF⟩
  | .add .. => ⟨"ADD", 0x10000000, 0xFF000000⟩
  | .sub .. => ⟨"SUB", 0x11000000, 0xFF000000⟩
  | .mul .. => ⟨"MUL", 0x12000000, 0xFF000000⟩
  | .cmpeq .. => ⟨"CMPEQ", 0x13000000, 0xFFFF0000⟩
  | .enc .. => ⟨"ENC", 0x20000000, 0xFF000000⟩
  | .dec .. => ⟨"DEC", 0x21000000, 0xFF000000⟩
  | .addn .. => ⟨"ADDN", 0x22000000, 0xFF0000FF⟩
  | .rndu .. => ⟨"RNDU", 0x30000000, 0xFF00FFFF⟩
  | .rndb .. => ⟨"RNDB", 0x31000000, 0xFF00FFFF⟩

/-- One command of each row of R53, in the table's order. -/
def rowSamples : List Instr :=
  [.zero 0, .fold 0, .fbclr, .st 0, .add 0 0 0, .sub 0 0 0, .mul 0 0 0] ++
  [.cmpeq 0 0, .enc 0 0 0, .dec 0 0 0, .addn 0 0, .rndu 0, .rndb 0]

/-- The whole opcode map of R53. -/
def opcodeRows : List OpcodeRow := rowSamples.map rowOf

/-! ### The host's view -/

/-- The command my decoder reads from a table word: a command is one 32-bit word (R50, R56), written whole to CMD,
so its bits are the table's bits; bits from `nbits` up are zero. -/
def decodeTableWord (nbits w : Nat) : Option Instr :=
  match decode (BitVec.ofNat 32 (w % 2 ^ nbits)) with
  | .ok i => some i
  | .error _ => none

end Sys2Proof
end

