-- ==== Sys2Proof/Config.lean ====
section
/-! DEFINITION. What is fixed for one machine (00_scope.md R4, R5; 20_memory.md R33), and the free values: what the
spec leaves open (93_implementation_defined.md U1, U2, U3, U11, U12, U13). -/

namespace Sys2Proof

/-- The parameters of an instance `PRAU-1.0(N, NR)` (00_scope.md R1, R4) and the base address of its window on the
host bus (20_memory.md R33). No command, port transaction or reset changes them (10_state.md R15). -/
structure Params where
  /-- `N`: the ring degree; every ring element has exactly `n` coefficients. -/
  n : Nat
  /-- `NR`: the number of ring registers. -/
  nr : Nat
  /-- `BASE`: the lowest byte address of the host window. -/
  base : Nat
  deriving DecidableEq, Repr

/-- The ranges of 00_scope.md R4, and the word-aligned base of 20_memory.md R33. -/
def Params.ok (p : Params) : Bool :=
  decide (1 ≤ p.n) && decide (p.n < 2 ^ 31) && decide (2 ≤ p.nr) && decide (p.nr ≤ 256) && decide (p.base % 4 = 0)

/-- DESIGN CHOICE (log entry 1): the parameters of the machine `State.reset` describes. The spec leaves them OPEN
(92_eei_decisions.md D2, D8); `State.resetOf` takes any others. Unsafe only for a claim about `State.reset` alone. -/
def Config.params : Params := { n := 4, nr := 8, base := 0 }

/-- DESIGN CHOICE (log entry 2): what each word of the ring registers and of the output buffer holds at `State.reset`.
The spec leaves it unspecified and forbids zero for a register (10_state.md R11, R22). Unsafe, but unobservable. -/
def Config.resetWord : BitVec 32 := 0xFFFFFFFF

/-- Free value (log entry 5): what the randomness source gives at its `j`-th draw of a run if that draw is a
`Draw_u32()`, where the environment lined no answer up (20_memory.md R36; U1). Nothing is known of it. -/
opaque Config.drawWord : Nat → BitVec 32

/-- Free value (log entry 5): what the same source gives at its `j`-th draw if that draw is a `Draw_bit()`, one bit wide
(20_memory.md R36; U1). Nothing is known of it. -/
opaque Config.drawBit : Nat → BitVec 1

/-- Free value (log entry 5): the noise source's answer to the `j`-th `Draw_noise()` (20_memory.md R36; U2). Nothing is
known of it. -/
opaque Config.drawNoise : Nat → BitVec 32

/-- Free value (log entry 6): the `j`-th word that the spec leaves unspecified: what DOUT returns with nothing
stored or while faulted (20_memory.md R34; U3), and what storage holds across a reset (U11, U12, U13). Safe. -/
opaque Config.unspecified : Nat → BitVec 32

end Sys2Proof
end

