-- ==== Sys2Proof/Machine/State.lean ====
section
/-! DEFINITION. The state of the unit (10_state.md section 1, R10 to R22), the agents around it as plain data
(R12, R21; 20_memory.md R30), the transactions the host can issue (20_memory.md R31, R33; 70 R170), the reasons a
step can stop, and the state after reset. -/

namespace Sys2Proof.Machine

/-! ### Host transactions -/

/-- The ports the host writes (20_memory.md R31). -/
inductive WritePort where
  | cmd
  | din
  deriving DecidableEq, Repr

/-- The ports the host reads (20_memory.md R31). -/
inductive ReadPort where
  | status
  | dout
  | paramN
  | paramNR
  deriving DecidableEq, Repr

/-- One action of the host on the unit: a transaction of the abstract interface (20_memory.md R31), an access under
the bus binding (R33), or reset (70_reset_and_hazards.md R170). -/
inductive Transaction where
  /-- `PortWrite(p, w)`. -/
  | portWrite (p : WritePort) (w : Word)
  /-- `PortRead(p)`. -/
  | portRead (p : ReadPort)
  /-- A bus write of `bytes`, the first at the lowest address `addr` (R33, R37). -/
  | busWrite (addr : Nat) (bytes : List Byte)
  /-- A bus read of `size` bytes from `addr` (R33, R38). -/
  | busRead (addr size : Nat)
  /-- The reset input is asserted. -/
  | reset
  deriving DecidableEq, Repr

/-! ### Sources of draws -/

/-- One source of draws (20_memory.md R36): the answers the environment has lined up, the next one first, and how many
draws were made so far. A draw never fails: past the lined-up answers it gets a free value (log entry 5). -/
structure Source (α : Type) where
  answers : List α
  asked : Nat
  deriving DecidableEq, Repr

/-- One answer of the randomness source: what the draw gives as a word, and what it gives as a bit (20_memory.md R36).
The command that draws asks for one of the two, and the source has moved on by one answer either way, so that RNDU and
RNDB draw in issue order from one source (70_reset_and_hazards.md R177; log entry 5). -/
structure RandomAnswer where
  /-- The answer to `next_u32()`. -/
  word : Word
  /-- The answer to `next_bit()`. -/
  bit : BitVec 1
  deriving DecidableEq, Repr

/-! ### Faults of the unit -/

/-- The five fault causes (60_exceptions.md R151). A fault of the unit is a state change (`raiseFault`), not a stop. -/
inductive FaultCode where
  /-- `E_ILLEGAL`, 0x01: the word matches no row of the opcode map. -/
  | illegal
  /-- `E_REG`, 0x02: a register field in use holds an index `>= NR`. -/
  | reg
  /-- `E_UNINIT`, 0x03: a source register has `V = 0`. -/
  | uninit
  /-- `E_PARAM`, 0x04: `imm8` is outside 1..31. -/
  | param
  /-- `E_OBEMPTY`, 0x05: a DOUT read with `OVALID = 0`. -/
  | obEmpty
  deriving DecidableEq, Repr

/-! ### The state -/

/-- The state of the machine: the unit's own (10_state.md section 1), its constants (R15, R21), the host and the
sources as plain data, and the model's counter of free values. -/
structure State where
  /-- `N`, `NR`, `BASE`: constants that no step changes (10_state.md R15, R21; log entry 1). -/
  params : Params
  /-- `R[0..NR-1]` (10_state.md R10). -/
  regs : List RingElt
  /-- `V[0..NR-1]` (10_state.md R11). -/
  valid : List Bool
  /-- `FB[0..2N-1]` (10_state.md R16). -/
  fb : List Word
  /-- `wp` (10_state.md R16). -/
  wp : Nat
  /-- `OB[0..N-1]` (10_state.md R18). -/
  ob : List Word
  /-- `OVALID`, STATUS bit 2 (10_state.md R13, R18). -/
  ovalid : Bool
  /-- `rp` (10_state.md R18). -/
  rp : Nat
  /-- `STATUS.EQ`, STATUS bit 0 (10_state.md R13, R14). -/
  eq : Bool
  /-- `STATUS.FLT`, STATUS bit 1 (10_state.md R13; 60_exceptions.md R153). -/
  flt : Bool
  /-- `STATUS.CODE`, STATUS bits 15:8 (10_state.md R13; 60_exceptions.md R151). -/
  code : Byte
  /-- The host's transactions not yet issued, oldest first (10_state.md R12; log entry 4). -/
  pending : List Transaction
  /-- The values returned by the reads so far, oldest first (70_reset_and_hazards.md R181). -/
  observed : List Word
  /-- The randomness source, which RNDU and RNDB share (20_memory.md R36; 70_reset_and_hazards.md R177). -/
  random : Source RandomAnswer
  /-- The noise source, an input of its own (20_memory.md R36; 90_conflicts.md C6). -/
  noise : Source Word
  /-- The MODEL's own: how many unspecified words were used so far (log entry 6). No statement rests on its value. -/
  freeIx : Nat
  deriving DecidableEq, Repr

/-! ### Why a step can stop -/

/-- The reasons the machine stops with a fault: there is none. The unit never hangs (60_exceptions.md R156), its own
five faults are next states (`FaultCode`), and what is not a transaction of the unit is refused. Safe. -/
inductive Fault where
  deriving DecidableEq, Repr

/-- The reasons the model gives a step no meaning. -/
inductive Refusal where
  /-- Raised only by an arm of `exec` for a command without a meaning yet. There is none. Safe. -/
  | notModelled (mnemonic : String)
  /-- Raised by a bus access that touches the window and is not one aligned 32-bit word: the spec says a model must
  refuse it (20_memory.md R38; 93_implementation_defined.md U17; log entry 8). Safe. -/
  | notAWordAccess (addr size : Nat)
  /-- Raised by a bus access that touches no byte of the unit's window: it is the platform's, and the spec says to
  refuse it (20_memory.md R33; 93_implementation_defined.md U19; log entry 8). Safe. -/
  | outsideWindow (addr : Nat)
  deriving DecidableEq, Repr

/-- What a step or a meaning answers. -/
abbrev Result := Host.Outcome State Fault Refusal

/-! ### Reset values -/

/-- The machine with parameters `p` right after power-up (10_state.md R22; 70_reset_and_hazards.md R170; power-up
leaves the unit in the reset state). DESIGN CHOICE: the unspecified words are `Config.resetWord` (log entry 2, unsafe but
unobservable), no transaction is pending (log entry 4), no answer is lined up (log entry 5), no free value is used (log entry 6). -/
def State.resetOf (p : Params) : State :=
  { params := p,
    regs := List.replicate p.nr (List.replicate p.n Config.resetWord),
    valid := List.replicate p.nr false,
    fb := List.replicate (2 * p.n) 0,
    wp := 0,
    ob := List.replicate p.n Config.resetWord,
    ovalid := false,
    rp := 0,
    eq := false,
    flt := false,
    code := 0x00,
    pending := [],
    observed := [],
    random := { answers := [], asked := 0 },
    noise := { answers := [], asked := 0 },
    freeIx := 0 }

/-- The machine right after reset, for the parameters of `Config.params` (log entry 1). -/
def State.reset : State := State.resetOf Config.params

end Sys2Proof.Machine
end

