-- ==== Sys2Proof/Machine/Ops.lean ====
section
/-! DEFINITION. The shared operations: arithmetic on ring elements (00_scope.md R6; 40_ring_arith.md R75 to R80),
access to the ring registers, the two buffers, the draws, raising a fault and leaving the faulted state by reset
(60_exceptions.md R153, R157; 70_reset_and_hazards.md R170), and the byte order of the host bus (20_memory.md R37). -/

namespace Sys2Proof.Machine

/-! ### Ring elements -/

/-- Coefficient `i` of a ring element, the one of `X^i` (00_scope.md R7). Past the end, where no rule looks, 0. -/
def coeff (a : RingElt) (i : Nat) : Word := a.getD i 0

/-- The element whose coefficient `i` is `f i`, for each of the `n` lanes (40_ring_arith.md R87). -/
def lanes (n : Nat) (f : Nat → Word) : RingElt := (List.range n).map f

/-- `SUM32` of `f 0, .., f (k-1)`: iterated wrapping addition, 0 when empty (00_scope.md R6). -/
def sum32 : Nat → (Nat → Word) → Word
  | 0, _ => 0
  | k + 1, f => sum32 k f + f k

/-- The all-zero element of length `n` (40_ring_arith.md R73). -/
def ringZero (n : Nat) : RingElt := lanes n fun _ => 0

/-- Pointwise wrapping addition (40_ring_arith.md R78). -/
def ringAdd (n : Nat) (a b : RingElt) : RingElt := lanes n fun i => coeff a i + coeff b i

/-- Pointwise wrapping subtraction, first operand the minuend (40_ring_arith.md R79). -/
def ringSub (n : Nat) (a b : RingElt) : RingElt := lanes n fun i => coeff a i - coeff b i

/-- `pos` of 40_ring_arith.md R80: the sum over `j` in `0 .. i` of `a[j] * b[i - j]`. -/
def mulPos (a b : RingElt) (i : Nat) : Word := sum32 (i + 1) fun j => coeff a j * coeff b (i - j)

/-- `neg` of 40_ring_arith.md R80: the sum over `j` in `i+1 .. n-1` of `a[j] * b[n - (j - i)]`; here `j = i + 1 + k`. -/
def mulNeg (n : Nat) (a b : RingElt) (i : Nat) : Word :=
  sum32 (n - 1 - i) fun k => coeff a (i + 1 + k) * coeff b (n - (i + 1 + k - i))

/-- Negacyclic convolution (40_ring_arith.md R80): every allowed multiplier gives this result (R84). -/
def ringMul (n : Nat) (a b : RingElt) : RingElt := lanes n fun i => mulPos a b i - mulNeg n a b i

/-- The fold of a buffer of `2n` words by `X^n = -1` (40_ring_arith.md R75). -/
def ringFold (n : Nat) (buf : List Word) : RingElt := lanes n fun i => coeff buf i - coeff buf (i + n)

/-- `n` zero-extended bits (41_lwe_codec.md R108: `zext_32`). -/
def bitElt (bits : List (BitVec 1)) : RingElt := bits.map fun b => b.setWidth 32

/-! ### Ring registers (10_state.md R10, R11) -/

/-- `R[r]`. -/
def State.reg (s : State) (r : RegNum) : RingElt := s.regs.getD r []

/-- `V[r]`. -/
def State.isValid (s : State) (r : RegNum) : Bool := s.valid.getD r false

/-- `R[rd] <- v ; V[rd] <- 1`: the only way a ring register changes (10_state.md R11, R23). -/
def State.setReg (s : State) (rd : RegNum) (v : RingElt) : State :=
  { s with regs := s.regs.set rd v, valid := s.valid.set rd true }

/-! ### The fold buffer (10_state.md R16) -/

/-- `FB[wp] <- w ; wp <- (wp + 1) mod 2N` (20_memory.md R32): a list longer than 2N wraps and overwrites. -/
def State.pushFold (s : State) (w : Word) : State :=
  { s with fb := s.fb.set s.wp w, wp := (s.wp + 1) % (2 * s.params.n) }

/-- Every `FB[j] <- 0 ; wp <- 0` (40_ring_arith.md R74, R75). -/
def State.clearFold (s : State) : State :=
  { s with fb := List.replicate (2 * s.params.n) 0, wp := 0 }

/-! ### The output buffer (10_state.md R18) -/

/-- `OB <- v ; OVALID <- 1 ; rp <- 0` (40_ring_arith.md R77). -/
def State.setOutput (s : State) (v : RingElt) : State :=
  { s with ob := lanes s.params.n (coeff v), ovalid := true, rp := 0 }

/-- `rp <- (rp + 1) mod N` (20_memory.md R34). -/
def State.advanceOut (s : State) : State := { s with rp := (s.rp + 1) % s.params.n }

/-! ### What the host learns (70_reset_and_hazards.md R181) -/

/-- A read returned `w`. -/
def State.observe (s : State) (w : Word) : State := { s with observed := s.observed ++ [w] }

/-- A read returned an unspecified word (20_memory.md R34; U3): a free value, a new one each time (log entry 6). -/
def State.observeFree (s : State) : State :=
  { s with observed := s.observed ++ [Config.unspecified s.freeIx], freeIx := s.freeIx + 1 }

/-! ### Draws (20_memory.md R36; 41_lwe_codec.md R106) -/

/-- One draw: the next lined-up answer, else a free value (log entry 5). -/
def drawOne {α : Type} (free : Nat → α) (p : Source α) : α × Source α :=
  match p.answers with
  | [] => (free p.asked, { answers := [], asked := p.asked + 1 })
  | a :: rest => (a, { answers := rest, asked := p.asked + 1 })

/-- `k` draws in order, the first answer first. -/
def drawMany {α : Type} (free : Nat → α) : Nat → Source α → List α × Source α
  | 0, p => ([], p)
  | k + 1, p =>
    let first := drawOne free p
    let others := drawMany free k first.2
    (first.1 :: others.1, others.2)

/-- The randomness source's answer at its `j`-th draw, where none is lined up: the two free values (log entry 5). -/
def freeRandom (j : Nat) : RandomAnswer := { word := Config.drawWord j, bit := Config.drawBit j }

/-! ### Faults and reset -/

/-- The code a fault records (60_exceptions.md R151). -/
def faultByte : FaultCode → Byte
  | .illegal => 0x01
  | .reg => 0x02
  | .uninit => 0x03
  | .param => 0x04
  | .obEmpty => 0x05

/-- `raise Fault(code)` (60_exceptions.md R153): the unit's exception entry. Nothing is saved and control goes
nowhere; the first fault since reset is kept. -/
def raiseFault (c : FaultCode) (s : State) : State :=
  if s.flt then s else { s with code := faultByte c, flt := true }

/-- `k` unspecified words, the free values from number `start` on (U11, U12, U13). -/
def freeWords (k start : Nat) : List Word := (List.range k).map fun i => Config.unspecified (start + i)

/-- Reset (70_reset_and_hazards.md R170): the only way out of the faulted state (60_exceptions.md R157). The contents
of the registers and of OB are unspecified afterwards (10_state.md R22; U13): free values (log entry 3). The sources
are not touched (R171), nor the host. -/
def resetUnit (s : State) : State :=
  { s with
    regs := (List.range s.params.nr).map fun r => freeWords s.params.n (s.freeIx + r * s.params.n),
    valid := List.replicate s.params.nr false,
    fb := List.replicate (2 * s.params.n) 0,
    wp := 0,
    ob := freeWords s.params.n (s.freeIx + s.params.nr * s.params.n),
    ovalid := false,
    rp := 0,
    eq := false,
    flt := false,
    code := 0x00,
    freeIx := s.freeIx + s.params.nr * s.params.n + s.params.n }

/-! ### Shapes of the storage spaces (10_state.md R19) -/

/-- Every storage space has its fixed number of words: NR registers of N words with NR valid bits, 2N words of FB, N
words of OB (10_state.md R10, R11, R16, R18). A list of fixed length is its own canonical form (log entry 7). -/
def Memory.wf (s : State) : Bool :=
  decide (s.regs.length = s.params.nr) && s.regs.all (fun v => decide (v.length = s.params.n)) &&
    decide (s.valid.length = s.params.nr) && decide (s.fb.length = 2 * s.params.n) && decide (s.ob.length = s.params.n)

/-! ### Byte lanes of the host bus (20_memory.md R37) -/

/-- The word whose bits 7:0 are the byte at the lowest address (little-endian lanes). -/
def wordOfBytes : List Byte → Word
  | [] => 0
  | b :: rest => b.setWidth 32 ||| (wordOfBytes rest <<< 8)

/-- The four bytes of a word, the one at the lowest address first. -/
def bytesOfWord (w : Word) : List Byte :=
  [w.extractLsb' 0 8, w.extractLsb' 8 8, w.extractLsb' 16 8, w.extractLsb' 24 8]

end Sys2Proof.Machine
end

