-- ==== Sys2Proof/Machine/Operands.lean ====
section
/-! DEFINITION. The operand forms (30_encoding.md R51, R52) and the checks a command makes on them before any state
change and any draw, in their fixed order (40_ring_arith.md R71; 60_exceptions.md R152, R155). -/

namespace Sys2Proof.Machine

/-! ### The plaintext width `b` (41_lwe_codec.md R100) -/

/-- `1 <= b <= 31`. -/
def legalWidth (b : Nat) : Bool := decide (1 ≤ b) && decide (b ≤ 31)

/-- The encoding shift `s = 32 - b`. -/
def encodingShift (b : Nat) : Nat := 32 - b

/-- The decoding threshold `h = 2^(31-b)`, half of the decoding step. -/
def halfStep (b : Nat) : Word := BitVec.ofNat 32 (2 ^ (31 - b))

/-! ### The checks -/

/-- Steps 2 to 4 of 60_exceptions.md R155: the fault of the first check that fails, if any. `used` are the register
fields the format uses, `imm` its immediate if it has one, `sources` the registers it reads. -/
def commandFault (s : State) (used : List RegNum) (imm : Option Nat) (sources : List RegNum) : Option FaultCode :=
  if used.any (fun r => decide (s.params.nr ≤ r)) then some .reg
  else if imm.any (fun b => !legalWidth b) then some .param
  else if sources.any (fun r => !s.isValid r) then some .uninit
  else none

/-- A command's execution (30_encoding.md R55, R59; 40_ring_arith.md R70): it faults and changes nothing else, or it
has its whole effect. -/
def command (used : List RegNum) (imm : Option Nat) (sources : List RegNum) (effect : State → State) (s : State) :
    Result :=
  match commandFault s used imm sources with
  | some c => .next (raiseFault c s)
  | none => .next (effect s)

/-! ### What each format uses (30_encoding.md R51; 60_exceptions.md R152) -/

/-- The register fields a command uses, as R152 examines them: rd, rs1, rs2. -/
def usedRegs : Instr → List RegNum
  | .zero rd | .fold rd | .rndu rd | .rndb rd => [rd]
  | .fbclr => []
  | .st rs1 => [rs1]
  | .add rd rs1 rs2 | .sub rd rs1 rs2 | .mul rd rs1 rs2 => [rd, rs1, rs2]
  | .cmpeq rs1 rs2 => [rs1, rs2]
  | .enc rd rs1 _ | .dec rd rs1 _ | .addn rd rs1 => [rd, rs1]

/-- The source registers a command reads. -/
def sourceRegs : Instr → List RegNum
  | .zero _ | .fold _ | .rndu _ | .rndb _ | .fbclr => []
  | .st rs1 | .enc _ rs1 _ | .dec _ rs1 _ | .addn _ rs1 => [rs1]
  | .add _ rs1 rs2 | .sub _ rs1 rs2 | .mul _ rs1 rs2 | .cmpeq rs1 rs2 => [rs1, rs2]

/-- The immediate of format DSI. -/
def immediateOf : Instr → Option Nat
  | .enc _ _ imm | .dec _ _ imm => some imm
  | .zero _ | .fold _ | .fbclr | .st _ | .add _ _ _ | .sub _ _ _ | .mul _ _ _ | .cmpeq _ _ | .addn _ _ | .rndu _
  | .rndb _ => none

/-- The destination register, of the formats that have one. -/
def destReg : Instr → Option RegNum
  | .zero rd | .fold rd | .rndu rd | .rndb rd | .add rd _ _ | .sub rd _ _ | .mul rd _ _ | .enc rd _ _ | .dec rd _ _
  | .addn rd _ => some rd
  | .fbclr | .st _ | .cmpeq _ _ => none

/-! ### Coefficient coding -/

/-- One payload into the high bits: `(v * 2^s) mod 2^32` (41_lwe_codec.md R101). -/
def encodeWord (b : Nat) (v : Word) : Word := v <<< encodingShift b

/-- One coefficient rounded to the nearest multiple of the decoding step: `(c + h) >> s`, the sum wrapping and the
shift logical (41_lwe_codec.md R103; 90_conflicts.md C7). -/
def decodeWord (b : Nat) (c : Word) : Word := (c + halfStep b) >>> encodingShift b

end Sys2Proof.Machine
end

