-- ==== Sys2Proof/Machine/Flags.lean ====
section
/-! DEFINITION. The condition flag and the status word (10_state.md R13, R14). There is no carry, overflow, zero or
sign flag (R14; 40_ring_arith.md R86). -/

namespace Sys2Proof.Machine

/-- `equals(a, b)` (40_ring_arith.md R81): every one of the `n` coefficient pairs matches. -/
def ringEq (n : Nat) (a b : RingElt) : Bool := (List.range n).all fun i => coeff a i == coeff b i

/-- `STATUS.EQ <- e`. -/
def State.setEq (s : State) (e : Bool) : State := { s with eq := e }

/-- The STATUS word: `{0[31:16], CODE[7:0], 0[7:3], OVALID, FLT, EQ}` (10_state.md R13). -/
def statusWord (s : State) : Word :=
  (0#16 ++ s.code ++ 0#5 ++ BitVec.ofBool s.ovalid ++ BitVec.ofBool s.flt ++ BitVec.ofBool s.eq)

end Sys2Proof.Machine
end

