-- ==== Sys2Proof/Machine/Lwe.lean ====
section
/-! DEFINITION. The coefficient pipeline: ENC, DEC, ADDN, RNDU, RNDB (41_lwe_codec.md R101 to R108). -/

namespace Sys2Proof.Machine

/-- ENC: payloads into the high bits (41_lwe_codec.md R101); the payload's range is not checked. -/
def execEnc (rd rs1 : RegNum) (imm : Nat) (s : State) : Result :=
  command [rd, rs1] (some imm) [rs1]
    (fun s => s.setReg rd (lanes s.params.n fun i => encodeWord imm (coeff (s.reg rs1) i))) s

/-- DEC: round to the nearest multiple of the decoding step (41_lwe_codec.md R103); never a fault for a coefficient
outside the window (60_exceptions.md R159). -/
def execDec (rd rs1 : RegNum) (imm : Nat) (s : State) : Result :=
  command [rd, rs1] (some imm) [rs1]
    (fun s => s.setReg rd (lanes s.params.n fun i => decodeWord imm (coeff (s.reg rs1) i))) s

/-- ADDN: one noise draw per coefficient, coefficient 0 first, added with wrap (41_lwe_codec.md R102, R106, R109). -/
def execAddn (rd rs1 : RegNum) (s : State) : Result :=
  command [rd, rs1] none [rs1]
    (fun s =>
      let drawn := drawMany Config.drawNoise s.params.n s.noise
      { s.setReg rd (ringAdd s.params.n (s.reg rs1) drawn.1) with noise := drawn.2 }) s

/-- RNDU: one word draw of the randomness source per coefficient, coefficient 0 first (41_lwe_codec.md R107, R106). -/
def execRndu (rd : RegNum) (s : State) : Result :=
  command [rd] none []
    (fun s =>
      let drawn := drawMany freeRandom s.params.n s.random
      { s.setReg rd (drawn.1.map RandomAnswer.word) with random := drawn.2 }) s

/-- RNDB: one bit draw of the same source per coefficient, coefficient 0 first (41_lwe_codec.md R108, R106;
70_reset_and_hazards.md R177). -/
def execRndb (rd : RegNum) (s : State) : Result :=
  command [rd] none []
    (fun s =>
      let drawn := drawMany freeRandom s.params.n s.random
      { s.setReg rd (bitElt (drawn.1.map RandomAnswer.bit)) with random := drawn.2 }) s

end Sys2Proof.Machine
end

