-- ==== Sys2Proof/Machine/Ring.lean ====
section
/-! DEFINITION. The ring commands: ZERO, FOLD, FBCLR, ST, ADD, SUB, MUL, CMPEQ (40_ring_arith.md R73 to R81). -/

namespace Sys2Proof.Machine

/-- ZERO: the default constructor (40_ring_arith.md R73). -/
def execZero (rd : RegNum) (s : State) : Result :=
  command [rd] none [] (fun s => s.setReg rd (ringZero s.params.n)) s

/-- FOLD: the folding constructor, which then clears the fold buffer (40_ring_arith.md R75). -/
def execFold (rd : RegNum) (s : State) : Result :=
  command [rd] none [] (fun s => (s.setReg rd (ringFold s.params.n s.fb)).clearFold) s

/-- FBCLR: clear the fold buffer (40_ring_arith.md R74). -/
def execFbclr (s : State) : Result :=
  command [] none [] State.clearFold s

/-- ST: copy a register into the output buffer (40_ring_arith.md R77). -/
def execSt (rs1 : RegNum) (s : State) : Result :=
  command [rs1] none [rs1] (fun s => s.setOutput (s.reg rs1)) s

/-- ADD (40_ring_arith.md R78); any aliasing is allowed (R72). -/
def execAdd (rd rs1 rs2 : RegNum) (s : State) : Result :=
  command [rd, rs1, rs2] none [rs1, rs2]
    (fun s => s.setReg rd (ringAdd s.params.n (s.reg rs1) (s.reg rs2))) s

/-- SUB (40_ring_arith.md R79). -/
def execSub (rd rs1 rs2 : RegNum) (s : State) : Result :=
  command [rd, rs1, rs2] none [rs1, rs2]
    (fun s => s.setReg rd (ringSub s.params.n (s.reg rs1) (s.reg rs2))) s

/-- MUL (40_ring_arith.md R80). -/
def execMul (rd rs1 rs2 : RegNum) (s : State) : Result :=
  command [rd, rs1, rs2] none [rs1, rs2]
    (fun s => s.setReg rd (ringMul s.params.n (s.reg rs1) (s.reg rs2))) s

/-- CMPEQ: the only writer of `STATUS.EQ` but reset (40_ring_arith.md R81; 10_state.md R14). -/
def execCmpeq (rs1 rs2 : RegNum) (s : State) : Result :=
  command [rs1, rs2] none [rs1, rs2]
    (fun s => s.setEq (ringEq s.params.n (s.reg rs1) (s.reg rs2))) s

end Sys2Proof.Machine
end

