-- ==== Sys2Proof/Machine/Dispatch.lean ====
section
/-! DEFINITION. One arm per command: `Execute(w)` after decoding (30_encoding.md R55). -/

namespace Sys2Proof.Machine

def exec (i : Instr) (s : State) : Host.Outcome State Fault Refusal :=
  match i with
  | .zero rd => Sys2Proof.Machine.execZero rd s
  | .fold rd => Sys2Proof.Machine.execFold rd s
  | .fbclr => Sys2Proof.Machine.execFbclr s
  | .st rs1 => Sys2Proof.Machine.execSt rs1 s
  | .add rd rs1 rs2 => Sys2Proof.Machine.execAdd rd rs1 rs2 s
  | .sub rd rs1 rs2 => Sys2Proof.Machine.execSub rd rs1 rs2 s
  | .mul rd rs1 rs2 => Sys2Proof.Machine.execMul rd rs1 rs2 s
  | .cmpeq rs1 rs2 => Sys2Proof.Machine.execCmpeq rs1 rs2 s
  | .enc rd rs1 imm => Sys2Proof.Machine.execEnc rd rs1 imm s
  | .dec rd rs1 imm => Sys2Proof.Machine.execDec rd rs1 imm s
  | .addn rd rs1 => Sys2Proof.Machine.execAddn rd rs1 s
  | .rndu rd => Sys2Proof.Machine.execRndu rd s
  | .rndb rd => Sys2Proof.Machine.execRndb rd s

end Sys2Proof.Machine
end

