-- ==== Sys2Proof/Machine/Ports.lean ====
section
/-! DEFINITION. What each host transaction does (20_memory.md R31 to R46; 60_exceptions.md R154;
70_reset_and_hazards.md R170), on the abstract ports and under the bus binding. -/

namespace Sys2Proof.Machine

/-! ### The ports -/

/-- `PortWrite(CMD, w)` (20_memory.md R46): nothing in the faulted state (60_exceptions.md R154), else `Execute(w)`
(30_encoding.md R55), where a word that is no command raises `E_ILLEGAL` (R54). -/
def writeCmd (w : Word) (s : State) : Result :=
  if s.flt then .next s
  else
    match decode w with
    | .ok i => exec i s
    | .error _ => .next (raiseFault .illegal s)

/-- `PortWrite(DIN, w)` (20_memory.md R32): nothing in the faulted state, else the next word of the fold buffer. -/
def writeDin (w : Word) (s : State) : State :=
  if s.flt then s else s.pushFold w

/-- `PortRead(DOUT)` (20_memory.md R34): an unspecified word in the faulted state; a fault and an unspecified word
with nothing stored; else the next word of the output buffer. -/
def readDout (s : State) : State :=
  if s.flt then s.observeFree
  else if s.ovalid then (s.observe (coeff s.ob s.rp)).advanceOut
  else (raiseFault .obEmpty s).observeFree

/-- `PortRead(STATUS)` (10_state.md R13; 20_memory.md R35). -/
def readStatus (s : State) : State := s.observe (statusWord s)

/-- `PortRead(PARAM_N)` (10_state.md R15). -/
def readParamN (s : State) : State := s.observe (BitVec.ofNat 32 s.params.n)

/-- `PortRead(PARAM_NR)` (10_state.md R15). -/
def readParamNR (s : State) : State := s.observe (BitVec.ofNat 32 s.params.nr)

/-- A write to one of the two write ports. -/
def writePort (p : WritePort) (w : Word) (s : State) : Result :=
  match p with
  | .cmd => writeCmd w s
  | .din => .next (writeDin w s)

/-- A read of one of the four read ports. -/
def readPort (p : ReadPort) (s : State) : State :=
  match p with
  | .status => readStatus s
  | .dout => readDout s
  | .paramN => readParamN s
  | .paramNR => readParamNR s

/-! ### The bus binding (20_memory.md R33) -/

/-- Whether an access of `size` bytes at `addr` touches a byte of the unit's 32-byte window. -/
def touchesWindow (p : Params) (addr size : Nat) : Bool :=
  decide (addr < p.base + 32) && decide (p.base < addr + size)

/-- Whether an access is one aligned 32-bit word of the window (20_memory.md R38). -/
def isWordAccess (p : Params) (addr size : Nat) : Bool :=
  decide (size = 4) && decide (p.base ≤ addr) && decide (addr < p.base + 32) && decide ((addr - p.base) % 4 = 0)

/-- A word write at offset `off` of the window (R33): CMD at 0x00, DIN at 0x08, ignored everywhere else. -/
def busWriteAt (off : Nat) (w : Word) (s : State) : Result :=
  if off = 0x00 then writePort .cmd w s
  else if off = 0x08 then writePort .din w s
  else .next s

/-- A word read at offset `off` of the window (R33): the read ports, and 0 with no side effect everywhere else. -/
def busReadAt (off : Nat) (s : State) : State :=
  if off = 0x04 then readPort .status s
  else if off = 0x0C then readPort .dout s
  else if off = 0x10 then readPort .paramN s
  else if off = 0x14 then readPort .paramNR s
  else s.observe 0

/-- An access that is not one aligned word of the window: refused, by the reason: it touches the window (R38;
U17), or it is the platform's (R33; U19). -/
def strayAccess (p : Params) (addr size : Nat) : Result :=
  if touchesWindow p addr size then .refused (.notAWordAccess addr size) else .refused (.outsideWindow addr)

/-- A bus write, its bytes in little-endian lanes (R33, R37, R38). -/
def busWrite (addr : Nat) (bytes : List Byte) (s : State) : Result :=
  if isWordAccess s.params addr bytes.length then busWriteAt (addr - s.params.base) (wordOfBytes bytes) s
  else strayAccess s.params addr bytes.length

/-- A bus read (R33, R38). The value is observed as a word; its bytes are `bytesOfWord` of it (R37). -/
def busRead (addr size : Nat) (s : State) : Result :=
  if isWordAccess s.params addr size then .next (busReadAt (addr - s.params.base) s)
  else strayAccess s.params addr size

/-! ### One transaction -/

/-- The whole atomic state change of one host transaction (20_memory.md R30, R31, R39). -/
def perform (t : Transaction) (s : State) : Result :=
  match t with
  | .portWrite p w => writePort p w s
  | .portRead p => .next (readPort p s)
  | .busWrite addr bytes => busWrite addr bytes s
  | .busRead addr size => busRead addr size s
  | .reset => .next (resetUnit s)

/-- The host's next transaction, if it has one, taken from its list. -/
def nextTransaction (s : State) : Option (Transaction × State) :=
  match s.pending with
  | [] => none
  | t :: rest => some (t, { s with pending := rest })

/-- The host is about to write the word `w` to CMD, before what it had planned. -/
def State.planCommand (s : State) (w : Word) : State :=
  { s with pending := .portWrite .cmd w :: s.pending }

end Sys2Proof.Machine
end

