-- ==== Sys2Proof/Machine/Step.lean ====
section
/-! DEFINITION. One step of the machine: the host's next transaction, completely (10_state.md R12; 20_memory.md R30,
R41). With no transaction pending nothing changes: the unit never acts unprompted (R30; 60_exceptions.md R166). -/

namespace Sys2Proof.Machine

/-- One step. A next state, but for stray bus accesses, which are refused. -/
def step (s : State) : Host.Outcome State Fault Refusal :=
  match nextTransaction s with
  | none => .next s
  | some (t, s') => perform t s'

/-- The state in which the very next step runs the command word `w`: the unit fetches nothing (10_state.md R12), so
the word is the host's next CMD write (log entry 4). -/
def State.withFetchWord (s : State) (nbits w : Nat) : State :=
  s.planCommand (BitVec.ofNat 32 (w % 2 ^ nbits))

end Sys2Proof.Machine
end

