-- ==== Sys2Proof/Machine/Protocol.lean ====
section
/-! DEFINITION. The host's listings (30_encoding.md R57) and the eight pseudo-instructions as the host sequences they
stand for (R58; 42_lwe_protocol.md R120 to R136). No step of the machine uses this file: a pseudo-instruction has no
encoding and is not atomic. -/

namespace Sys2Proof.Machine

/-! ### Listing lines (30_encoding.md R57) -/

/-- A line of a listing: one host transaction. -/
inductive Line where
  | command (i : Instr)
  | din (w : Word)
  | dout
  | status
  | reset
  deriving DecidableEq, Repr

/-- The transaction a line stands for. -/
def lineTransaction : Line → Transaction
  | .command i => .portWrite .cmd (encode i)
  | .din w => .portWrite .din w
  | .dout => .portRead .dout
  | .status => .portRead .status
  | .reset => .reset

/-- The text of a register operand. -/
def regText (r : RegNum) : String := "R" ++ toString r

/-- Operand texts, separated as in R57. -/
def operandText : List String → String
  | [] => ""
  | [x] => x
  | x :: rest => x ++ ", " ++ operandText rest

/-- A command in the text form of R57: mnemonic, destination first, immediate last. -/
def instrText : Instr → String
  | .zero rd => "ZERO " ++ operandText [regText rd]
  | .fold rd => "FOLD " ++ operandText [regText rd]
  | .fbclr => "FBCLR"
  | .st rs1 => "ST " ++ operandText [regText rs1]
  | .add rd rs1 rs2 => "ADD " ++ operandText [regText rd, regText rs1, regText rs2]
  | .sub rd rs1 rs2 => "SUB " ++ operandText [regText rd, regText rs1, regText rs2]
  | .mul rd rs1 rs2 => "MUL " ++ operandText [regText rd, regText rs1, regText rs2]
  | .cmpeq rs1 rs2 => "CMPEQ " ++ operandText [regText rs1, regText rs2]
  | .enc rd rs1 imm => "ENC " ++ operandText [regText rd, regText rs1, "#" ++ toString imm]
  | .dec rd rs1 imm => "DEC " ++ operandText [regText rd, regText rs1, "#" ++ toString imm]
  | .addn rd rs1 => "ADDN " ++ operandText [regText rd, regText rs1]
  | .rndu rd => "RNDU " ++ operandText [regText rd]
  | .rndb rd => "RNDB " ++ operandText [regText rd]

/-- A whole line in the text form of R57 (results unnamed). -/
def lineText : Line → String
  | .command i => instrText i
  | .din w => "DIN " ++ toString w.toNat
  | .dout => "DOUT"
  | .status => "STATUS"
  | .reset => "RESET"

/-- The host plans to issue the lines `l` next, in order (70_reset_and_hazards.md R181). -/
def State.plan (s : State) (l : List Line) : State :=
  { s with pending := l.map lineTransaction ++ s.pending }

/-! ### Load and read-out -/

/-- `LDX Rd, ws`: the exact-length constructor, meant for exactly N words and a fresh fold buffer
(42_lwe_protocol.md R123; the unit does not count them). -/
def ldx (rd : RegNum) (ws : List Word) : List Line := ws.map .din ++ [.command (.fold rd)]

/-- `LDF Rd, ws`: the folding constructor, for any length and a fresh fold buffer (42_lwe_protocol.md R124). -/
def ldf (rd : RegNum) (ws : List Word) : List Line := ws.map .din ++ [.command (.fold rd)]

/-- `RDR Rs`: read an element out, exactly N reads (42_lwe_protocol.md R125). -/
def rdr (n : Nat) (rs : RegNum) : List Line := .command (.st rs) :: List.replicate n .dout

/-! ### Key generation, encryption, decryption -/

/-- `KEYGEN kb` for `k` key elements (42_lwe_protocol.md R126). -/
def keygen (k : Nat) (kb : RegNum) : List Line := (List.range k).map fun i => .command (.rndb (kb + i))

/-- Step 1 of ENCRYPT: `k` fresh masks (42_lwe_protocol.md R127). -/
def encryptMasks (k : Nat) (cb : RegNum) : List Line := (List.range k).map fun i => .command (.rndu (cb + i))

/-- Step 2 of ENCRYPT: the phase, from the zero element (42_lwe_protocol.md R127). -/
def encryptPhase (k : Nat) (cb kb t : RegNum) : List Line :=
  .command (.zero (cb + k)) :: (List.range k).flatMap fun i =>
    [.command (.mul t (kb + i) (cb + i)), .command (.add (cb + k) (cb + k) t)]

/-- `ENCRYPT cb, kb, pt, t, #b` (42_lwe_protocol.md R127): the document's six steps in its order. -/
def encryptLines (k : Nat) (cb kb pt t : RegNum) (b : Nat) : List Line :=
  encryptMasks k cb ++ encryptPhase k cb kb t ++
    [.command (.enc t pt b), .command (.addn t t), .command (.add (cb + k) (cb + k) t)]

/-- Steps 1 and 2 of DECRYPT: the residual, rounded (42_lwe_protocol.md R129); `k >= 1` (R120). -/
def decryptCompute (k : Nat) (out cb kb t : RegNum) (b : Nat) : List Line :=
  [.command (.mul t kb cb), .command (.sub out (cb + k) t)] ++
    ((List.range (k - 1)).flatMap fun i =>
      [.command (.mul t (kb + (i + 1)) (cb + (i + 1))), .command (.sub out out t)]) ++
    [.command (.dec out out b)]

/-- `DECRYPT out, cb, kb, t, #b` with its read-out (42_lwe_protocol.md R129). -/
def decryptLines (n k : Nat) (out cb kb t : RegNum) (b : Nat) : List Line :=
  decryptCompute k out cb kb t b ++ rdr n out

/-! ### Ciphertext algebra -/

/-- `CTADD cd, c1, c2` (42_lwe_protocol.md R131). -/
def ctadd (k : Nat) (cd c1 c2 : RegNum) : List Line :=
  (List.range (k + 1)).map fun i => .command (.add (cd + i) (c1 + i) (c2 + i))

/-- `CTEQ c1, c2` (42_lwe_protocol.md R133): the host does not stop early. -/
def cteq (k : Nat) (c1 c2 : RegNum) : List Line :=
  (List.range (k + 1)).flatMap fun i => [.command (.cmpeq (c1 + i) (c2 + i)), .status]

/-- The host's answer of CTEQ from the STATUS words it read (42_lwe_protocol.md R133): the AND of their bits 0. -/
def cteqAnswer (statuses : List Word) : Bool := statuses.all fun w => w.getLsbD 0

/-! ### The protocol's properties, as host sequences (42_lwe_protocol.md R134)

The four properties the document asks to be testable, each the sequence of lines that puts it to the test. The premise
under which each holds is in Sys2Proof/Safety.lean (`inWindow`, `noiseTotal`, `SameDraws`). -/

/-- R134, "Round trip": encrypt, then decrypt with the same key (R127, R129). -/
def roundTripLines (n k : Nat) (out cb kb pt t : RegNum) (b : Nat) : List Line :=
  encryptLines k cb kb pt t b ++ decryptLines n k out cb kb t b

/-- R134, "Non-determinism": two calls of encrypt, with the same plaintext and the same key (R128). -/
def encryptTwiceLines (k : Nat) (c1 c2 kb pt t : RegNum) (b : Nat) : List Line :=
  encryptLines k c1 kb pt t b ++ encryptLines k c2 kb pt t b

/-- R134, "Homomorphic addition": encrypt two plaintexts, add in place, decrypt (R132). -/
def homomorphicLines (n k : Nat) (out c1 c2 kb p1 p2 t : RegNum) (b : Nat) : List Line :=
  encryptLines k c1 kb p1 t b ++ encryptLines k c2 kb p2 t b ++ ctadd k c1 c1 c2 ++ decryptLines n k out c1 kb t b

/-- R134, "Bounded chained addition": `adds` times, a freshly encrypted copy of a fixed plaintext is added to a running
sum, which starts as one encryption of it (R127, R131). -/
def chainedAddLines (k : Nat) (acc fresh kb pt t : RegNum) (b : Nat) : Nat → List Line
  | 0 => encryptLines k acc kb pt t b
  | adds + 1 => chainedAddLines k acc fresh kb pt t b adds ++ encryptLines k fresh kb pt t b ++ ctadd k acc acc fresh

/-- That sum, then decrypted. -/
def chainedAdditionLines (n k : Nat) (out acc fresh kb pt t : RegNum) (b adds : Nat) : List Line :=
  chainedAddLines k acc fresh kb pt t b adds ++ decryptLines n k out acc kb t b

/-! ### Register conventions (42_lwe_protocol.md R120 to R122, R136) -/

/-- The registers `base .. base + k - 1`. -/
def regRange (base : RegNum) (k : Nat) : List RegNum := (List.range k).map fun i => base + i

/-- "below NR and pairwise distinct" (R120). -/
def layoutOk (nr : Nat) (regs : List RegNum) : Bool := regs.all (fun r => decide (r < nr)) && decide regs.Nodup

/-- The registers ENCRYPT names: key, ciphertext, plaintext, scratch (R120: `2k + 3` of them). -/
def encryptRegs (k : Nat) (cb kb pt t : RegNum) : List RegNum := regRange kb k ++ regRange cb (k + 1) ++ [pt, t]

/-- The registers DECRYPT names: key, ciphertext, output, scratch (R129). -/
def decryptRegs (k : Nat) (out cb kb t : RegNum) : List RegNum := regRange kb k ++ regRange cb (k + 1) ++ [out, t]

/-- Two ciphertexts' register ranges are the same or apart (R131: partial overlap is not allowed). -/
def sameOrApart (k c1 c2 : Nat) : Bool := decide (c1 = c2) || decide (c1 + k < c2) || decide (c2 + k < c1)

/-- The key at `kb` is *ready*: all of its `k` registers are valid (R122). -/
def keyReady (s : State) (k : Nat) (kb : RegNum) : Bool := (regRange kb k).all s.isValid

/-- A ciphertext: the `k` mask components and the phase component at `cb` (R121). -/
def ciphertextAt (s : State) (k : Nat) (cb : RegNum) : List RingElt := (regRange cb (k + 1)).map s.reg

/-- All of a ciphertext's components were written. -/
def ciphertextValid (s : State) (k : Nat) (cb : RegNum) : Bool := (regRange cb (k + 1)).all s.isValid

/-- Coefficient `j` of the sum over `i < k` of `key_i * mask_i` (R127 step 2, R129 step 1). -/
def maskSum (s : State) (k : Nat) (kb cb : RegNum) (j : Nat) : Word :=
  sum32 k fun i => coeff (ringMul s.params.n (s.reg (kb + i)) (s.reg (cb + i))) j

end Sys2Proof.Machine
end

