-- ==== Sys2Proof/Safety.lean ====
section
/-! DEFINITION. The terms claims use: a good run (70_reset_and_hazards.md R181), the states a machine can be in, what
a command leaves alone, and when two states look the same to every host (10_state.md R11, R18). -/

namespace Sys2Proof.Machine

/-! ### Good states and the invariant -/

/-- No fault is recorded (70_reset_and_hazards.md R178, R181). -/
def State.good (s : State) : Prop := s.flt = false

/-- The pointers are inside their buffers (10_state.md R16, R18). -/
def pointersOk (s : State) : Bool := decide (s.wp < 2 * s.params.n) && decide (s.rp < s.params.n)

/-- `CODE` is 0x00 while `FLT = 0`, and one of the five codes while `FLT = 1` (10_state.md R13; 60_exceptions.md
R151). -/
def statusOk (s : State) : Bool :=
  if s.flt then decide (1 ≤ s.code.toNat) && decide (s.code.toNat ≤ 5) else decide (s.code = 0x00)

/-- The invariant of the machine: parameters in range, storage of the fixed sizes, pointers inside, status coherent. -/
def State.wf (s : State) : Bool := s.params.ok && Memory.wf s && pointersOk s && statusOk s

/-- The fold buffer is fresh: all zero, and written from the start (10_state.md R17). -/
def foldFresh (s : State) : Prop := (∀ j < 2 * s.params.n, coeff s.fb j = 0) ∧ s.wp = 0

/-! ### What is left alone -/

/-- Every ring register and valid bit is as before. -/
def KeepsRegs (s t : State) : Prop := ∀ r, t.reg r = s.reg r ∧ t.isValid r = s.isValid r

/-- Every ring register and valid bit but those of `rd` is as before. -/
def KeepsRegsBut (rd : RegNum) (s t : State) : Prop := ∀ r, r ≠ rd → t.reg r = s.reg r ∧ t.isValid r = s.isValid r

/-- Every word of the fold buffer and its pointer are as before. -/
def KeepsFold (s t : State) : Prop := t.fb = s.fb ∧ t.wp = s.wp

/-- Every word of the output buffer, its pointer and its flag are as before. -/
def KeepsOutput (s t : State) : Prop := t.ob = s.ob ∧ t.ovalid = s.ovalid ∧ t.rp = s.rp

/-- No fault was raised or cleared. -/
def KeepsFault (s t : State) : Prop := t.flt = s.flt ∧ t.code = s.code

/-- No value was drawn. -/
def KeepsSources (s t : State) : Prop := t.random = s.random ∧ t.noise = s.noise

/-- The constants, the host's list and log, and the model's counter. -/
def KeepsHost (s t : State) : Prop :=
  t.params = s.params ∧ t.pending = s.pending ∧ t.observed = s.observed ∧ t.freeIx = s.freeIx

/-- Only `R[rd]` and `V[rd]` may differ. -/
def OnlyRegChanges (rd : RegNum) (s t : State) : Prop :=
  KeepsRegsBut rd s t ∧ KeepsFold s t ∧ KeepsOutput s t ∧ t.eq = s.eq ∧ KeepsFault s t ∧ KeepsSources s t ∧
    KeepsHost s t

/-- `R[rd]` holds `n` coefficients, the `i`-th being `f i`, and is valid, and nothing else changed. -/
def WritesOnly (rd : RegNum) (f : Nat → Word) (s t : State) : Prop :=
  (t.reg rd).length = s.params.n ∧ (∀ i < s.params.n, coeff (t.reg rd) i = f i) ∧ t.isValid rd = true ∧
    OnlyRegChanges rd s t

/-- `s` with the fault `c` recorded and nothing else changed (60_exceptions.md R153). -/
def faulted (c : Byte) (s : State) : State := { s with flt := true, code := c }

/-! ### Illegal words and normal execution -/

/-- The word is illegal: it decodes to no command, and executing it raises E_ILLEGAL and changes nothing else
(30_encoding.md R54). -/
def Illegal (w : Word) : Prop :=
  (∃ e, decode w = .error e) ∧ ∀ s : State, s.flt = false → writeCmd w s = .next (faulted 0x01 s)


/-- Step 5 of 60_exceptions.md R155: every register field in use is below NR, an immediate is in 1..31, every source
register is valid. -/
def Executable (i : Instr) (s : State) : Prop :=
  (∀ r ∈ usedRegs i, r < s.params.nr) ∧ (∀ b, immediateOf i = some b → 1 ≤ b ∧ b ≤ 31) ∧
    ∀ r ∈ sourceRegs i, s.isValid r = true

/-! ### What no host can tell apart -/

/-- The two states differ at most in the contents of registers whose valid bit is 0 and of an output buffer with
`OVALID = 0` (10_state.md R11, R18; 93_implementation_defined.md U11, U12). -/
def SameVisible (s t : State) : Prop :=
  s.params = t.params ∧ s.valid = t.valid ∧ (∀ r, s.isValid r = true → s.reg r = t.reg r) ∧
  s.fb = t.fb ∧ s.wp = t.wp ∧ s.ovalid = t.ovalid ∧ (s.ovalid = true → s.ob = t.ob) ∧ s.rp = t.rp ∧
  s.eq = t.eq ∧ s.flt = t.flt ∧ s.code = t.code ∧ s.pending = t.pending ∧ s.observed = t.observed ∧
  s.random = t.random ∧ s.noise = t.noise ∧ s.freeIx = t.freeIx

/-! ### Draw answers (41_lwe_codec.md R106) -/

/-- Answer `i` of a source, counted from now: the lined-up one, else the free value (log entry 5). -/
def answerAt {α : Type} (free : Nat → α) (p : Source α) (i : Nat) : α := p.answers.getD i (free (p.asked + i))

/-- The source after `k` more draws. -/
def drawnOf {α : Type} (p : Source α) (k : Nat) : Source α := { answers := p.answers.drop k, asked := p.asked + k }

/-- What the randomness source's answer `i` from now gives as a word (41_lwe_codec.md R107). -/
def wordDraw (s : State) (i : Nat) : Word := (answerAt freeRandom s.random i).word

/-- What the randomness source's answer `i` from now gives as a bit, extended to a word (41_lwe_codec.md R108). -/
def bitDraw (s : State) (i : Nat) : Word := (answerAt freeRandom s.random i).bit.setWidth 32

/-- The noise source's answer `i` from now (41_lwe_codec.md R102). -/
def noiseDraw (s : State) (i : Nat) : Word := answerAt Config.drawNoise s.noise i

/-- The command that fills `rd` from the randomness source: RNDB with `bits`, RNDU without (41_lwe_codec.md R107, R108). -/
def randomFill (bits : Bool) (rd : RegNum) : Instr := if bits then .rndb rd else .rndu rd

/-- What that command takes from the randomness source's answer `i` from now. -/
def randomDraw (bits : Bool) (s : State) (i : Nat) : Word := if bits then bitDraw s i else wordDraw s i

/-! ### Lists in the fold buffer (10_state.md R17) -/

/-- Position `j` of a buffer of `m` words holds `v` after the list `l` was written from position 0: the last word of
`l` whose index is `j` modulo `m`, and 0 if there is none. -/
def HoldsAt (m : Nat) (l : List Word) (j : Nat) (v : Word) : Prop :=
  (∃ i < l.length, i % m = j ∧ v = coeff l i ∧ ∀ i', i < i' → i' < l.length → i' % m ≠ j) ∨
    ((∀ i < l.length, i % m ≠ j) ∧ v = 0)

/-! ### Runs (70_reset_and_hazards.md R181) -/

/-- The machine after the host issued the lines `l`, one step each. -/
def runLines (l : List Line) (s : State) : Result := Host.Core.run Sys2Proof.core l.length (s.plan l)

/-! ### The noise window (41_lwe_codec.md R104) -/

/-- `-h <= e < h` with `h = 2^(31-b)`. -/
def inWindow (b : Nat) (e : Int) : Prop := -(2 ^ (31 - b) : Int) ≤ e ∧ e < 2 ^ (31 - b)

/-! ### The premises of the protocol's properties (42_lwe_protocol.md R134) -/

/-- The sum of the noises that the next `calls` encryptions add at coefficient `j`, as signed integers (R132, R134):
encryption `c` adds noise draw `c * N + j` from now there. -/
def noiseTotal (s : State) : Nat → Nat → Int
  | 0, _ => 0
  | calls + 1, j => noiseTotal s calls j + (noiseDraw s (calls * s.params.n + j)).toInt

/-- The source repeats its answers: the next two encryptions with `k` masks draw the same words and the same noises
(R128, R134). -/
def SameDraws (s : State) (k : Nat) : Prop :=
  (∀ i < k, ∀ j < s.params.n,
    wordDraw s (i * s.params.n + j) = wordDraw s (k * s.params.n + (i * s.params.n + j))) ∧
  ∀ j < s.params.n, noiseDraw s j = noiseDraw s (s.params.n + j)

/-- The ciphertext at `cb` hides the payloads `m` under the key at `kb`, with the accumulated noise `e`: its phase is
the sum of the products plus `m * 2^(32-b) + e`, modulo 2^32 (42_lwe_protocol.md R127, R130, R132). -/
def Hides (s : State) (k : Nat) (kb cb : RegNum) (b : Nat) (m e : Nat → Int) : Prop :=
  ∀ j < s.params.n, coeff (s.reg (cb + k)) j = maskSum s k kb cb j + BitVec.ofInt 32 (m j * 2 ^ (32 - b) + e j)

end Sys2Proof.Machine
end

