-- ==== Sys2Proof/Certificates/Slice0/Obligations.lean ====
section
/-! DEFINITION. What is claimed of the machine, from the numbered rules of spec/. -/

open Sys2Proof Sys2Proof.Machine

/-! ### Encoding (30_encoding.md) -/

/-- Decoding the word of a command that has an encoding gives the command back, with every operand at every value of
its field (R50, R51, R53, R55). -/
def Obligations.DecodeOfEncodeIsIdentity : Prop :=
  ∀ i : Instr, i.wellFormed = true → decode (encode i) = .ok i

/-- A word that decodes is the one word of its command: no bit of it is dropped (R50, R51, R54). -/
def Obligations.EncodeOfDecodeIsIdentity : Prop :=
  ∀ (w : Word) (i : Instr), decode w = .ok i → i.wellFormed = true ∧ encode i = w

/-- The decoder, written from the fields and formats of R50 and R51, agrees with the match and mask of every row of
R53, a word of no row is rejected, and no word spells two rows. -/
def Obligations.DecodeFollowsOpcodeMap : Prop :=
  ∀ w : Word,
    (∀ r₁ ∈ opcodeRows, ∀ r₂ ∈ opcodeRows, rowMatches r₁ w = true → rowMatches r₂ w = true → r₁ = r₂) ∧
    (∀ row ∈ opcodeRows, rowMatches row w = true ↔ ∃ i, decode w = .ok i ∧ rowOf i = row) ∧
      ((∀ row ∈ opcodeRows, rowMatches row w = false) → ∃ e, decode w = .error e)

/-- Some words written out from the formats of R51 and the map of R53 decode to the commands they spell. -/
def Obligations.SpecWordsDecode : Prop :=
  decode 0x01050000 = .ok (.zero 5) ∧ decode 0x02010000 = .ok (.fold 1) ∧ decode 0x03000000 = .ok .fbclr ∧
    decode 0x04000200 = .ok (.st 2) ∧ decode 0x10020001 = .ok (.add 2 0 1) ∧ decode 0x11050204 = .ok (.sub 5 2 4) ∧
    decode 0x12FFFEFD = .ok (.mul 255 254 253) ∧ decode 0x13000001 = .ok (.cmpeq 0 1) ∧
    decode 0x20030204 = .ok (.enc 3 2 4) ∧ decode 0x2107071F = .ok (.dec 7 7 31) ∧
    decode 0x22040400 = .ok (.addn 4 4) ∧ decode 0x30010000 = .ok (.rndu 1) ∧ decode 0x31000000 = .ok (.rndb 0)

/-- Executing a word that matches no row raises E_ILLEGAL and changes nothing else (R54). -/
def Obligations.IllegalWordFaultsAndChangesNothingElse : Prop :=
  ∀ (w : Word) (s : State), s.flt = false → (∀ row ∈ opcodeRows, rowMatches row w = false) →
    writeCmd w s = .next (faulted 0x01 s)

/-! ### The ring commands (40_ring_arith.md)

Each says: how the command's words decode and which are illegal; when it raises which fault, and that nothing else
changes; and, when its checks pass, that it ANSWERS a next state, with which value, and what it leaves alone. -/

/-- ZERO (R73). -/
def Obligations.ZeroWritesTheZeroElement : Prop :=
  (∀ w, opField w = 0x01 → bField w = 0 → cField w = 0 → decode w = .ok (.zero (aField w))) ∧
  (∀ w, opField w = 0x01 → bField w ≠ 0 ∨ cField w ≠ 0 → Illegal w) ∧
  ∀ (s : State) (rd : RegNum), Memory.wf s = true → s.flt = false →
    (s.params.nr ≤ rd → exec (.zero rd) s = .next (faulted 0x02 s)) ∧
    (rd < s.params.nr → ∃ t, exec (.zero rd) s = .next t ∧ WritesOnly rd (fun _ => 0) s t)

/-- FOLD (R75): the halves of the fold buffer are subtracted and the buffer is cleared. -/
def Obligations.FoldSubtractsTheHalvesAndClears : Prop :=
  (∀ w, opField w = 0x02 → bField w = 0 → cField w = 0 → decode w = .ok (.fold (aField w))) ∧
  (∀ w, opField w = 0x02 → bField w ≠ 0 ∨ cField w ≠ 0 → Illegal w) ∧
  ∀ (s : State) (rd : RegNum), Memory.wf s = true → s.flt = false →
    (s.params.nr ≤ rd → exec (.fold rd) s = .next (faulted 0x02 s)) ∧
    (rd < s.params.nr → ∃ t, exec (.fold rd) s = .next t ∧
      (t.reg rd).length = s.params.n ∧
      (∀ i < s.params.n, coeff (t.reg rd) i = coeff s.fb i - coeff s.fb (i + s.params.n)) ∧
      t.isValid rd = true ∧ KeepsRegsBut rd s t ∧
      t.fb.length = 2 * s.params.n ∧ (∀ j, coeff t.fb j = 0) ∧ t.wp = 0 ∧
      KeepsOutput s t ∧ t.eq = s.eq ∧ KeepsFault s t ∧ KeepsSources s t ∧ KeepsHost s t)

/-- FBCLR (R74). -/
def Obligations.FbclrClearsTheFoldBuffer : Prop :=
  (∀ w, opField w = 0x03 → aField w = 0 → bField w = 0 → cField w = 0 → decode w = .ok .fbclr) ∧
  (∀ w, opField w = 0x03 → aField w ≠ 0 ∨ bField w ≠ 0 ∨ cField w ≠ 0 → Illegal w) ∧
  ∀ s : State, ∃ t, exec .fbclr s = .next t ∧
    t.fb.length = 2 * s.params.n ∧ (∀ j, coeff t.fb j = 0) ∧ t.wp = 0 ∧
    KeepsRegs s t ∧ KeepsOutput s t ∧ t.eq = s.eq ∧ KeepsFault s t ∧ KeepsSources s t ∧ KeepsHost s t

/-- ST (R77): the register is copied to the output buffer, itself unchanged. -/
def Obligations.StSnapshotsTheRegister : Prop :=
  (∀ w, opField w = 0x04 → aField w = 0 → cField w = 0 → decode w = .ok (.st (bField w))) ∧
  (∀ w, opField w = 0x04 → aField w ≠ 0 ∨ cField w ≠ 0 → Illegal w) ∧
  ∀ (s : State) (rs1 : RegNum), Memory.wf s = true → s.flt = false →
    (s.params.nr ≤ rs1 → exec (.st rs1) s = .next (faulted 0x02 s)) ∧
    (rs1 < s.params.nr → s.isValid rs1 = false → exec (.st rs1) s = .next (faulted 0x03 s)) ∧
    (rs1 < s.params.nr → s.isValid rs1 = true → ∃ t, exec (.st rs1) s = .next t ∧
      t.ob = s.reg rs1 ∧ t.ovalid = true ∧ t.rp = 0 ∧
      KeepsRegs s t ∧ KeepsFold s t ∧ t.eq = s.eq ∧ KeepsFault s t ∧ KeepsSources s t ∧ KeepsHost s t)

/-- ADD (R78): pointwise wrapping addition, any aliasing allowed. -/
def Obligations.AddIsPointwiseAddition : Prop :=
  (∀ w, opField w = 0x10 → decode w = .ok (.add (aField w) (bField w) (cField w))) ∧
  ∀ (s : State) (rd rs1 rs2 : RegNum), Memory.wf s = true → s.flt = false →
    (s.params.nr ≤ rd ∨ s.params.nr ≤ rs1 ∨ s.params.nr ≤ rs2 →
      exec (.add rd rs1 rs2) s = .next (faulted 0x02 s)) ∧
    (rd < s.params.nr → rs1 < s.params.nr → rs2 < s.params.nr → s.isValid rs1 = false ∨ s.isValid rs2 = false →
      exec (.add rd rs1 rs2) s = .next (faulted 0x03 s)) ∧
    (rd < s.params.nr → rs1 < s.params.nr → rs2 < s.params.nr → s.isValid rs1 = true → s.isValid rs2 = true →
      ∃ t, exec (.add rd rs1 rs2) s = .next t ∧
        WritesOnly rd (fun i => coeff (s.reg rs1) i + coeff (s.reg rs2) i) s t)

/-- SUB (R79): pointwise wrapping subtraction, the first source the minuend. -/
def Obligations.SubIsPointwiseSubtraction : Prop :=
  (∀ w, opField w = 0x11 → decode w = .ok (.sub (aField w) (bField w) (cField w))) ∧
  ∀ (s : State) (rd rs1 rs2 : RegNum), Memory.wf s = true → s.flt = false →
    (s.params.nr ≤ rd ∨ s.params.nr ≤ rs1 ∨ s.params.nr ≤ rs2 →
      exec (.sub rd rs1 rs2) s = .next (faulted 0x02 s)) ∧
    (rd < s.params.nr → rs1 < s.params.nr → rs2 < s.params.nr → s.isValid rs1 = false ∨ s.isValid rs2 = false →
      exec (.sub rd rs1 rs2) s = .next (faulted 0x03 s)) ∧
    (rd < s.params.nr → rs1 < s.params.nr → rs2 < s.params.nr → s.isValid rs1 = true → s.isValid rs2 = true →
      ∃ t, exec (.sub rd rs1 rs2) s = .next t ∧
        WritesOnly rd (fun i => coeff (s.reg rs1) i - coeff (s.reg rs2) i) s t)

/-- MUL (R80): negacyclic convolution, the two sums written as sums over the index ranges of the rule. -/
def Obligations.MulIsNegacyclicConvolution : Prop :=
  (∀ w, opField w = 0x12 → decode w = .ok (.mul (aField w) (bField w) (cField w))) ∧
  ∀ (s : State) (rd rs1 rs2 : RegNum), Memory.wf s = true → s.flt = false →
    (s.params.nr ≤ rd ∨ s.params.nr ≤ rs1 ∨ s.params.nr ≤ rs2 →
      exec (.mul rd rs1 rs2) s = .next (faulted 0x02 s)) ∧
    (rd < s.params.nr → rs1 < s.params.nr → rs2 < s.params.nr → s.isValid rs1 = false ∨ s.isValid rs2 = false →
      exec (.mul rd rs1 rs2) s = .next (faulted 0x03 s)) ∧
    (rd < s.params.nr → rs1 < s.params.nr → rs2 < s.params.nr → s.isValid rs1 = true → s.isValid rs2 = true →
      ∃ t, exec (.mul rd rs1 rs2) s = .next t ∧
        WritesOnly rd (fun i =>
          (∑ j ∈ Finset.range (i + 1), coeff (s.reg rs1) j * coeff (s.reg rs2) (i - j)) -
            ∑ j ∈ Finset.Ico (i + 1) s.params.n, coeff (s.reg rs1) j * coeff (s.reg rs2) (s.params.n - (j - i))) s t)

/-- CMPEQ (R81): the flag says whether every coefficient pair matches. -/
def Obligations.CmpeqSetsTheFlagByAllCoefficients : Prop :=
  (∀ w, opField w = 0x13 → aField w = 0 → decode w = .ok (.cmpeq (bField w) (cField w))) ∧
  (∀ w, opField w = 0x13 → aField w ≠ 0 → Illegal w) ∧
  ∀ (s : State) (rs1 rs2 : RegNum), Memory.wf s = true → s.flt = false →
    (s.params.nr ≤ rs1 ∨ s.params.nr ≤ rs2 → exec (.cmpeq rs1 rs2) s = .next (faulted 0x02 s)) ∧
    (rs1 < s.params.nr → rs2 < s.params.nr → s.isValid rs1 = false ∨ s.isValid rs2 = false →
      exec (.cmpeq rs1 rs2) s = .next (faulted 0x03 s)) ∧
    (rs1 < s.params.nr → rs2 < s.params.nr → s.isValid rs1 = true → s.isValid rs2 = true →
      ∃ t, exec (.cmpeq rs1 rs2) s = .next t ∧
        (t.eq = true ↔ ∀ i < s.params.n, coeff (s.reg rs1) i = coeff (s.reg rs2) i) ∧
        (t.eq = true ↔ s.reg rs1 = s.reg rs2) ∧
        KeepsRegs s t ∧ KeepsFold s t ∧ KeepsOutput s t ∧ KeepsFault s t ∧ KeepsSources s t ∧ KeepsHost s t)

/-! ### The coefficient pipeline (41_lwe_codec.md) -/

/-- ENC (R101): each coefficient is shifted left by `32 - b`, modulo 2^32; the payload's range is not checked. -/
def Obligations.EncShiftsPayloadsUp : Prop :=
  (∀ w, opField w = 0x20 → decode w = .ok (.enc (aField w) (bField w) (cField w))) ∧
  ∀ (s : State) (rd rs1 : RegNum) (b : Nat), Memory.wf s = true → s.flt = false →
    (s.params.nr ≤ rd ∨ s.params.nr ≤ rs1 → exec (.enc rd rs1 b) s = .next (faulted 0x02 s)) ∧
    (rd < s.params.nr → rs1 < s.params.nr → b = 0 ∨ 32 ≤ b → exec (.enc rd rs1 b) s = .next (faulted 0x04 s)) ∧
    (rd < s.params.nr → rs1 < s.params.nr → 1 ≤ b → b ≤ 31 → s.isValid rs1 = false →
      exec (.enc rd rs1 b) s = .next (faulted 0x03 s)) ∧
    (rd < s.params.nr → rs1 < s.params.nr → 1 ≤ b → b ≤ 31 → s.isValid rs1 = true →
      ∃ t, exec (.enc rd rs1 b) s = .next t ∧
        WritesOnly rd (fun i => BitVec.ofNat 32 ((coeff (s.reg rs1) i).toNat * 2 ^ (32 - b))) s t ∧
        ∀ i < s.params.n,
          (coeff (t.reg rd) i).toNat = (coeff (s.reg rs1) i).toNat % 2 ^ b * 2 ^ (32 - b))

/-- DEC (R103): the half step is added with wrap, and the sum shifted right by `32 - b`; the result is below 2^b. -/
def Obligations.DecRoundsToTheNearestStep : Prop :=
  (∀ w, opField w = 0x21 → decode w = .ok (.dec (aField w) (bField w) (cField w))) ∧
  ∀ (s : State) (rd rs1 : RegNum) (b : Nat), Memory.wf s = true → s.flt = false →
    (s.params.nr ≤ rd ∨ s.params.nr ≤ rs1 → exec (.dec rd rs1 b) s = .next (faulted 0x02 s)) ∧
    (rd < s.params.nr → rs1 < s.params.nr → b = 0 ∨ 32 ≤ b → exec (.dec rd rs1 b) s = .next (faulted 0x04 s)) ∧
    (rd < s.params.nr → rs1 < s.params.nr → 1 ≤ b → b ≤ 31 → s.isValid rs1 = false →
      exec (.dec rd rs1 b) s = .next (faulted 0x03 s)) ∧
    (rd < s.params.nr → rs1 < s.params.nr → 1 ≤ b → b ≤ 31 → s.isValid rs1 = true →
      ∃ t, exec (.dec rd rs1 b) s = .next t ∧
        WritesOnly rd (fun i =>
          BitVec.ofNat 32 (((coeff (s.reg rs1) i).toNat + 2 ^ (31 - b)) % 2 ^ 32 / 2 ^ (32 - b))) s t ∧
        ∀ i < s.params.n, (coeff (t.reg rd) i).toNat < 2 ^ b)

/-- ADDN (R102): one noise draw per coefficient, coefficient 0 first, added with wrap; a fault makes no draw. A draw's
answer is any value: how the model holds answers is log entry 5. -/
def Obligations.AddnAddsOneNoiseDrawPerCoefficient : Prop :=
  (∀ w, opField w = 0x22 → cField w = 0 → decode w = .ok (.addn (aField w) (bField w))) ∧
  (∀ w, opField w = 0x22 → cField w ≠ 0 → Illegal w) ∧
  ∀ (s : State) (rd rs1 : RegNum), Memory.wf s = true → s.flt = false →
    (s.params.nr ≤ rd ∨ s.params.nr ≤ rs1 → exec (.addn rd rs1) s = .next (faulted 0x02 s)) ∧
    (rd < s.params.nr → rs1 < s.params.nr → s.isValid rs1 = false →
      exec (.addn rd rs1) s = .next (faulted 0x03 s)) ∧
    (rd < s.params.nr → rs1 < s.params.nr → s.isValid rs1 = true →
      ∃ t, exec (.addn rd rs1) s = .next t ∧
        (t.reg rd).length = s.params.n ∧
        (∀ i < s.params.n, coeff (t.reg rd) i = coeff (s.reg rs1) i + noiseDraw s i) ∧
        t.isValid rd = true ∧ KeepsRegsBut rd s t ∧ t.noise = drawnOf s.noise s.params.n ∧
        t.random = s.random ∧
        KeepsFold s t ∧ KeepsOutput s t ∧ t.eq = s.eq ∧ KeepsFault s t ∧ KeepsHost s t)

/-- RNDU (R107): one word draw of the randomness source per coefficient, coefficient 0 first, stored as it comes (how
the model holds answers: log entry 5). -/
def Obligations.RnduStoresOneWordDrawPerCoefficient : Prop :=
  (∀ w, opField w = 0x30 → bField w = 0 → cField w = 0 → decode w = .ok (.rndu (aField w))) ∧
  (∀ w, opField w = 0x30 → bField w ≠ 0 ∨ cField w ≠ 0 → Illegal w) ∧
  ∀ (s : State) (rd : RegNum), Memory.wf s = true → s.flt = false →
    (s.params.nr ≤ rd → exec (.rndu rd) s = .next (faulted 0x02 s)) ∧
    (rd < s.params.nr → ∃ t, exec (.rndu rd) s = .next t ∧
      (t.reg rd).length = s.params.n ∧
      (∀ i < s.params.n, coeff (t.reg rd) i = wordDraw s i) ∧
      t.isValid rd = true ∧ KeepsRegsBut rd s t ∧ t.random = drawnOf s.random s.params.n ∧
      t.noise = s.noise ∧
      KeepsFold s t ∧ KeepsOutput s t ∧ t.eq = s.eq ∧ KeepsFault s t ∧ KeepsHost s t)

/-- RNDB (R108): one bit draw of the randomness source per coefficient, coefficient 0 first, so that every coefficient is
0 or 1 (how the model holds answers: log entry 5). -/
def Obligations.RndbStoresOneBitDrawPerCoefficient : Prop :=
  (∀ w, opField w = 0x31 → bField w = 0 → cField w = 0 → decode w = .ok (.rndb (aField w))) ∧
  (∀ w, opField w = 0x31 → bField w ≠ 0 ∨ cField w ≠ 0 → Illegal w) ∧
  ∀ (s : State) (rd : RegNum), Memory.wf s = true → s.flt = false →
    (s.params.nr ≤ rd → exec (.rndb rd) s = .next (faulted 0x02 s)) ∧
    (rd < s.params.nr → ∃ t, exec (.rndb rd) s = .next t ∧
      (t.reg rd).length = s.params.n ∧
      (∀ i < s.params.n, coeff (t.reg rd) i = bitDraw s i ∧
        (coeff (t.reg rd) i = 0 ∨ coeff (t.reg rd) i = 1)) ∧
      t.isValid rd = true ∧ KeepsRegsBut rd s t ∧ t.random = drawnOf s.random s.params.n ∧
      t.noise = s.noise ∧
      KeepsFold s t ∧ KeepsOutput s t ∧ t.eq = s.eq ∧ KeepsFault s t ∧ KeepsHost s t)

/-! ### Faults (60_exceptions.md) -/

/-- The checks of a CMD write run in their fixed order, the first that fails decides the code, and if none fails the
command executes and does not fault (R155). -/
def Obligations.ChecksRunInTheirFixedOrder : Prop :=
  ∀ (w : Word) (s : State), s.flt = false →
    (∀ e, decode w = .error e → writeCmd w s = .next (faulted 0x01 s)) ∧
    ∀ i, decode w = .ok i →
      ((∃ r ∈ usedRegs i, s.params.nr ≤ r) → writeCmd w s = .next (faulted 0x02 s)) ∧
      ((∀ r ∈ usedRegs i, r < s.params.nr) → (∃ b, immediateOf i = some b ∧ ¬(1 ≤ b ∧ b ≤ 31)) →
        writeCmd w s = .next (faulted 0x04 s)) ∧
      ((∀ r ∈ usedRegs i, r < s.params.nr) → (∀ b, immediateOf i = some b → 1 ≤ b ∧ b ≤ 31) →
        (∃ r ∈ sourceRegs i, s.isValid r = false) → writeCmd w s = .next (faulted 0x03 s)) ∧
      (Executable i s → ∃ t, writeCmd w s = .next t ∧ KeepsFault s t)

/-- Raising a fault records the first code and nothing else; and whatever transaction faults, it changes nothing but
FLT and CODE, and what its read returns: no register, valid bit, buffer, pointer or EQ changes, and no draw is made
(R153). -/
def Obligations.FaultsArePreciseAndTheFirstIsKept : Prop :=
  (∀ (s : State) (c d : FaultCode), s.flt = false →
    raiseFault c s = faulted (faultByte c) s ∧ raiseFault d (raiseFault c s) = raiseFault c s) ∧
  ∀ (tr : Transaction) (s t : State), s.flt = false → perform tr s = .next t → t.flt = true →
    KeepsRegs s t ∧ KeepsFold s t ∧ KeepsOutput s t ∧ t.eq = s.eq ∧ KeepsSources s t ∧
      t.params = s.params ∧ t.pending = s.pending ∧ 1 ≤ t.code.toNat ∧ t.code.toNat ≤ 5

/-- The faulted state, transaction by transaction (R154). -/
def Obligations.FaultedStateIgnoresAllButReadsAndReset : Prop :=
  ∀ s : State, s.flt = true →
    (∀ w, perform (.portWrite .cmd w) s = .next s) ∧
    (∀ w, perform (.portWrite .din w) s = .next s) ∧
    (∃ v, perform (.portRead .dout) s =
      .next { s with observed := s.observed ++ [v], freeIx := s.freeIx + 1 }) ∧
    perform (.portRead .status) s = .next { s with observed := s.observed ++ [statusWord s] } ∧
    perform (.portRead .paramN) s = .next { s with observed := s.observed ++ [BitVec.ofNat 32 s.params.n] } ∧
    perform (.portRead .paramNR) s = .next { s with observed := s.observed ++ [BitVec.ofNat 32 s.params.nr] } ∧
    (statusWord s).getLsbD 1 = true ∧ (statusWord s).extractLsb' 8 8 = s.code ∧
    (statusWord s).getLsbD 0 = s.eq ∧ (statusWord s).getLsbD 2 = s.ovalid ∧
    ∃ t, perform .reset s = .next t ∧ t.flt = false ∧ t.code = 0x00

/-- Only reset leaves the faulted state: any other transaction keeps FLT, CODE, EQ, OVALID, and all the unit's
storage, so that faults do not nest; and reset clears the valid bits with them (R157). -/
def Obligations.OnlyResetLeavesTheFaultedState : Prop :=
  ∀ s : State, s.flt = true →
    (∀ (tr : Transaction) (t : State), tr ≠ .reset → perform tr s = .next t →
      KeepsFault s t ∧ t.eq = s.eq ∧ KeepsRegs s t ∧ KeepsFold s t ∧ KeepsOutput s t ∧ KeepsSources s t) ∧
    ∃ t, perform .reset s = .next t ∧ t.flt = false ∧ t.code = 0x00 ∧ ∀ r, t.isValid r = false

/-- A step that ends with FLT clear raised no fault, unless it was the reset (70_reset_and_hazards.md R178). -/
def Obligations.ClearFaultFlagVouchesForTheStep : Prop :=
  ∀ s t : State, step s = .next t → t.flt = false → s.pending.head? ≠ some .reset → s.flt = false ∧ t.code = s.code

/-- Every command completes, on any state and any operands; every step completes, unless the host's next transaction
is a bus access that is not one word of the window (R156; 30_encoding.md R59; 20_memory.md R38); and such an access is
refused (R38; 93_implementation_defined.md U17, U19; log entry 8). -/
def Obligations.EveryStepCompletesButStrayBusAccesses : Prop :=
  (∀ (i : Instr) (s : State), ∃ t, exec i s = .next t) ∧
  ∀ s : State,
    ((∀ a l, s.pending.head? = some (.busWrite a l) → isWordAccess s.params a l.length = true) →
      (∀ a k, s.pending.head? = some (.busRead a k) → isWordAccess s.params a k = true) → ∃ t, step s = .next t) ∧
    (∀ a l, s.pending.head? = some (.busWrite a l) → isWordAccess s.params a l.length = false →
      ∃ r, step s = .refused r) ∧
    ∀ a k, s.pending.head? = some (.busRead a k) → isWordAccess s.params a k = false → ∃ r, step s = .refused r

/-! ### Transactions (20_memory.md; 10_state.md) -/

/-- Between transactions nothing changes; and a step performs exactly the host's next transaction (R30, R41;
10_state.md R12). That the host is a list in State is the model's choice (log entry 4). -/
def Obligations.StepPerformsTheNextTransaction : Prop :=
  (∀ s : State, s.pending = [] → step s = .next s) ∧
  ∀ (s : State) (tr : Transaction) (rest : List Transaction), s.pending = tr :: rest →
    step s = perform tr { s with pending := rest }

/-- A step whose transaction writes the word of a command to CMD, with no fault recorded, is that command's meaning
on the state in which the transaction has been taken from the host's list (R46; 30_encoding.md R55). That the host is a
list in State is the model's choice (log entry 4). -/
def Obligations.StepRunsTheDecodedCommand : Prop :=
  ∀ (s : State) (w : Word) (rest : List Transaction) (i : Instr),
    s.pending = .portWrite .cmd w :: rest → s.flt = false → decode w = .ok i →
    step s = exec i { s with pending := rest }

/-- DIN write (R32): the word goes to `FB[wp]`, and `wp` advances modulo 2N; ignored in the faulted state. -/
def Obligations.DinWriteStoresAndAdvances : Prop :=
  ∀ (s : State) (w : Word),
    (s.flt = true → perform (.portWrite .din w) s = .next s) ∧
    (Memory.wf s = true → s.wp < 2 * s.params.n → s.flt = false →
      ∃ t, perform (.portWrite .din w) s = .next t ∧
        coeff t.fb s.wp = w ∧ (∀ j, j ≠ s.wp → coeff t.fb j = coeff s.fb j) ∧ t.fb.length = s.fb.length ∧
        t.wp = (s.wp + 1) % (2 * s.params.n) ∧
        KeepsRegs s t ∧ KeepsOutput s t ∧ t.eq = s.eq ∧ KeepsFault s t ∧ KeepsSources s t ∧ KeepsHost s t)

/-- DOUT read (R34): the next word of the snapshot; E_OBEMPTY with nothing stored; no state change when faulted. -/
def Obligations.DoutReadReturnsTheNextWord : Prop :=
  ∀ s : State,
    (s.flt = true → ∃ v, perform (.portRead .dout) s =
      .next { s with observed := s.observed ++ [v], freeIx := s.freeIx + 1 }) ∧
    (s.flt = false → s.ovalid = false → ∃ v, perform (.portRead .dout) s =
      .next { s with observed := s.observed ++ [v], freeIx := s.freeIx + 1, flt := true, code := 0x05 }) ∧
    (s.flt = false → s.ovalid = true → perform (.portRead .dout) s =
      .next { s with observed := s.observed ++ [coeff s.ob s.rp], rp := (s.rp + 1) % s.params.n })

/-- STATUS read (10_state.md R13): the layout of the word, and no side effect. -/
def Obligations.StatusReadReturnsTheLayout : Prop :=
  ∀ s : State, ∃ w, perform (.portRead .status) s = .next { s with observed := s.observed ++ [w] } ∧
    w.getLsbD 0 = s.eq ∧ w.getLsbD 1 = s.flt ∧ w.getLsbD 2 = s.ovalid ∧ w.extractLsb' 3 5 = 0 ∧
    w.extractLsb' 8 8 = s.code ∧ w.extractLsb' 16 16 = 0

/-- The bus binding (R33): which port each of the eight words of the window is, little-endian. -/
def Obligations.BusWindowBindsThePorts : Prop :=
  ∀ (s : State) (w : Word), s.params.base % 4 = 0 →
    perform (.busWrite (s.params.base + 0x00) (bytesOfWord w)) s = perform (.portWrite .cmd w) s ∧
    perform (.busWrite (s.params.base + 0x08) (bytesOfWord w)) s = perform (.portWrite .din w) s ∧
    (∀ off ∈ [0x04, 0x0C, 0x10, 0x14, 0x18, 0x1C],
      perform (.busWrite (s.params.base + off) (bytesOfWord w)) s = .next s) ∧
    perform (.busRead (s.params.base + 0x04) 4) s = perform (.portRead .status) s ∧
    perform (.busRead (s.params.base + 0x0C) 4) s = perform (.portRead .dout) s ∧
    perform (.busRead (s.params.base + 0x10) 4) s = perform (.portRead .paramN) s ∧
    perform (.busRead (s.params.base + 0x14) 4) s = perform (.portRead .paramNR) s ∧
    ∀ off ∈ [0x00, 0x08, 0x18, 0x1C],
      perform (.busRead (s.params.base + off) 4) s = .next { s with observed := s.observed ++ [0] }

/-- Bus accesses to the window that are not one aligned 32-bit word are refused (20_memory.md R38;
93_implementation_defined.md U17). The model's own: that this takes in an access only part of which lies in the window
(log entry 8) and one of no bytes (log entry 13). -/
def Obligations.SubWordAndMisalignedAccessesAreRefused : Prop :=
  ∀ (s : State) (addr size : Nat) (bytes : List Byte), s.params.base % 4 = 0 →
    addr < s.params.base + 32 → s.params.base < addr + size → size ≠ 4 ∨ addr % 4 ≠ 0 → bytes.length = size →
    perform (.busRead addr size) s = .refused (.notAWordAccess addr size) ∧
      perform (.busWrite addr bytes) s = .refused (.notAWordAccess addr size)

/-- The byte lanes are little-endian: the byte `k` above the lowest address is bits `8k+7 : 8k` of the word, for each of
the four lanes, in both directions, and the two directions undo each other (R37). -/
def Obligations.ByteLanesAreLittleEndian : Prop :=
  (∀ w : Word, (bytesOfWord w).length = 4 ∧ (∀ k < 4, (bytesOfWord w)[k]? = some (w.extractLsb' (8 * k) 8)) ∧
    wordOfBytes (bytesOfWord w) = w) ∧
  ∀ b0 b1 b2 b3 : Byte, wordOfBytes [b0, b1, b2, b3] = b3 ++ b2 ++ b1 ++ b0 ∧
    bytesOfWord (wordOfBytes [b0, b1, b2, b3]) = [b0, b1, b2, b3]

/-- Reset (70_reset_and_hazards.md R170): what it clears; it does not touch the sources (R171). Nothing is said of
the contents of the registers and of OB. -/
def Obligations.ResetClearsTheUnit : Prop :=
  ∀ s : State, ∃ t, perform .reset s = .next t ∧
    (∀ r, t.isValid r = false) ∧ (∀ j, coeff t.fb j = 0) ∧ t.fb.length = 2 * s.params.n ∧ t.wp = 0 ∧
    t.ovalid = false ∧ t.rp = 0 ∧ t.eq = false ∧ t.flt = false ∧ t.code = 0x00 ∧
    t.params = s.params ∧ t.pending = s.pending ∧ t.observed = s.observed ∧ KeepsSources s t

/-- The machine right after power-up, for every choice of the parameters (10_state.md R22); which parameters
`State.reset` has is the model's choice (log entry 1). Nothing is said of the contents of the registers and of OB (log
entry 2). -/
def Obligations.ResetStateHasTheResetValues : Prop :=
  (∀ p : Params, ∃ s, s = State.resetOf p ∧ (∀ r, s.isValid r = false) ∧ s.fb = List.replicate (2 * p.n) 0 ∧ s.wp = 0 ∧
    s.ovalid = false ∧ s.rp = 0 ∧ s.eq = false ∧ s.flt = false ∧ s.code = 0x00 ∧ s.params = p) ∧
  State.reset = State.resetOf Config.params

/-! ### Invariants and rules of the whole machine -/

/-- The machine starts inside the invariant, for all parameters in range. -/
def Obligations.ResetStateIsWellFormed : Prop :=
  State.reset.wf = true ∧ ∀ p : Params, p.ok = true → (State.resetOf p).wf = true

/-- Every step keeps the invariant: storage of the fixed sizes, pointers inside their buffers, CODE coherent with FLT
and one of the five codes (10_state.md R10, R13, R16, R18; 60_exceptions.md R151). -/
def Obligations.EveryStepKeepsTheInvariant : Prop :=
  ∀ s t : State, s.wf = true → step s = .next t → t.wf = true

/-- No transaction changes the parameters (10_state.md R15). -/
def Obligations.ParametersNeverChange : Prop :=
  (∀ s t : State, step s = .next t → t.params = s.params) ∧
  ∀ s : State,
    perform (.portRead .paramN) s = .next { s with observed := s.observed ++ [BitVec.ofNat 32 s.params.n] } ∧
    perform (.portRead .paramNR) s = .next { s with observed := s.observed ++ [BitVec.ofNat 32 s.params.nr] }

/-- The valid bits (10_state.md R11): no command clears one; only the register named as `rd` gets one; a command that
executes sets that of its `rd`; and a command that names a source whose valid bit is 0 raises E_UNINIT and changes nothing
else, given its registers exist and its immediate is legal. -/
def Obligations.NoCommandClearsAValidBit : Prop :=
  (∀ (i : Instr) (s t : State) (r : RegNum), exec i s = .next t → s.isValid r = true → t.isValid r = true) ∧
  (∀ (i : Instr) (s t : State) (r : RegNum), exec i s = .next t → s.isValid r = false → t.isValid r = true →
    destReg i = some r) ∧
  (∀ (i : Instr) (s : State) (r : RegNum), Memory.wf s = true → Executable i s → destReg i = some r →
    ∃ t, exec i s = .next t ∧ t.isValid r = true) ∧
  ∀ (i : Instr) (s : State), s.flt = false → (∀ r ∈ usedRegs i, r < s.params.nr) →
    (∀ b, immediateOf i = some b → 1 ≤ b ∧ b ≤ 31) → (∃ r ∈ sourceRegs i, s.isValid r = false) →
    exec i s = .next (faulted 0x03 s)

/-- A command changes no ring register but the one it names as `rd` (10_state.md R23). -/
def Obligations.CommandWritesAtMostItsDestination : Prop :=
  ∀ (i : Instr) (s t : State) (r : RegNum), exec i s = .next t → destReg i ≠ some r →
    t.reg r = s.reg r ∧ t.isValid r = s.isValid r

/-- Only CMPEQ writes EQ, of the commands; of the transactions, also reset (10_state.md R14). -/
def Obligations.OnlyCmpeqAndResetWriteEq : Prop :=
  (∀ (i : Instr) (s t : State), exec i s = .next t → (∀ rs1 rs2, i ≠ .cmpeq rs1 rs2) → t.eq = s.eq) ∧
  (∀ (rs1 rs2 : RegNum) (s t : State), exec (.cmpeq rs1 rs2) s = .next t → t.flt ≠ s.flt → t.eq = s.eq) ∧
  ∀ (tr : Transaction) (s t : State), perform tr s = .next t → tr ≠ .reset →
    (∀ w, tr ≠ .portWrite .cmd w) → (∀ a l, tr ≠ .busWrite a l) → t.eq = s.eq

/-- Of the commands, only ST writes the output buffer (10_state.md R18), so that a later command does not reach the
snapshot, and only FOLD and FBCLR touch the fold buffer (10_state.md R16; 70_reset_and_hazards.md R174). -/
def Obligations.BuffersAreTouchedByTheirOwnCommandsOnly : Prop :=
  ∀ (i : Instr) (s t : State), exec i s = .next t →
    ((∀ rs1, i ≠ .st rs1) → KeepsOutput s t) ∧ ((∀ rd, i ≠ .fold rd) → i ≠ .fbclr → KeepsFold s t)

/-- The draws of each command: RNDU and RNDB make N from the one randomness source, ADDN makes N from the noise source,
no other command makes any, and a faulting one makes none (41_lwe_codec.md R106). Draws are consumed in issue order
and cannot be returned (70_reset_and_hazards.md R177): every transaction leaves each source where it was or further on; of
two commands that draw from one source the first takes the next N answers and the second the N after them, so that
exchanging them exchanges which answers each gets, RNDU with RNDB too. That the noise source is an input apart is
90_conflicts.md C6; how the model holds answers is log entry 5. -/
def Obligations.DrawsAreMadeByTheThreeDrawingCommandsOnly : Prop :=
  (∀ (i : Instr) (s t : State), exec i s = .next t → Executable i s →
    ((∃ bits rd, i = randomFill bits rd) → t.random = drawnOf s.random s.params.n) ∧
    ((∀ bits rd, i ≠ randomFill bits rd) → t.random = s.random) ∧
    ((∃ rd rs1, i = .addn rd rs1) → t.noise = drawnOf s.noise s.params.n) ∧
    ((∀ rd rs1, i ≠ .addn rd rs1) → t.noise = s.noise)) ∧
  (∀ (i : Instr) (s t : State), exec i s = .next t → ¬Executable i s → KeepsSources s t) ∧
  (∀ (tr : Transaction) (s t : State), perform tr s = .next t → (∀ w, tr ≠ .portWrite .cmd w) →
    (∀ a l, tr ≠ .busWrite a l) → KeepsSources s t) ∧
  (∀ (tr : Transaction) (s t : State), perform tr s = .next t →
    ∃ j k, t.random = drawnOf s.random j ∧ t.noise = drawnOf s.noise k) ∧
  (∀ (s : State) (bits₁ bits₂ : Bool) (rd₁ rd₂ : RegNum), Memory.wf s = true → s.flt = false →
    rd₁ < s.params.nr → rd₂ < s.params.nr →
    ∃ t u, exec (randomFill bits₁ rd₁) s = .next t ∧ exec (randomFill bits₂ rd₂) t = .next u ∧
      ∀ i < s.params.n, (rd₁ ≠ rd₂ → coeff (u.reg rd₁) i = randomDraw bits₁ s i) ∧
        coeff (u.reg rd₂) i = randomDraw bits₂ s (s.params.n + i)) ∧
  ∀ (s : State) (rd₁ rs₁ rd₂ rs₂ : RegNum), Memory.wf s = true → s.flt = false →
    rd₁ < s.params.nr → rs₁ < s.params.nr → rd₂ < s.params.nr → rs₂ < s.params.nr →
    s.isValid rs₁ = true → s.isValid rs₂ = true →
    ∃ t u, exec (.addn rd₁ rs₁) s = .next t ∧ exec (.addn rd₂ rs₂) t = .next u ∧
      ∀ i < s.params.n, (rd₁ ≠ rd₂ → coeff (u.reg rd₁) i = coeff (s.reg rs₁) i + noiseDraw s i) ∧
        coeff (u.reg rd₂) i = coeff (t.reg rs₂) i + noiseDraw s (s.params.n + i)

/-- The fold buffer is fresh after reset, after every FOLD and every FBCLR that does not fault; and a list written to
DIN from a fresh buffer stands in it as in the document's temporary buffer (10_state.md R17). -/
def Obligations.FoldBufferFreshness : Prop :=
  (∀ s t : State, perform .reset s = .next t → foldFresh t) ∧
  (∀ (s t : State) (rd : RegNum), exec (.fold rd) s = .next t → rd < s.params.nr → foldFresh t) ∧
  (∀ s t : State, exec .fbclr s = .next t → foldFresh t) ∧
  ∀ (s : State) (l : List Word), s.wf = true → s.flt = false → foldFresh s →
    ∃ t, runLines (l.map .din) s = .next t ∧ KeepsRegs s t ∧ t.flt = false ∧
      t.wp = l.length % (2 * s.params.n) ∧ ∀ j < 2 * s.params.n, HoldsAt (2 * s.params.n) l j (coeff t.fb j)

/-- What no valid bit covers cannot be learned: two states that differ only in the contents of registers with `V = 0`
and of an output buffer with `OVALID = 0` give, step by step, the same values read and again such states
(10_state.md R11, R18). -/
def Obligations.InvalidContentsCannotBeObserved : Prop :=
  ∀ s t : State, Memory.wf s = true → Memory.wf t = true → SameVisible s t →
    (∀ s', step s = .next s' → ∃ t', step t = .next t' ∧ SameVisible s' t' ∧ s'.observed = t'.observed) ∧
    ∀ r, step s = .refused r → step t = .refused r

/-! ### Laws (40_ring_arith.md R82, R83; 41_lwe_codec.md R104, R105) -/

/-- Addition is commutative and associative, with the all-zero element as identity (R82). -/
def Obligations.AdditionLaws : Prop :=
  ∀ (n : Nat) (a b c : RingElt), a.length = n →
    ringAdd n a b = ringAdd n b a ∧ ringAdd n (ringAdd n a b) c = ringAdd n a (ringAdd n b c) ∧
      ringAdd n a (ringZero n) = a

/-- The laws that follow from the formulas (R83): subtraction undoes addition; multiplication is commutative,
associative, distributes over addition and has `[1, 0, .., 0]` as its one; it is the fold of the plain convolution;
and folding a list of 2N words subtracts its halves. -/
def Obligations.RingLaws : Prop :=
  ∀ (n : Nat) (a b c : RingElt), a.length = n → b.length = n → c.length = n →
    (ringSub n a b = ringAdd n a (ringSub n (ringZero n) b) ∧ ringSub n a a = ringZero n ∧
      ringAdd n (ringSub n a b) b = a) ∧
    (ringMul n a b = ringMul n b a ∧ ringMul n a (ringAdd n b c) = ringAdd n (ringMul n a b) (ringMul n a c) ∧
      ringMul n (ringMul n a b) c = ringMul n a (ringMul n b c) ∧
      ringMul n a (lanes n fun i => if i = 0 then 1 else 0) = a) ∧
    ringMul n a b = ringFold n ((List.range (2 * n)).map fun m =>
      ∑ j ∈ (Finset.range n).filter (fun j => j ≤ m ∧ m - j < n), coeff a j * coeff b (m - j)) ∧
    ringFold n (a ++ b) = ringFold n (ringSub n a b ++ ringZero n)

/-- The decode window (R104): `m * 2^s + e` decodes to `m` exactly when `-h <= e < h`, and in general to
`m + floor((e + h) / 2^s)`, modulo 2^b. -/
def Obligations.DecodeWindow : Prop :=
  ∀ (b : Nat) (m e : Int), 1 ≤ b → b ≤ 31 →
    ((decodeWord b (BitVec.ofInt 32 (m * 2 ^ (32 - b) + e))).toNat : Int) =
      (m + (e + 2 ^ (31 - b)) / 2 ^ (32 - b)) % 2 ^ b ∧
    (-(2 ^ 31) ≤ e → e < 2 ^ 31 →
      (((decodeWord b (BitVec.ofInt 32 (m * 2 ^ (32 - b) + e))).toNat : Int) = m % 2 ^ b ↔ inWindow b e))

/-- Decoding undoes encoding, modulo 2^b, and encoding is additive (R105). -/
def Obligations.DecodeUndoesEncode : Prop :=
  ∀ (b : Nat) (x y : Word) (e : Word), 1 ≤ b → b ≤ 31 →
    (decodeWord b (encodeWord b x)).toNat = x.toNat % 2 ^ b ∧
    encodeWord b x + encodeWord b y = encodeWord b (x + y) ∧
    (inWindow b e.toInt →
      (decodeWord b (encodeWord b x + encodeWord b y + e)).toNat = (x.toNat + y.toNat) % 2 ^ b)

/-! ### Host sequences (42_lwe_protocol.md)

The pseudo-instructions of 30_encoding.md R58, for all operands and all states that meet their preconditions. -/

/-- LDF (R124): the element holds, at each index, the difference of what the document's buffer of 2N words holds
there and N further on; up to 2N words that is the negacyclic fold (40_ring_arith.md R76). The buffer is fresh again. -/
def Obligations.LdfFoldsAListOfAnyLength : Prop :=
  ∀ (s : State) (l : List Word) (rd : RegNum), s.wf = true → s.flt = false → foldFresh s → rd < s.params.nr →
    ∃ t, runLines (ldf rd l) s = .next t ∧
      (t.reg rd).length = s.params.n ∧
      (∀ i < s.params.n, ∃ u v, HoldsAt (2 * s.params.n) l i u ∧ HoldsAt (2 * s.params.n) l (i + s.params.n) v ∧
        coeff (t.reg rd) i = u - v) ∧
      (l.length ≤ 2 * s.params.n → ∀ i < s.params.n, coeff (t.reg rd) i = coeff l i - coeff l (i + s.params.n)) ∧
      t.isValid rd = true ∧ foldFresh t ∧ KeepsRegsBut rd s t ∧ KeepsOutput s t ∧ t.eq = s.eq ∧ KeepsFault s t ∧
      KeepsSources s t ∧ KeepsHost s t

/-- LDX (R123): exactly N words load as they are. -/
def Obligations.LdxLoadsAnExactList : Prop :=
  ∀ (s : State) (l : List Word) (rd : RegNum), s.wf = true → s.flt = false → foldFresh s → rd < s.params.nr →
    l.length = s.params.n →
    ∃ t, runLines (ldx rd l) s = .next t ∧ t.reg rd = l ∧ t.isValid rd = true ∧ foldFresh t ∧
      KeepsRegsBut rd s t ∧ KeepsOutput s t ∧ t.eq = s.eq ∧ KeepsFault s t ∧ KeepsSources s t ∧ KeepsHost s t

/-- RDR (R125): the host reads the element, and `rp` is 0 again. -/
def Obligations.RdrReadsTheElement : Prop :=
  ∀ (s : State) (rs : RegNum), s.wf = true → s.flt = false → rs < s.params.nr → s.isValid rs = true →
    runLines (rdr s.params.n rs) s =
      .next { s with ob := s.reg rs, ovalid := true, rp := 0, observed := s.observed ++ s.reg rs }

/-- KEYGEN (R126): k elements of bits, drawn slot 0 first and coefficient 0 first within a slot (how the model holds
answers: log entry 5). -/
def Obligations.KeygenDrawsTheKeyBits : Prop :=
  ∀ (s : State) (k : Nat) (kb : RegNum), s.wf = true → s.flt = false → kb + k ≤ s.params.nr →
    ∃ t, runLines (keygen k kb) s = .next t ∧ keyReady t k kb = true ∧
      (∀ i < k, ∀ j < s.params.n,
        coeff (t.reg (kb + i)) j = bitDraw s (i * s.params.n + j)) ∧
      t.random = drawnOf s.random (k * s.params.n) ∧ t.noise = s.noise ∧
      (∀ r, r ∉ regRange kb k → t.reg r = s.reg r ∧ t.isValid r = s.isValid r) ∧
      KeepsFold s t ∧ KeepsOutput s t ∧ t.eq = s.eq ∧ KeepsFault s t ∧ KeepsHost s t

/-- ENCRYPT (R127): the end state, for every key, plaintext and list of draws (how the model holds answers: log
entry 5). And of two calls with the same plaintext and key, inferred from R106, R127, R128 and the derived row
"Non-determinism" of R134, over log entry 5's form of the answers: each draws anew, so that the two ciphertexts are equal
exactly when the sources repeat their answers. -/
def Obligations.EncryptEndState : Prop :=
  (∀ (s : State) (k : Nat) (cb kb pt t : RegNum) (b : Nat), s.wf = true → s.flt = false → 1 ≤ k → 1 ≤ b → b ≤ 31 →
    layoutOk s.params.nr (encryptRegs k cb kb pt t) = true → keyReady s k kb = true → s.isValid pt = true →
    ∃ u, runLines (encryptLines k cb kb pt t b) s = .next u ∧
      (∀ i < k, ∀ j < s.params.n,
        coeff (u.reg (cb + i)) j = wordDraw s (i * s.params.n + j)) ∧
      (∀ j < s.params.n, coeff (u.reg (cb + k)) j =
        maskSum u k kb cb j + (coeff (s.reg pt) j <<< (32 - b) + noiseDraw s j)) ∧
      (∀ j < s.params.n,
        coeff (u.reg t) j = coeff (s.reg pt) j <<< (32 - b) + noiseDraw s j) ∧
      ciphertextValid u k cb = true ∧
      (∀ r, r ∉ t :: regRange cb (k + 1) → u.reg r = s.reg r ∧ u.isValid r = s.isValid r) ∧
      u.random = drawnOf s.random (k * s.params.n) ∧ u.noise = drawnOf s.noise s.params.n ∧
      KeepsFold s u ∧ KeepsOutput s u ∧ u.eq = s.eq ∧ KeepsFault s u ∧ KeepsHost s u ∧
      (encryptLines k cb kb pt t b).length = 3 * k + 4) ∧
  ∀ (s : State) (k : Nat) (c1 c2 kb pt t : RegNum) (b : Nat), s.wf = true → s.flt = false → 1 ≤ k → 1 ≤ b → b ≤ 31 →
    layoutOk s.params.nr (regRange c2 (k + 1) ++ encryptRegs k c1 kb pt t) = true → keyReady s k kb = true →
    s.isValid pt = true →
    ∃ u, runLines (encryptTwiceLines k c1 c2 kb pt t b) s = .next u ∧ KeepsFault s u ∧
      u.random = drawnOf s.random (2 * (k * s.params.n)) ∧ u.noise = drawnOf s.noise (2 * s.params.n) ∧
      (ciphertextAt u k c1 = ciphertextAt u k c2 ↔ SameDraws s k)

/-- DECRYPT (R129): the residual, rounded, is left in `out` and read by the host. -/
def Obligations.DecryptRoundsTheResidual : Prop :=
  ∀ (s : State) (k : Nat) (out cb kb t : RegNum) (b : Nat), s.wf = true → s.flt = false → 1 ≤ k → 1 ≤ b → b ≤ 31 →
    layoutOk s.params.nr (decryptRegs k out cb kb t) = true → keyReady s k kb = true →
    ciphertextValid s k cb = true →
    ∃ u, runLines (decryptLines s.params.n k out cb kb t b) s = .next u ∧
      (∀ j < s.params.n, (coeff (u.reg out) j).toNat =
        ((coeff (s.reg (cb + k)) j - maskSum s k kb cb j).toNat + 2 ^ (31 - b)) % 2 ^ 32 / 2 ^ (32 - b)) ∧
      u.observed = s.observed ++ u.reg out ∧
      (∀ r, r ≠ out → r ≠ t → u.reg r = s.reg r ∧ u.isValid r = s.isValid r) ∧
      KeepsFold s u ∧ u.eq = s.eq ∧ KeepsFault s u ∧ KeepsSources s u ∧ u.params = s.params ∧
      u.pending = s.pending ∧ (decryptLines s.params.n k out cb kb t b).length = 2 * k + 1 + (1 + s.params.n)

/-- Round trip (R130, R134): a plaintext below 2^b, encrypted and decrypted with the same ready key, is what the host
reads, for every key, every mask draw, and every noise draw in the window (how the model holds answers: log entry 5). -/
def Obligations.DecryptionRecoversThePlaintext : Prop :=
  ∀ (s : State) (k : Nat) (out cb kb pt t : RegNum) (b : Nat), s.wf = true → s.flt = false → 1 ≤ k → 1 ≤ b → b ≤ 31 →
    layoutOk s.params.nr (out :: encryptRegs k cb kb pt t) = true → keyReady s k kb = true → s.isValid pt = true →
    (∀ j < s.params.n, (coeff (s.reg pt) j).toNat < 2 ^ b) →
    (∀ j < s.params.n, inWindow b (noiseDraw s j).toInt) →
    ∃ u, runLines (roundTripLines s.params.n k out cb kb pt t b) s = .next u ∧
      u.observed = s.observed ++ s.reg pt ∧ u.flt = false

/-- CTADD (R131): component by component, into a register range that is the same as a summand's or apart from it. -/
def Obligations.CtaddSumsTheComponents : Prop :=
  ∀ (s : State) (k : Nat) (cd c1 c2 : RegNum), s.wf = true → s.flt = false →
    cd + k < s.params.nr → c1 + k < s.params.nr → c2 + k < s.params.nr →
    sameOrApart k cd c1 = true → sameOrApart k cd c2 = true → sameOrApart k c1 c2 = true →
    ciphertextValid s k c1 = true → ciphertextValid s k c2 = true →
    ∃ t, runLines (ctadd k cd c1 c2) s = .next t ∧
      (∀ i ≤ k, ∀ j < s.params.n,
        coeff (t.reg (cd + i)) j = coeff (s.reg (c1 + i)) j + coeff (s.reg (c2 + i)) j) ∧
      ciphertextValid t k cd = true ∧
      (∀ r, r ∉ regRange cd (k + 1) → t.reg r = s.reg r ∧ t.isValid r = s.isValid r) ∧
      KeepsFold s t ∧ KeepsOutput s t ∧ t.eq = s.eq ∧ KeepsFault s t ∧ KeepsSources s t ∧ KeepsHost s t

/-- Homomorphic addition (R132, R134): two encryptions under one key, added in place and decrypted, give the sums of the
payloads modulo 2^b wherever the sum of the two noises is in the window (how the model holds answers: log entry 5). -/
def Obligations.DecryptionOfASumIsTheSumOfThePlaintexts : Prop :=
  ∀ (s : State) (k : Nat) (out c1 c2 kb p1 p2 t : RegNum) (b : Nat), s.wf = true → s.flt = false →
    1 ≤ k → 1 ≤ b → b ≤ 31 →
    layoutOk s.params.nr (p2 :: out :: (regRange c2 (k + 1) ++ encryptRegs k c1 kb p1 t)) = true →
    keyReady s k kb = true → s.isValid p1 = true → s.isValid p2 = true →
    ∃ u, runLines (homomorphicLines s.params.n k out c1 c2 kb p1 p2 t b) s = .next u ∧
      u.observed = s.observed ++ u.reg out ∧ u.flt = false ∧
      ∀ j < s.params.n,
        inWindow b ((noiseDraw s j).toInt + (noiseDraw s (s.params.n + j)).toInt) →
        (coeff (u.reg out) j).toNat = ((coeff (s.reg p1) j).toNat + (coeff (s.reg p2) j).toNat) % 2 ^ b

/-- Adding two ciphertexts under one key adds their payloads and their noises, raises no fault, and leaves a state that
meets this statement's premises again: the sum is a valid ciphertext of the same form, and the key and every register
outside it are untouched. So any number of additions can follow, and accumulates both (R132). And the chain itself (R134,
"Bounded chained addition"): after any number of additions of freshly encrypted copies of one plaintext, decryption gives the
running sum modulo 2^b wherever the sum of all noises is in the window (how the model holds answers: log entry 5). -/
def Obligations.AdditionAccumulatesPayloadsAndNoises : Prop :=
  (∀ (s : State) (k : Nat) (cd c1 c2 kb : RegNum) (b : Nat) (m₁ m₂ e₁ e₂ : Nat → Int), s.wf = true → s.flt = false →
    cd + k < s.params.nr → c1 + k < s.params.nr → c2 + k < s.params.nr → kb + k ≤ s.params.nr →
    sameOrApart k cd c1 = true → sameOrApart k cd c2 = true → (∀ i < k, kb + i ∉ regRange cd (k + 1)) →
    ciphertextValid s k c1 = true → ciphertextValid s k c2 = true →
    Hides s k kb c1 b m₁ e₁ → Hides s k kb c2 b m₂ e₂ →
    ∃ t, runLines (ctadd k cd c1 c2) s = .next t ∧ ciphertextValid t k cd = true ∧
      Hides t k kb cd b (fun j => m₁ j + m₂ j) (fun j => e₁ j + e₂ j) ∧
      KeepsFault s t ∧ t.wf = true ∧ t.params = s.params ∧
      ∀ r, r ∉ regRange cd (k + 1) → t.reg r = s.reg r ∧ t.isValid r = s.isValid r) ∧
  ∀ (s : State) (k : Nat) (out acc fresh kb pt t : RegNum) (b adds : Nat), s.wf = true → s.flt = false →
    1 ≤ k → 1 ≤ b → b ≤ 31 →
    layoutOk s.params.nr (out :: (regRange fresh (k + 1) ++ encryptRegs k acc kb pt t)) = true →
    keyReady s k kb = true → s.isValid pt = true →
    ∃ u, runLines (chainedAdditionLines s.params.n k out acc fresh kb pt t b adds) s = .next u ∧
      u.observed = s.observed ++ u.reg out ∧ u.flt = false ∧
      ∀ j < s.params.n, inWindow b (noiseTotal s (adds + 1) j) →
        (coeff (u.reg out) j).toNat = (adds + 1) * (coeff (s.reg pt) j).toNat % 2 ^ b

/-- What decryption returns for a ciphertext with any accumulated noise: the payload modulo 2^b where the noise is in
the window, else a neighbouring wrong one; never a fault (R130, R132). -/
def Obligations.DecryptionReturnsThePayloadInTheWindow : Prop :=
  ∀ (s : State) (k : Nat) (out cb kb t : RegNum) (b : Nat) (m e : Nat → Int), s.wf = true → s.flt = false → 1 ≤ k →
    1 ≤ b → b ≤ 31 → layoutOk s.params.nr (decryptRegs k out cb kb t) = true → keyReady s k kb = true →
    ciphertextValid s k cb = true → Hides s k kb cb b m e →
    ∃ u, runLines (decryptLines s.params.n k out cb kb t b) s = .next u ∧ u.flt = false ∧
      u.observed = s.observed ++ u.reg out ∧ ∀ j < s.params.n,
        ((coeff (u.reg out) j).toNat : Int) = (m j + (e j + 2 ^ (31 - b)) / 2 ^ (32 - b)) % 2 ^ b ∧
        (inWindow b (e j) → ((coeff (u.reg out) j).toNat : Int) = m j % 2 ^ b)

/-- CTEQ (R133): the AND of the flags the host reads says whether all components are equal. -/
def Obligations.CteqComparesAllComponents : Prop :=
  ∀ (s : State) (k : Nat) (c1 c2 : RegNum), s.wf = true → s.flt = false →
    c1 + k < s.params.nr → c2 + k < s.params.nr → ciphertextValid s k c1 = true → ciphertextValid s k c2 = true →
    ∃ (t : State) (ws : List Word), runLines (cteq k c1 c2) s = .next t ∧ t.observed = s.observed ++ ws ∧
      ws.length = k + 1 ∧ (cteqAnswer ws = true ↔ ciphertextAt s k c1 = ciphertextAt s k c2) ∧
      KeepsRegs s t ∧ KeepsFold s t ∧ KeepsOutput s t ∧ KeepsFault s t ∧ KeepsSources s t
end

