-- ==== Sys2Proof/Laws/Decode.lean ====
section
/-! SUPPORT. The fields of a packed word, and a word packed from its fields (30_encoding.md R50). -/

namespace Sys2Proof

/-- A word is its four fields. -/
theorem packFields_fields (w : Word) : packFields (opField w) (aField w) (bField w) (cField w) = w := by
  simp only [packFields, opField, aField, bField, cField, BitVec.ofNat_toNat, BitVec.setWidth_eq]
  apply BitVec.eq_of_getLsbD_eq
  intro i hi
  simp only [BitVec.getLsbD_append, BitVec.getLsbD_extractLsb']
  by_cases h0 : i < 8
  · simp [h0]
  by_cases h1 : i < 16
  · have : i - 8 < 8 := by omega
    have e : 8 + (i - 8) = i := by omega
    simp [h0, this, e]
  by_cases h2 : i < 24
  · have a1 : ¬ (i - 8 < 8) := by omega
    have a2 : i - 8 - 8 < 8 := by omega
    have e : 16 + (i - 8 - 8) = i := by omega
    simp [h0, a1, a2, e]
  · have a1 : ¬ (i - 8 < 8) := by omega
    have a2 : ¬ (i - 8 - 8 < 8) := by omega
    have a3 : i - 8 - 8 - 8 < 8 := by omega
    have e : 24 + (i - 8 - 8 - 8) = i := by omega
    simp [h0, a1, a2, a3, e]

/-- A field is the byte whose bits stand at its place. -/
theorem extract_eq (x : Byte) (k : Nat) (w : Word) (h : ∀ i < 8, w.getLsbD (k + i) = x.getLsbD i) :
    w.extractLsb' k 8 = x := by
  apply BitVec.eq_of_getLsbD_eq
  intro i hi
  simp [hi, h i hi]

/-- The four fields of a packed word. -/
theorem fields_of_packFields (op : Byte) (a b c : Nat) :
    opField (packFields op a b c) = op ∧ aField (packFields op a b c) = a % 256 ∧
    bField (packFields op a b c) = b % 256 ∧ cField (packFields op a b c) = c % 256 := by
  have ge : ∀ i, (packFields op a b c).getLsbD i =
     if i < 8 then (BitVec.ofNat 8 c).getLsbD i else if i - 8 < 8 then (BitVec.ofNat 8 b).getLsbD (i-8) else
     if i - 8 - 8 < 8 then (BitVec.ofNat 8 a).getLsbD (i-8-8) else op.getLsbD (i-8-8-8) := by
    intro i
    simp only [packFields, BitVec.getLsbD_append]
  have hn : ∀ x : Nat, (BitVec.ofNat 8 x).toNat = x % 256 := fun x => by simp
  refine ⟨?_, ?_, ?_, ?_⟩
  · unfold opField; apply extract_eq; intro i hi; rw [ge]
    rw [if_neg (by omega), if_neg (by omega), if_neg (by omega)]; congr 1; omega
  · unfold aField; rw [extract_eq (BitVec.ofNat 8 a), hn]; intro i hi; rw [ge]
    rw [if_neg (by omega), if_neg (by omega), if_pos (by omega)]; congr 1; omega
  · unfold bField; rw [extract_eq (BitVec.ofNat 8 b), hn]; intro i hi; rw [ge]
    rw [if_neg (by omega), if_pos (by omega)]; congr 1; omega
  · unfold cField; rw [extract_eq (BitVec.ofNat 8 c), hn]; intro i hi; rw [ge]
    rw [if_pos (by omega)]; congr 1; omega

/-! ### What the decoder can answer -/

theorem requireZero_eq_ok {w : Word} {unused : List Nat} {i j : Instr} :
    requireZero w unused i = .ok j ↔ (∀ f ∈ unused, f = 0) ∧ j = i := by
  unfold requireZero
  by_cases h : unused.all (fun f => decide (f = 0)) = true
  · rw [if_pos h]
    simp only [List.all_eq_true, decide_eq_true_eq] at h
    exact ⟨fun e => ⟨h, by cases e; rfl⟩, fun e => by rw [e.2]⟩
  · rw [if_neg h]
    simp only [List.all_eq_true, decide_eq_true_eq] at h
    exact ⟨fun e => by (cases e), fun e => absurd e.1 h⟩

/-- The decoder by rows: which words it takes for which command (30_encoding.md R51, R53). -/
theorem decode_eq_ok {w : Word} {i : Instr} :
    decode w = .ok i ↔
    (opField w = 0x01#8 ∧ bField w = 0 ∧ cField w = 0 ∧ i = .zero (aField w)) ∨
    (opField w = 0x02#8 ∧ bField w = 0 ∧ cField w = 0 ∧ i = .fold (aField w)) ∨
    (opField w = 0x03#8 ∧ aField w = 0 ∧ bField w = 0 ∧ cField w = 0 ∧ i = .fbclr) ∨
    (opField w = 0x04#8 ∧ aField w = 0 ∧ cField w = 0 ∧ i = .st (bField w)) ∨
    (opField w = 0x10#8 ∧ i = .add (aField w) (bField w) (cField w)) ∨
    (opField w = 0x11#8 ∧ i = .sub (aField w) (bField w) (cField w)) ∨
    (opField w = 0x12#8 ∧ i = .mul (aField w) (bField w) (cField w)) ∨
    (opField w = 0x13#8 ∧ aField w = 0 ∧ i = .cmpeq (bField w) (cField w)) ∨
    (opField w = 0x20#8 ∧ i = .enc (aField w) (bField w) (cField w)) ∨
    (opField w = 0x21#8 ∧ i = .dec (aField w) (bField w) (cField w)) ∨
    (opField w = 0x22#8 ∧ cField w = 0 ∧ i = .addn (aField w) (bField w)) ∨
    (opField w = 0x30#8 ∧ bField w = 0 ∧ cField w = 0 ∧ i = .rndu (aField w)) ∨
    (opField w = 0x31#8 ∧ bField w = 0 ∧ cField w = 0 ∧ i = .rndb (aField w)) := by
  unfold decode
  dsimp only
  by_cases h0 : opField w = 0x01#8
  · rw [if_pos h0, requireZero_eq_ok]; simp [h0, and_assoc]
  rw [if_neg h0]
  by_cases h1 : opField w = 0x02#8
  · rw [if_pos h1, requireZero_eq_ok]; simp [h1, and_assoc]
  rw [if_neg h1]
  by_cases h2 : opField w = 0x03#8
  · rw [if_pos h2, requireZero_eq_ok]; simp [h2, and_assoc]
  rw [if_neg h2]
  by_cases h3 : opField w = 0x04#8
  · rw [if_pos h3, requireZero_eq_ok]; simp [h3, and_assoc]
  rw [if_neg h3]
  by_cases h4 : opField w = 0x10#8
  · rw [if_pos h4]; simp [h4, eq_comm]
  rw [if_neg h4]
  by_cases h5 : opField w = 0x11#8
  · rw [if_pos h5]; simp [h5, eq_comm]
  rw [if_neg h5]
  by_cases h6 : opField w = 0x12#8
  · rw [if_pos h6]; simp [h6, eq_comm]
  rw [if_neg h6]
  by_cases h7 : opField w = 0x13#8
  · rw [if_pos h7, requireZero_eq_ok]; simp [h7]
  rw [if_neg h7]
  by_cases h8 : opField w = 0x20#8
  · rw [if_pos h8]; simp [h8, eq_comm]
  rw [if_neg h8]
  by_cases h9 : opField w = 0x21#8
  · rw [if_pos h9]; simp [h9, eq_comm]
  rw [if_neg h9]
  by_cases h10 : opField w = 0x22#8
  · rw [if_pos h10, requireZero_eq_ok]; simp [h10]
  rw [if_neg h10]
  by_cases h11 : opField w = 0x30#8
  · rw [if_pos h11, requireZero_eq_ok]; simp [h11, and_assoc]
  rw [if_neg h11]
  by_cases h12 : opField w = 0x31#8
  · rw [if_pos h12, requireZero_eq_ok]; simp [h12, and_assoc]
  rw [if_neg h12]
  simp only [reduceCtorEq, false_iff]
  simp [h0, h1, h2, h3, h4, h5, h6, h7, h8, h9, h10, h11, h12]

end Sys2Proof
end

