-- ==== Sys2Proof/Laws/State.lean ====
section
/-! SUPPORT. What each update of State does to each field: one lemma per field per update, so that no later proof
unfolds a record update. -/

namespace Sys2Proof.Machine

/-! ### setReg -/

@[simp] theorem setReg_params (s : State) (r : RegNum) (v : RingElt) : (s.setReg r v).params = s.params := rfl
@[simp] theorem setReg_regs (s : State) (r : RegNum) (v : RingElt) : (s.setReg r v).regs = s.regs.set r v := rfl
@[simp] theorem setReg_valid (s : State) (r : RegNum) (v : RingElt) : (s.setReg r v).valid = s.valid.set r true := rfl
@[simp] theorem setReg_fb (s : State) (r : RegNum) (v : RingElt) : (s.setReg r v).fb = s.fb := rfl
@[simp] theorem setReg_wp (s : State) (r : RegNum) (v : RingElt) : (s.setReg r v).wp = s.wp := rfl
@[simp] theorem setReg_ob (s : State) (r : RegNum) (v : RingElt) : (s.setReg r v).ob = s.ob := rfl
@[simp] theorem setReg_ovalid (s : State) (r : RegNum) (v : RingElt) : (s.setReg r v).ovalid = s.ovalid := rfl
@[simp] theorem setReg_rp (s : State) (r : RegNum) (v : RingElt) : (s.setReg r v).rp = s.rp := rfl
@[simp] theorem setReg_eq (s : State) (r : RegNum) (v : RingElt) : (s.setReg r v).eq = s.eq := rfl
@[simp] theorem setReg_flt (s : State) (r : RegNum) (v : RingElt) : (s.setReg r v).flt = s.flt := rfl
@[simp] theorem setReg_code (s : State) (r : RegNum) (v : RingElt) : (s.setReg r v).code = s.code := rfl
@[simp] theorem setReg_pending (s : State) (r : RegNum) (v : RingElt) : (s.setReg r v).pending = s.pending := rfl
@[simp] theorem setReg_observed (s : State) (r : RegNum) (v : RingElt) : (s.setReg r v).observed = s.observed := rfl
@[simp] theorem setReg_random (s : State) (r : RegNum) (v : RingElt) : (s.setReg r v).random = s.random := rfl
@[simp] theorem setReg_noise (s : State) (r : RegNum) (v : RingElt) : (s.setReg r v).noise = s.noise := rfl
@[simp] theorem setReg_freeIx (s : State) (r : RegNum) (v : RingElt) : (s.setReg r v).freeIx = s.freeIx := rfl

/-! ### pushFold -/

@[simp] theorem pushFold_params (s : State) (w : Word) : (s.pushFold w).params = s.params := rfl
@[simp] theorem pushFold_regs (s : State) (w : Word) : (s.pushFold w).regs = s.regs := rfl
@[simp] theorem pushFold_valid (s : State) (w : Word) : (s.pushFold w).valid = s.valid := rfl
@[simp] theorem pushFold_fb (s : State) (w : Word) : (s.pushFold w).fb = s.fb.set s.wp w := rfl
@[simp] theorem pushFold_wp (s : State) (w : Word) : (s.pushFold w).wp = (s.wp + 1) % (2 * s.params.n) := rfl
@[simp] theorem pushFold_ob (s : State) (w : Word) : (s.pushFold w).ob = s.ob := rfl
@[simp] theorem pushFold_ovalid (s : State) (w : Word) : (s.pushFold w).ovalid = s.ovalid := rfl
@[simp] theorem pushFold_rp (s : State) (w : Word) : (s.pushFold w).rp = s.rp := rfl
@[simp] theorem pushFold_eq (s : State) (w : Word) : (s.pushFold w).eq = s.eq := rfl
@[simp] theorem pushFold_flt (s : State) (w : Word) : (s.pushFold w).flt = s.flt := rfl
@[simp] theorem pushFold_code (s : State) (w : Word) : (s.pushFold w).code = s.code := rfl
@[simp] theorem pushFold_pending (s : State) (w : Word) : (s.pushFold w).pending = s.pending := rfl
@[simp] theorem pushFold_observed (s : State) (w : Word) : (s.pushFold w).observed = s.observed := rfl
@[simp] theorem pushFold_random (s : State) (w : Word) : (s.pushFold w).random = s.random := rfl
@[simp] theorem pushFold_noise (s : State) (w : Word) : (s.pushFold w).noise = s.noise := rfl
@[simp] theorem pushFold_freeIx (s : State) (w : Word) : (s.pushFold w).freeIx = s.freeIx := rfl

/-! ### clearFold -/

@[simp] theorem clearFold_params (s : State) : s.clearFold.params = s.params := rfl
@[simp] theorem clearFold_regs (s : State) : s.clearFold.regs = s.regs := rfl
@[simp] theorem clearFold_valid (s : State) : s.clearFold.valid = s.valid := rfl
@[simp] theorem clearFold_fb (s : State) : s.clearFold.fb = List.replicate (2 * s.params.n) 0 := rfl
@[simp] theorem clearFold_wp (s : State) : s.clearFold.wp = 0 := rfl
@[simp] theorem clearFold_ob (s : State) : s.clearFold.ob = s.ob := rfl
@[simp] theorem clearFold_ovalid (s : State) : s.clearFold.ovalid = s.ovalid := rfl
@[simp] theorem clearFold_rp (s : State) : s.clearFold.rp = s.rp := rfl
@[simp] theorem clearFold_eq (s : State) : s.clearFold.eq = s.eq := rfl
@[simp] theorem clearFold_flt (s : State) : s.clearFold.flt = s.flt := rfl
@[simp] theorem clearFold_code (s : State) : s.clearFold.code = s.code := rfl
@[simp] theorem clearFold_pending (s : State) : s.clearFold.pending = s.pending := rfl
@[simp] theorem clearFold_observed (s : State) : s.clearFold.observed = s.observed := rfl
@[simp] theorem clearFold_random (s : State) : s.clearFold.random = s.random := rfl
@[simp] theorem clearFold_noise (s : State) : s.clearFold.noise = s.noise := rfl
@[simp] theorem clearFold_freeIx (s : State) : s.clearFold.freeIx = s.freeIx := rfl

/-! ### setOutput -/

@[simp] theorem setOutput_params (s : State) (v : RingElt) : (s.setOutput v).params = s.params := rfl
@[simp] theorem setOutput_regs (s : State) (v : RingElt) : (s.setOutput v).regs = s.regs := rfl
@[simp] theorem setOutput_valid (s : State) (v : RingElt) : (s.setOutput v).valid = s.valid := rfl
@[simp] theorem setOutput_fb (s : State) (v : RingElt) : (s.setOutput v).fb = s.fb := rfl
@[simp] theorem setOutput_wp (s : State) (v : RingElt) : (s.setOutput v).wp = s.wp := rfl
@[simp] theorem setOutput_ob (s : State) (v : RingElt) : (s.setOutput v).ob = lanes s.params.n (coeff v) := rfl
@[simp] theorem setOutput_ovalid (s : State) (v : RingElt) : (s.setOutput v).ovalid = true := rfl
@[simp] theorem setOutput_rp (s : State) (v : RingElt) : (s.setOutput v).rp = 0 := rfl
@[simp] theorem setOutput_eq (s : State) (v : RingElt) : (s.setOutput v).eq = s.eq := rfl
@[simp] theorem setOutput_flt (s : State) (v : RingElt) : (s.setOutput v).flt = s.flt := rfl
@[simp] theorem setOutput_code (s : State) (v : RingElt) : (s.setOutput v).code = s.code := rfl
@[simp] theorem setOutput_pending (s : State) (v : RingElt) : (s.setOutput v).pending = s.pending := rfl
@[simp] theorem setOutput_observed (s : State) (v : RingElt) : (s.setOutput v).observed = s.observed := rfl
@[simp] theorem setOutput_random (s : State) (v : RingElt) : (s.setOutput v).random = s.random := rfl
@[simp] theorem setOutput_noise (s : State) (v : RingElt) : (s.setOutput v).noise = s.noise := rfl
@[simp] theorem setOutput_freeIx (s : State) (v : RingElt) : (s.setOutput v).freeIx = s.freeIx := rfl

/-! ### advanceOut -/

@[simp] theorem advanceOut_params (s : State) : s.advanceOut.params = s.params := rfl
@[simp] theorem advanceOut_regs (s : State) : s.advanceOut.regs = s.regs := rfl
@[simp] theorem advanceOut_valid (s : State) : s.advanceOut.valid = s.valid := rfl
@[simp] theorem advanceOut_fb (s : State) : s.advanceOut.fb = s.fb := rfl
@[simp] theorem advanceOut_wp (s : State) : s.advanceOut.wp = s.wp := rfl
@[simp] theorem advanceOut_ob (s : State) : s.advanceOut.ob = s.ob := rfl
@[simp] theorem advanceOut_ovalid (s : State) : s.advanceOut.ovalid = s.ovalid := rfl
@[simp] theorem advanceOut_rp (s : State) : s.advanceOut.rp = (s.rp + 1) % s.params.n := rfl
@[simp] theorem advanceOut_eq (s : State) : s.advanceOut.eq = s.eq := rfl
@[simp] theorem advanceOut_flt (s : State) : s.advanceOut.flt = s.flt := rfl
@[simp] theorem advanceOut_code (s : State) : s.advanceOut.code = s.code := rfl
@[simp] theorem advanceOut_pending (s : State) : s.advanceOut.pending = s.pending := rfl
@[simp] theorem advanceOut_observed (s : State) : s.advanceOut.observed = s.observed := rfl
@[simp] theorem advanceOut_random (s : State) : s.advanceOut.random = s.random := rfl
@[simp] theorem advanceOut_noise (s : State) : s.advanceOut.noise = s.noise := rfl
@[simp] theorem advanceOut_freeIx (s : State) : s.advanceOut.freeIx = s.freeIx := rfl

/-! ### observe -/

@[simp] theorem observe_params (s : State) (w : Word) : (s.observe w).params = s.params := rfl
@[simp] theorem observe_regs (s : State) (w : Word) : (s.observe w).regs = s.regs := rfl
@[simp] theorem observe_valid (s : State) (w : Word) : (s.observe w).valid = s.valid := rfl
@[simp] theorem observe_fb (s : State) (w : Word) : (s.observe w).fb = s.fb := rfl
@[simp] theorem observe_wp (s : State) (w : Word) : (s.observe w).wp = s.wp := rfl
@[simp] theorem observe_ob (s : State) (w : Word) : (s.observe w).ob = s.ob := rfl
@[simp] theorem observe_ovalid (s : State) (w : Word) : (s.observe w).ovalid = s.ovalid := rfl
@[simp] theorem observe_rp (s : State) (w : Word) : (s.observe w).rp = s.rp := rfl
@[simp] theorem observe_eq (s : State) (w : Word) : (s.observe w).eq = s.eq := rfl
@[simp] theorem observe_flt (s : State) (w : Word) : (s.observe w).flt = s.flt := rfl
@[simp] theorem observe_code (s : State) (w : Word) : (s.observe w).code = s.code := rfl
@[simp] theorem observe_pending (s : State) (w : Word) : (s.observe w).pending = s.pending := rfl
@[simp] theorem observe_observed (s : State) (w : Word) : (s.observe w).observed = s.observed ++ [w] := rfl
@[simp] theorem observe_random (s : State) (w : Word) : (s.observe w).random = s.random := rfl
@[simp] theorem observe_noise (s : State) (w : Word) : (s.observe w).noise = s.noise := rfl
@[simp] theorem observe_freeIx (s : State) (w : Word) : (s.observe w).freeIx = s.freeIx := rfl

/-! ### observeFree -/

@[simp] theorem observeFree_params (s : State) : s.observeFree.params = s.params := rfl
@[simp] theorem observeFree_regs (s : State) : s.observeFree.regs = s.regs := rfl
@[simp] theorem observeFree_valid (s : State) : s.observeFree.valid = s.valid := rfl
@[simp] theorem observeFree_fb (s : State) : s.observeFree.fb = s.fb := rfl
@[simp] theorem observeFree_wp (s : State) : s.observeFree.wp = s.wp := rfl
@[simp] theorem observeFree_ob (s : State) : s.observeFree.ob = s.ob := rfl
@[simp] theorem observeFree_ovalid (s : State) : s.observeFree.ovalid = s.ovalid := rfl
@[simp] theorem observeFree_rp (s : State) : s.observeFree.rp = s.rp := rfl
@[simp] theorem observeFree_eq (s : State) : s.observeFree.eq = s.eq := rfl
@[simp] theorem observeFree_flt (s : State) : s.observeFree.flt = s.flt := rfl
@[simp] theorem observeFree_code (s : State) : s.observeFree.code = s.code := rfl
@[simp] theorem observeFree_pending (s : State) : s.observeFree.pending = s.pending := rfl
@[simp] theorem observeFree_observed (s : State) : s.observeFree.observed = s.observed ++ [Config.unspecified s.freeIx] := rfl
@[simp] theorem observeFree_random (s : State) : s.observeFree.random = s.random := rfl
@[simp] theorem observeFree_noise (s : State) : s.observeFree.noise = s.noise := rfl
@[simp] theorem observeFree_freeIx (s : State) : s.observeFree.freeIx = s.freeIx + 1 := rfl

/-! ### setEq -/

@[simp] theorem setEq_params (s : State) (e : Bool) : (s.setEq e).params = s.params := rfl
@[simp] theorem setEq_regs (s : State) (e : Bool) : (s.setEq e).regs = s.regs := rfl
@[simp] theorem setEq_valid (s : State) (e : Bool) : (s.setEq e).valid = s.valid := rfl
@[simp] theorem setEq_fb (s : State) (e : Bool) : (s.setEq e).fb = s.fb := rfl
@[simp] theorem setEq_wp (s : State) (e : Bool) : (s.setEq e).wp = s.wp := rfl
@[simp] theorem setEq_ob (s : State) (e : Bool) : (s.setEq e).ob = s.ob := rfl
@[simp] theorem setEq_ovalid (s : State) (e : Bool) : (s.setEq e).ovalid = s.ovalid := rfl
@[simp] theorem setEq_rp (s : State) (e : Bool) : (s.setEq e).rp = s.rp := rfl
@[simp] theorem setEq_eq (s : State) (e : Bool) : (s.setEq e).eq = e := rfl
@[simp] theorem setEq_flt (s : State) (e : Bool) : (s.setEq e).flt = s.flt := rfl
@[simp] theorem setEq_code (s : State) (e : Bool) : (s.setEq e).code = s.code := rfl
@[simp] theorem setEq_pending (s : State) (e : Bool) : (s.setEq e).pending = s.pending := rfl
@[simp] theorem setEq_observed (s : State) (e : Bool) : (s.setEq e).observed = s.observed := rfl
@[simp] theorem setEq_random (s : State) (e : Bool) : (s.setEq e).random = s.random := rfl
@[simp] theorem setEq_noise (s : State) (e : Bool) : (s.setEq e).noise = s.noise := rfl
@[simp] theorem setEq_freeIx (s : State) (e : Bool) : (s.setEq e).freeIx = s.freeIx := rfl

/-! ### planCommand -/

@[simp] theorem planCommand_params (s : State) (w : Word) : (s.planCommand w).params = s.params := rfl
@[simp] theorem planCommand_regs (s : State) (w : Word) : (s.planCommand w).regs = s.regs := rfl
@[simp] theorem planCommand_valid (s : State) (w : Word) : (s.planCommand w).valid = s.valid := rfl
@[simp] theorem planCommand_fb (s : State) (w : Word) : (s.planCommand w).fb = s.fb := rfl
@[simp] theorem planCommand_wp (s : State) (w : Word) : (s.planCommand w).wp = s.wp := rfl
@[simp] theorem planCommand_ob (s : State) (w : Word) : (s.planCommand w).ob = s.ob := rfl
@[simp] theorem planCommand_ovalid (s : State) (w : Word) : (s.planCommand w).ovalid = s.ovalid := rfl
@[simp] theorem planCommand_rp (s : State) (w : Word) : (s.planCommand w).rp = s.rp := rfl
@[simp] theorem planCommand_eq (s : State) (w : Word) : (s.planCommand w).eq = s.eq := rfl
@[simp] theorem planCommand_flt (s : State) (w : Word) : (s.planCommand w).flt = s.flt := rfl
@[simp] theorem planCommand_code (s : State) (w : Word) : (s.planCommand w).code = s.code := rfl
@[simp] theorem planCommand_pending (s : State) (w : Word) : (s.planCommand w).pending = .portWrite .cmd w :: s.pending := rfl
@[simp] theorem planCommand_observed (s : State) (w : Word) : (s.planCommand w).observed = s.observed := rfl
@[simp] theorem planCommand_random (s : State) (w : Word) : (s.planCommand w).random = s.random := rfl
@[simp] theorem planCommand_noise (s : State) (w : Word) : (s.planCommand w).noise = s.noise := rfl
@[simp] theorem planCommand_freeIx (s : State) (w : Word) : (s.planCommand w).freeIx = s.freeIx := rfl

/-! ### plan -/

@[simp] theorem plan_params (s : State) (l : List Line) : (s.plan l).params = s.params := rfl
@[simp] theorem plan_regs (s : State) (l : List Line) : (s.plan l).regs = s.regs := rfl
@[simp] theorem plan_valid (s : State) (l : List Line) : (s.plan l).valid = s.valid := rfl
@[simp] theorem plan_fb (s : State) (l : List Line) : (s.plan l).fb = s.fb := rfl
@[simp] theorem plan_wp (s : State) (l : List Line) : (s.plan l).wp = s.wp := rfl
@[simp] theorem plan_ob (s : State) (l : List Line) : (s.plan l).ob = s.ob := rfl
@[simp] theorem plan_ovalid (s : State) (l : List Line) : (s.plan l).ovalid = s.ovalid := rfl
@[simp] theorem plan_rp (s : State) (l : List Line) : (s.plan l).rp = s.rp := rfl
@[simp] theorem plan_eq (s : State) (l : List Line) : (s.plan l).eq = s.eq := rfl
@[simp] theorem plan_flt (s : State) (l : List Line) : (s.plan l).flt = s.flt := rfl
@[simp] theorem plan_code (s : State) (l : List Line) : (s.plan l).code = s.code := rfl
@[simp] theorem plan_pending (s : State) (l : List Line) : (s.plan l).pending = l.map lineTransaction ++ s.pending := rfl
@[simp] theorem plan_observed (s : State) (l : List Line) : (s.plan l).observed = s.observed := rfl
@[simp] theorem plan_random (s : State) (l : List Line) : (s.plan l).random = s.random := rfl
@[simp] theorem plan_noise (s : State) (l : List Line) : (s.plan l).noise = s.noise := rfl
@[simp] theorem plan_freeIx (s : State) (l : List Line) : (s.plan l).freeIx = s.freeIx := rfl

/-! ### raiseFault -/

@[simp] theorem raiseFault_params (c : FaultCode) (s : State) : (raiseFault c s).params = s.params := by
  unfold raiseFault; split <;> rfl
@[simp] theorem raiseFault_regs (c : FaultCode) (s : State) : (raiseFault c s).regs = s.regs := by
  unfold raiseFault; split <;> rfl
@[simp] theorem raiseFault_valid (c : FaultCode) (s : State) : (raiseFault c s).valid = s.valid := by
  unfold raiseFault; split <;> rfl
@[simp] theorem raiseFault_fb (c : FaultCode) (s : State) : (raiseFault c s).fb = s.fb := by
  unfold raiseFault; split <;> rfl
@[simp] theorem raiseFault_wp (c : FaultCode) (s : State) : (raiseFault c s).wp = s.wp := by
  unfold raiseFault; split <;> rfl
@[simp] theorem raiseFault_ob (c : FaultCode) (s : State) : (raiseFault c s).ob = s.ob := by
  unfold raiseFault; split <;> rfl
@[simp] theorem raiseFault_ovalid (c : FaultCode) (s : State) : (raiseFault c s).ovalid = s.ovalid := by
  unfold raiseFault; split <;> rfl
@[simp] theorem raiseFault_rp (c : FaultCode) (s : State) : (raiseFault c s).rp = s.rp := by
  unfold raiseFault; split <;> rfl
@[simp] theorem raiseFault_eq (c : FaultCode) (s : State) : (raiseFault c s).eq = s.eq := by
  unfold raiseFault; split <;> rfl
@[simp] theorem raiseFault_flt (c : FaultCode) (s : State) : (raiseFault c s).flt = true := by
  unfold raiseFault; split <;> simp_all
@[simp] theorem raiseFault_code (c : FaultCode) (s : State) :
    (raiseFault c s).code = if s.flt then s.code else faultByte c := by
  unfold raiseFault; split <;> rfl
@[simp] theorem raiseFault_pending (c : FaultCode) (s : State) : (raiseFault c s).pending = s.pending := by
  unfold raiseFault; split <;> rfl
@[simp] theorem raiseFault_observed (c : FaultCode) (s : State) : (raiseFault c s).observed = s.observed := by
  unfold raiseFault; split <;> rfl
@[simp] theorem raiseFault_random (c : FaultCode) (s : State) : (raiseFault c s).random = s.random := by
  unfold raiseFault; split <;> rfl
@[simp] theorem raiseFault_noise (c : FaultCode) (s : State) : (raiseFault c s).noise = s.noise := by
  unfold raiseFault; split <;> rfl
@[simp] theorem raiseFault_freeIx (c : FaultCode) (s : State) : (raiseFault c s).freeIx = s.freeIx := by
  unfold raiseFault; split <;> rfl

/-! ### resetUnit -/

@[simp] theorem resetUnit_params (s : State) : (resetUnit s).params = s.params := rfl
@[simp] theorem resetUnit_regs (s : State) :
    (resetUnit s).regs = (List.range s.params.nr).map fun r => freeWords s.params.n (s.freeIx + r * s.params.n) := rfl
@[simp] theorem resetUnit_valid (s : State) :
    (resetUnit s).valid = List.replicate s.params.nr false := rfl
@[simp] theorem resetUnit_fb (s : State) :
    (resetUnit s).fb = List.replicate (2 * s.params.n) 0 := rfl
@[simp] theorem resetUnit_wp (s : State) : (resetUnit s).wp = 0 := rfl
@[simp] theorem resetUnit_ob (s : State) :
    (resetUnit s).ob = freeWords s.params.n (s.freeIx + s.params.nr * s.params.n) := rfl
@[simp] theorem resetUnit_ovalid (s : State) : (resetUnit s).ovalid = false := rfl
@[simp] theorem resetUnit_rp (s : State) : (resetUnit s).rp = 0 := rfl
@[simp] theorem resetUnit_eq (s : State) : (resetUnit s).eq = false := rfl
@[simp] theorem resetUnit_flt (s : State) : (resetUnit s).flt = false := rfl
@[simp] theorem resetUnit_code (s : State) : (resetUnit s).code = 0x00 := rfl
@[simp] theorem resetUnit_pending (s : State) : (resetUnit s).pending = s.pending := rfl
@[simp] theorem resetUnit_observed (s : State) : (resetUnit s).observed = s.observed := rfl
@[simp] theorem resetUnit_random (s : State) : (resetUnit s).random = s.random := rfl
@[simp] theorem resetUnit_noise (s : State) : (resetUnit s).noise = s.noise := rfl
@[simp] theorem resetUnit_freeIx (s : State) :
    (resetUnit s).freeIx = s.freeIx + s.params.nr * s.params.n + s.params.n := rfl

end Sys2Proof.Machine
end

