-- ==== Sys2Proof/Laws/Ops.lean ====
section
/-! SUPPORT. One lemma per shared operation, saying what it can do: lanes and coefficients, ring registers, draws,
raising a fault, the checks of a command. Proofs cite these instead of unfolding the operations. -/

namespace Sys2Proof.Machine

/-! ### Lanes and coefficients -/

@[simp] theorem length_lanes (n : Nat) (f : Nat → Word) : (lanes n f).length = n := by simp [lanes]

theorem coeff_lanes {n i : Nat} (f : Nat → Word) (h : i < n) : coeff (lanes n f) i = f i := by
  simp [coeff, lanes, List.getD, h]

theorem coeff_of_length_le {a : RingElt} {i : Nat} (h : a.length ≤ i) : coeff a i = 0 := by
  simp [coeff, List.getD, List.getElem?_eq_none h]

theorem coeff_replicate_zero (n i : Nat) : coeff (List.replicate n 0) i = 0 := by
  unfold coeff; rw [List.getD_eq_getElem?_getD, List.getElem?_replicate]; split <;> rfl

/-- Two elements of length `n` with the same coefficients are the same. -/
theorem ext_coeff {n : Nat} {a b : RingElt} (ha : a.length = n) (hb : b.length = n)
    (h : ∀ i < n, coeff a i = coeff b i) : a = b := by
  apply List.ext_getElem (by omega)
  intro i h1 h2
  simpa [coeff, List.getD, h1, h2] using h i (by omega)

theorem lanes_coeff {n : Nat} {a : RingElt} (ha : a.length = n) : lanes n (coeff a) = a :=
  ext_coeff (length_lanes ..) ha fun _ hi => coeff_lanes _ hi

theorem lanes_congr {n : Nat} {f g : Nat → Word} (h : ∀ i < n, f i = g i) : lanes n f = lanes n g :=
  ext_coeff (length_lanes ..) (length_lanes ..) fun i hi => by rw [coeff_lanes _ hi, coeff_lanes _ hi, h i hi]

theorem sum32_congr {k : Nat} {f g : Nat → Word} (h : ∀ i < k, f i = g i) : sum32 k f = sum32 k g := by
  induction k with
  | zero => rfl
  | succ k ih => rw [sum32, sum32, ih fun i hi => h i (by omega), h k (by omega)]

@[simp] theorem length_ringZero (n : Nat) : (ringZero n).length = n := length_lanes ..
@[simp] theorem length_ringAdd (n : Nat) (a b : RingElt) : (ringAdd n a b).length = n := length_lanes ..
@[simp] theorem length_ringSub (n : Nat) (a b : RingElt) : (ringSub n a b).length = n := length_lanes ..
@[simp] theorem length_ringMul (n : Nat) (a b : RingElt) : (ringMul n a b).length = n := length_lanes ..
@[simp] theorem length_ringFold (n : Nat) (buf : List Word) : (ringFold n buf).length = n := length_lanes ..
@[simp] theorem length_bitElt (bits : List (BitVec 1)) : (bitElt bits).length = bits.length := by simp [bitElt]

/-! ### Ring registers -/

theorem reg_setReg_self (s : State) {r : RegNum} (v : RingElt) (h : r < s.regs.length) : (s.setReg r v).reg r = v := by
  simp [State.reg, List.getD, h]

theorem reg_setReg_ne (s : State) {r q : RegNum} (v : RingElt) (h : q ≠ r) : (s.setReg r v).reg q = s.reg q := by
  simp [State.reg, List.getD, List.getElem?_set_ne h.symm]

theorem isValid_setReg_self (s : State) {r : RegNum} (v : RingElt) (h : r < s.valid.length) :
    (s.setReg r v).isValid r = true := by
  simp [State.isValid, List.getD, h]

theorem isValid_setReg_ne (s : State) {r q : RegNum} (v : RingElt) (h : q ≠ r) :
    (s.setReg r v).isValid q = s.isValid q := by
  simp [State.isValid, List.getD, List.getElem?_set_ne h.symm]

/-- A valid bit is never cleared by a register write (10_state.md R11). -/
theorem isValid_setReg_of_isValid (s : State) (r q : RegNum) (v : RingElt) (h : s.isValid q = true) :
    (s.setReg r v).isValid q = true := by
  by_cases e : q = r
  · subst e
    apply isValid_setReg_self
    by_contra hlt
    simp [State.isValid, List.getD, List.getElem?_eq_none (Nat.le_of_not_lt hlt)] at h
  · rw [isValid_setReg_ne s v e, h]

/-- The part of a state a register read depends on. -/
theorem reg_congr {s t : State} (h : t.regs = s.regs) (r : RegNum) : t.reg r = s.reg r := by
  simp only [State.reg, h]

theorem isValid_congr {s t : State} (h : t.valid = s.valid) (r : RegNum) : t.isValid r = s.isValid r := by
  simp only [State.isValid, h]

/-- What writing one register leaves alone. -/
theorem onlyRegChanges_setReg (s : State) (r : RegNum) (v : RingElt) : OnlyRegChanges r s (s.setReg r v) :=
  ⟨fun _ hq => ⟨reg_setReg_ne s v hq, isValid_setReg_ne s v hq⟩, ⟨rfl, rfl⟩, ⟨rfl, rfl, rfl⟩, rfl, ⟨rfl, rfl⟩,
    ⟨rfl, rfl⟩, ⟨rfl, rfl, rfl, rfl⟩⟩

/-! ### Draws -/

theorem drawOne_eq {α : Type} (free : Nat → α) (p : Source α) : drawOne free p = (answerAt free p 0, drawnOf p 1) := by
  rcases p with ⟨_ | ⟨a, l⟩, k⟩ <;> rfl

/-- `k` draws give the next `k` answers in order and leave the port `k` further on (41_lwe_codec.md R106). -/
theorem drawMany_eq {α : Type} (free : Nat → α) (k : Nat) (p : Source α) :
    drawMany free k p = ((List.range k).map (answerAt free p), drawnOf p k) := by
  induction k generalizing p with
  | zero => simp [drawMany, drawnOf]
  | succ k ih =>
    have shift : ∀ i, answerAt free (drawnOf p 1) i = answerAt free p (i + 1) := fun i => by
      simp [answerAt, drawnOf, List.getD, Nat.add_comm 1 i, Nat.add_assoc]
    have again : drawnOf (drawnOf p 1) k = drawnOf p (k + 1) := by
      simp [drawnOf, Nat.add_comm 1 k, Nat.add_assoc]
    simp [drawMany, drawOne_eq, ih, again, List.range_succ_eq_map, Function.comp_def, shift]

@[simp] theorem length_drawMany {α : Type} (free : Nat → α) (k : Nat) (p : Source α) :
    (drawMany free k p).1.length = k := by
  simp [drawMany_eq]

/-- RNDU's draws: the word answers in order (41_lwe_codec.md R107). -/
theorem drawMany_words (s : State) (k : Nat) :
    (drawMany freeRandom k s.random).1.map RandomAnswer.word = lanes k (wordDraw s) := by
  simp [drawMany_eq, lanes, wordDraw, Function.comp_def]

/-- RNDB's draws: the bit answers in order, zero-extended (41_lwe_codec.md R108). -/
theorem drawMany_bits (s : State) (k : Nat) :
    bitElt ((drawMany freeRandom k s.random).1.map RandomAnswer.bit) = lanes k (bitDraw s) := by
  simp [drawMany_eq, lanes, bitElt, bitDraw, Function.comp_def]

/-- ADDN's draws: the noise answers in order (41_lwe_codec.md R102). -/
theorem drawMany_noises (s : State) (k : Nat) : (drawMany Config.drawNoise k s.noise).1 = lanes k (noiseDraw s) := by
  simp [drawMany_eq, lanes, noiseDraw]

/-- A bit draw is 0 or 1: the port is one bit wide (20_memory.md R36). -/
theorem bitDraw_eq_zero_or_one (s : State) (i : Nat) : bitDraw s i = 0 ∨ bitDraw s i = 1 := by
  unfold bitDraw
  rcases BitVec.eq_zero_or_eq_one (answerAt freeRandom s.random i).bit with h | h <;> rw [h] <;> decide

/-! ### Faults -/

theorem raiseFault_of_good (c : FaultCode) {s : State} (h : s.flt = false) :
    raiseFault c s = { s with code := faultByte c, flt := true } := by
  simp [raiseFault, h]

theorem raiseFault_of_faulted (c : FaultCode) {s : State} (h : s.flt = true) : raiseFault c s = s := by
  simp [raiseFault, h]

theorem faultByte_ne_zero (c : FaultCode) : 1 ≤ (faultByte c).toNat ∧ (faultByte c).toNat ≤ 5 := by
  cases c <;> decide

/-! ### The checks of a command -/

theorem commandFault_eq_none {s : State} {used : List RegNum} {imm : Option Nat} {sources : List RegNum} :
    commandFault s used imm sources = none ↔
      (∀ r ∈ used, r < s.params.nr) ∧ (∀ b, imm = some b → 1 ≤ b ∧ b ≤ 31) ∧ ∀ r ∈ sources, s.isValid r = true := by
  unfold commandFault
  split
  · next h =>
    simp only [List.any_eq_true, decide_eq_true_eq] at h
    obtain ⟨r, hr, hle⟩ := h
    simp only [reduceCtorEq, false_iff]
    intro H
    exact absurd (H.1 r hr) (Nat.not_lt.mpr hle)
  · next h =>
    simp only [List.any_eq_true, decide_eq_true_eq, not_exists, not_and, Nat.not_le] at h
    split
    · next h2 =>
      simp only [reduceCtorEq, false_iff]
      intro H
      cases imm with
      | none => simp at h2
      | some b =>
        have := H.2.1 b rfl
        simp [legalWidth] at h2
        omega
    · next h2 =>
      split
      · next h3 =>
        simp only [List.any_eq_true, Bool.not_eq_eq_eq_not, Bool.not_true] at h3
        obtain ⟨r, hr, hv⟩ := h3
        simp only [reduceCtorEq, false_iff]
        intro H
        simp [H.2.2 r hr] at hv
      · next h3 =>
        simp only [List.any_eq_true, Bool.not_eq_eq_eq_not, Bool.not_true, not_exists, not_and, Bool.not_eq_false] at h3
        refine ⟨fun _ => ⟨h, ?_, h3⟩, fun _ => rfl⟩
        rintro b rfl
        simp [legalWidth] at h2
        omega

/-- All a command can do: fault, or have its whole effect (40_ring_arith.md R70). -/
theorem command_cases {used : List RegNum} {imm : Option Nat} {sources : List RegNum} {effect : State → State}
    {s t : State} (h : command used imm sources effect s = .next t) :
    (∃ c, commandFault s used imm sources = some c ∧ t = raiseFault c s) ∨
      (commandFault s used imm sources = none ∧ t = effect s) := by
  unfold command at h
  split at h <;> cases h
  · exact .inl ⟨_, by assumption, rfl⟩
  · exact .inr ⟨by assumption, rfl⟩

theorem command_of_none {used : List RegNum} {imm : Option Nat} {sources : List RegNum} {effect : State → State}
    {s : State} (h : commandFault s used imm sources = none) : command used imm sources effect s = .next (effect s) := by
  simp [command, h]

theorem command_of_some {used : List RegNum} {imm : Option Nat} {sources : List RegNum} {effect : State → State}
    {s : State} {c : FaultCode} (h : commandFault s used imm sources = some c) :
    command used imm sources effect s = .next (raiseFault c s) := by
  simp [command, h]

/-! ### What each command does once its checks pass -/

/-- The state change of a command that does not fault (40_ring_arith.md, 41_lwe_codec.md). -/
def effectOf : Instr → State → State
  | .zero rd => fun s => s.setReg rd (ringZero s.params.n)
  | .fold rd => fun s => (s.setReg rd (ringFold s.params.n s.fb)).clearFold
  | .fbclr => State.clearFold
  | .st rs1 => fun s => s.setOutput (s.reg rs1)
  | .add rd rs1 rs2 => fun s => s.setReg rd (ringAdd s.params.n (s.reg rs1) (s.reg rs2))
  | .sub rd rs1 rs2 => fun s => s.setReg rd (ringSub s.params.n (s.reg rs1) (s.reg rs2))
  | .mul rd rs1 rs2 => fun s => s.setReg rd (ringMul s.params.n (s.reg rs1) (s.reg rs2))
  | .cmpeq rs1 rs2 => fun s => s.setEq (ringEq s.params.n (s.reg rs1) (s.reg rs2))
  | .enc rd rs1 imm => fun s => s.setReg rd (lanes s.params.n fun i => encodeWord imm (coeff (s.reg rs1) i))
  | .dec rd rs1 imm => fun s => s.setReg rd (lanes s.params.n fun i => decodeWord imm (coeff (s.reg rs1) i))
  | .addn rd rs1 => fun s =>
    { s.setReg rd (ringAdd s.params.n (s.reg rs1) (drawMany Config.drawNoise s.params.n s.noise).1) with
      noise := (drawMany Config.drawNoise s.params.n s.noise).2 }
  | .rndu rd => fun s =>
    { s.setReg rd ((drawMany freeRandom s.params.n s.random).1.map RandomAnswer.word) with
      random := (drawMany freeRandom s.params.n s.random).2 }
  | .rndb rd => fun s =>
    { s.setReg rd (bitElt ((drawMany freeRandom s.params.n s.random).1.map RandomAnswer.bit)) with
      random := (drawMany freeRandom s.params.n s.random).2 }

/-- Every command is its checks and then its effect. -/
theorem exec_eq_command (i : Instr) (s : State) :
    exec i s = command (usedRegs i) (immediateOf i) (sourceRegs i) (effectOf i) s := by
  cases i <;> rfl

/-! ### Buffers and storage shapes -/

theorem memory_wf_iff {s : State} :
    Memory.wf s = true ↔ s.regs.length = s.params.nr ∧ (∀ v ∈ s.regs, v.length = s.params.n) ∧
      s.valid.length = s.params.nr ∧ s.fb.length = 2 * s.params.n ∧ s.ob.length = s.params.n := by
  simp [Memory.wf, and_assoc]

theorem memory_wf_setReg {s : State} {r : RegNum} {v : RingElt} (h : Memory.wf s = true) (hv : v.length = s.params.n) :
    Memory.wf (s.setReg r v) = true := by
  rw [memory_wf_iff] at h ⊢
  obtain ⟨h1, h2, h3, h4, h5⟩ := h
  refine ⟨by simpa using h1, fun w hw => ?_, by simpa using h3, h4, h5⟩
  rcases List.mem_or_eq_of_mem_set hw with hw | rfl
  · exact h2 w hw
  · exact hv

theorem memory_wf_pushFold {s : State} (w : Word) (h : Memory.wf s = true) : Memory.wf (s.pushFold w) = true := by
  rw [memory_wf_iff] at h ⊢; simpa using h

theorem memory_wf_clearFold {s : State} (h : Memory.wf s = true) : Memory.wf s.clearFold = true := by
  rw [memory_wf_iff] at h ⊢; simp [h]; exact h.2.1

theorem memory_wf_setOutput {s : State} (v : RingElt) (h : Memory.wf s = true) : Memory.wf (s.setOutput v) = true := by
  rw [memory_wf_iff] at h ⊢; simp [h]; exact h.2.1

theorem memory_wf_raiseFault {s : State} (c : FaultCode) (h : Memory.wf s = true) : Memory.wf (raiseFault c s) = true := by
  rw [memory_wf_iff] at h ⊢; simpa using h

@[simp] theorem length_freeWords (k start : Nat) : (freeWords k start).length = k := by simp [freeWords]

theorem memory_wf_resetUnit (s : State) : Memory.wf (resetUnit s) = true := by
  simp [memory_wf_iff]

theorem memory_wf_resetOf (p : Params) : Memory.wf (State.resetOf p) = true := by
  simp [memory_wf_iff, State.resetOf]

theorem memory_wf_reset : Memory.wf State.reset = true := memory_wf_resetOf _

/-- The same storage has the same shape. -/
theorem memory_wf_congr {s t : State} (hp : t.params = s.params) (hr : t.regs = s.regs) (hv : t.valid = s.valid)
    (hf : t.fb = s.fb) (ho : t.ob = s.ob) : Memory.wf t = Memory.wf s := by
  simp only [Memory.wf, hp, hr, hv, hf, ho]

/-- The length of a register that exists. -/
theorem length_reg {s : State} (h : Memory.wf s = true) {r : RegNum} (hr : r < s.params.nr) :
    (s.reg r).length = s.params.n := by
  rw [memory_wf_iff] at h
  have hlt : r < s.regs.length := h.1 ▸ hr
  simp only [State.reg, List.getD, List.getElem?_eq_getElem hlt, Option.getD_some]
  exact h.2.1 _ (List.getElem_mem hlt)

/-- Every command keeps the shape of the storage. -/
theorem memory_wf_effectOf (i : Instr) {s : State} (h : Memory.wf s = true) : Memory.wf (effectOf i s) = true := by
  cases i with
  | fold rd => exact memory_wf_clearFold (memory_wf_setReg h (by simp))
  | fbclr => exact memory_wf_clearFold h
  | st rs1 => exact memory_wf_setOutput _ h
  | cmpeq rs1 rs2 => exact h
  | addn rd rs1 => exact memory_wf_setReg (v := ringAdd _ _ _) h (by simp)
  | rndu rd => exact memory_wf_setReg (v := (drawMany freeRandom _ _).1.map RandomAnswer.word) h (by simp)
  | rndb rd => exact memory_wf_setReg (v := bitElt _) h (by simp)
  | _ => exact memory_wf_setReg h (by simp)

/-! ### Byte lanes -/

@[simp] theorem length_bytesOfWord (w : Word) : (bytesOfWord w).length = 4 := rfl

end Sys2Proof.Machine
end

