-- ==== Sys2Proof/Laws/PerInstr.lean ====
section
/-! SUPPORT. The family Encodes: a well-formed command's word meets the mask and match of its row of the opcode map
(30_encoding.md R53), one lemma per command. -/

namespace Sys2Proof

/-- Four bytes, the most significant first, as one word. -/
def fourBytes (x3 x2 x1 x0 : Byte) : BitVec (8 + 8 + 8 + 8) := x3 ++ x2 ++ x1 ++ x0

/-- Masking four bytes masks each of them. -/
theorem fourBytes_and (x3 x2 x1 x0 m3 m2 m1 m0 : Byte) :
    fourBytes x3 x2 x1 x0 &&& fourBytes m3 m2 m1 m0 = fourBytes (x3 &&& m3) (x2 &&& m2) (x1 &&& m1) (x0 &&& m0) := by
  simp only [fourBytes, BitVec.and_append]

theorem packFields_eq (op : Byte) (a b c : Nat) :
    packFields op a b c = fourBytes op (BitVec.ofNat 8 a) (BitVec.ofNat 8 b) (BitVec.ofNat 8 c) := rfl

/-- A packed word meets a mask and pattern when each of its fields does. -/
theorem matches_of_fields {m : String} {op : Byte} {a b c : Nat} {p3 p2 p1 p0 m3 m2 m1 m0 : Byte}
    (h3 : op &&& m3 = p3) (h2 : BitVec.ofNat 8 a &&& m2 = p2) (h1 : BitVec.ofNat 8 b &&& m1 = p1)
    (h0 : BitVec.ofNat 8 c &&& m0 = p0) :
    rowMatches ⟨m, fourBytes p3 p2 p1 p0, fourBytes m3 m2 m1 m0⟩ (packFields op a b c) = true := by
  subst h3 h2 h1 h0
  simp only [rowMatches, beq_iff_eq]
  exact fourBytes_and ..

end Sys2Proof

namespace Sys2Proof.Laws.Encodes

/-- The word of `i` spells the row of `i` (30_encoding.md R53). -/
def Statement (i : Instr) : Prop := i.wellFormed = true → rowMatches (rowOf i) (encode i) = true

theorem zero (rd : RegNum) : Statement (.zero rd) := fun _ =>
  matches_of_fields (p3 := 0x01) (p2 := 0x00) (p1 := 0x00) (p0 := 0x00)
    (m3 := 0xFF) (m2 := 0x00) (m1 := 0xFF) (m0 := 0xFF) rfl BitVec.and_zero rfl rfl

theorem fold (rd : RegNum) : Statement (.fold rd) := fun _ =>
  matches_of_fields (p3 := 0x02) (p2 := 0x00) (p1 := 0x00) (p0 := 0x00)
    (m3 := 0xFF) (m2 := 0x00) (m1 := 0xFF) (m0 := 0xFF) rfl BitVec.and_zero rfl rfl

theorem fbclr : Statement .fbclr := fun _ => by decide

theorem st (rs1 : RegNum) : Statement (.st rs1) := fun _ =>
  matches_of_fields (p3 := 0x04) (p2 := 0x00) (p1 := 0x00) (p0 := 0x00)
    (m3 := 0xFF) (m2 := 0xFF) (m1 := 0x00) (m0 := 0xFF) rfl rfl BitVec.and_zero rfl

theorem add (rd rs1 rs2 : RegNum) : Statement (.add rd rs1 rs2) := fun _ =>
  matches_of_fields (p3 := 0x10) (p2 := 0x00) (p1 := 0x00) (p0 := 0x00)
    (m3 := 0xFF) (m2 := 0x00) (m1 := 0x00) (m0 := 0x00) rfl BitVec.and_zero BitVec.and_zero BitVec.and_zero

theorem sub (rd rs1 rs2 : RegNum) : Statement (.sub rd rs1 rs2) := fun _ =>
  matches_of_fields (p3 := 0x11) (p2 := 0x00) (p1 := 0x00) (p0 := 0x00)
    (m3 := 0xFF) (m2 := 0x00) (m1 := 0x00) (m0 := 0x00) rfl BitVec.and_zero BitVec.and_zero BitVec.and_zero

theorem mul (rd rs1 rs2 : RegNum) : Statement (.mul rd rs1 rs2) := fun _ =>
  matches_of_fields (p3 := 0x12) (p2 := 0x00) (p1 := 0x00) (p0 := 0x00)
    (m3 := 0xFF) (m2 := 0x00) (m1 := 0x00) (m0 := 0x00) rfl BitVec.and_zero BitVec.and_zero BitVec.and_zero

theorem cmpeq (rs1 rs2 : RegNum) : Statement (.cmpeq rs1 rs2) := fun _ =>
  matches_of_fields (p3 := 0x13) (p2 := 0x00) (p1 := 0x00) (p0 := 0x00)
    (m3 := 0xFF) (m2 := 0xFF) (m1 := 0x00) (m0 := 0x00) rfl rfl BitVec.and_zero BitVec.and_zero

theorem enc (rd rs1 : RegNum) (imm : Nat) : Statement (.enc rd rs1 imm) := fun _ =>
  matches_of_fields (p3 := 0x20) (p2 := 0x00) (p1 := 0x00) (p0 := 0x00)
    (m3 := 0xFF) (m2 := 0x00) (m1 := 0x00) (m0 := 0x00) rfl BitVec.and_zero BitVec.and_zero BitVec.and_zero

theorem dec (rd rs1 : RegNum) (imm : Nat) : Statement (.dec rd rs1 imm) := fun _ =>
  matches_of_fields (p3 := 0x21) (p2 := 0x00) (p1 := 0x00) (p0 := 0x00)
    (m3 := 0xFF) (m2 := 0x00) (m1 := 0x00) (m0 := 0x00) rfl BitVec.and_zero BitVec.and_zero BitVec.and_zero

theorem addn (rd rs1 : RegNum) : Statement (.addn rd rs1) := fun _ =>
  matches_of_fields (p3 := 0x22) (p2 := 0x00) (p1 := 0x00) (p0 := 0x00)
    (m3 := 0xFF) (m2 := 0x00) (m1 := 0x00) (m0 := 0xFF) rfl BitVec.and_zero BitVec.and_zero rfl

theorem rndu (rd : RegNum) : Statement (.rndu rd) := fun _ =>
  matches_of_fields (p3 := 0x30) (p2 := 0x00) (p1 := 0x00) (p0 := 0x00)
    (m3 := 0xFF) (m2 := 0x00) (m1 := 0xFF) (m0 := 0xFF) rfl BitVec.and_zero rfl rfl

theorem rndb (rd : RegNum) : Statement (.rndb rd) := fun _ =>
  matches_of_fields (p3 := 0x31) (p2 := 0x00) (p1 := 0x00) (p0 := 0x00)
    (m3 := 0xFF) (m2 := 0x00) (m1 := 0xFF) (m0 := 0xFF) rfl BitVec.and_zero rfl rfl

end Sys2Proof.Laws.Encodes
end

