-- ==== Sys2Proof/Laws/Step.lean ====
section
/-! SUPPORT. What a command, a transaction and a step can do, said once: each inversion lemma gives every possible
next state with the guards that lead to it. Invariants are proved by cases on these. -/

namespace Sys2Proof.Machine

/-! ### Sums, updates and draws -/

theorem sum32_eq_sum (k : Nat) (f : Nat → Word) : sum32 k f = ∑ j ∈ Finset.range k, f j := by
  induction k with
  | zero => rfl
  | succ k ih => rw [sum32, Finset.sum_range_succ, ih]

theorem mulNeg_eq_sum (n : Nat) (a b : RingElt) (i : Nat) :
    mulNeg n a b i = ∑ j ∈ Finset.Ico (i + 1) n, coeff a j * coeff b (n - (j - i)) := by
  rw [mulNeg, sum32_eq_sum, Finset.sum_Ico_eq_sum_range, show n - 1 - i = n - (i + 1) by omega]

theorem coeff_set {l : List Word} {k : Nat} (j : Nat) (w : Word) (hk : k < l.length) :
    coeff (l.set k w) j = if j = k then w else coeff l j := by
  split
  · next h => subst h; simp [coeff, List.getD, hk]
  · next h => simp [coeff, List.getD, List.getElem?_set_ne (Ne.symm h)]

theorem drawnOf_drawnOf {α : Type} (p : Source α) (j k : Nat) : drawnOf (drawnOf p j) k = drawnOf p (j + k) := by
  simp [drawnOf, Nat.add_assoc]

theorem answerAt_drawnOf {α : Type} (free : Nat → α) (p : Source α) (j i : Nat) :
    answerAt free (drawnOf p j) i = answerAt free p (j + i) := by
  simp [answerAt, drawnOf, List.getD, Nat.add_assoc]

/-- After `k` draws from the randomness source, its answer `i` is the one that was `k + i` (R177). -/
theorem wordDraw_of_drawn {s t : State} {k : Nat} (h : t.random = drawnOf s.random k) (i : Nat) :
    wordDraw t i = wordDraw s (k + i) := by rw [wordDraw, h, answerAt_drawnOf, wordDraw]

theorem bitDraw_of_drawn {s t : State} {k : Nat} (h : t.random = drawnOf s.random k) (i : Nat) :
    bitDraw t i = bitDraw s (k + i) := by rw [bitDraw, h, answerAt_drawnOf, bitDraw]

theorem noiseDraw_of_drawn {s t : State} {k : Nat} (h : t.noise = drawnOf s.noise k) (i : Nat) :
    noiseDraw t i = noiseDraw s (k + i) := by rw [noiseDraw, h, answerAt_drawnOf, noiseDraw]

/-! ### Commands -/

theorem exec_of_executable {i : Instr} {s : State} (h : Executable i s) : exec i s = .next (effectOf i s) := by
  rw [exec_eq_command, command_of_none (commandFault_eq_none.2 h)]

/-- All a command can do: record a fault, because a check failed, or have its effect. -/
theorem exec_inversion {i : Instr} {s t : State} (h : exec i s = .next t) :
    (∃ c, ¬Executable i s ∧ t = raiseFault c s) ∨ (Executable i s ∧ t = effectOf i s) := by
  rw [exec_eq_command] at h
  rcases command_cases h with ⟨c, h1, h2⟩ | ⟨h1, h2⟩
  · exact .inl ⟨c, fun he => (by rw [commandFault_eq_none.2 he] at h1; cases h1), h2⟩
  · exact .inr ⟨commandFault_eq_none.1 h1, h2⟩

theorem effectOf_keepsHost (i : Instr) (s : State) : KeepsHost s (effectOf i s) := by
  cases i <;> exact ⟨rfl, rfl, rfl, rfl⟩

theorem effectOf_keepsFault (i : Instr) (s : State) : KeepsFault s (effectOf i s) := by cases i <;> exact ⟨rfl, rfl⟩

theorem effectOf_params (i : Instr) (s : State) : (effectOf i s).params = s.params := (effectOf_keepsHost i s).1

theorem raiseFault_keepsRegs (c : FaultCode) (s : State) : KeepsRegs s (raiseFault c s) :=
  fun r => ⟨reg_congr (by simp) r, isValid_congr (by simp) r⟩

theorem raiseFault_keepsSources (c : FaultCode) (s : State) : KeepsSources s (raiseFault c s) := by simp [KeepsSources]

/-! ### Transactions -/

/-- The transaction may be a write to CMD. -/
def MayWriteCmd (tr : Transaction) : Prop := (∃ w, tr = .portWrite .cmd w) ∨ ∃ a l, tr = .busWrite a l

/-- The transaction may be a write to DIN. -/
def MayWriteDin (tr : Transaction) : Prop := (∃ w, tr = .portWrite .din w) ∨ ∃ a l, tr = .busWrite a l

/-- What one transaction that completes can do to the state. -/
inductive Performed (tr : Transaction) (s : State) : State → Prop
  /-- A write that is ignored. -/
  | ignored (notReset : tr ≠ .reset) : Performed tr s s
  /-- A command that faults. -/
  | commandFaults (c : FaultCode) (may : MayWriteCmd tr) (good : s.flt = false) : Performed tr s (raiseFault c s)
  /-- A command that executes. -/
  | commandRuns (i : Instr) (may : MayWriteCmd tr) (good : s.flt = false) (ok : Executable i s) :
    Performed tr s (effectOf i s)
  /-- A word for the fold buffer. -/
  | dataWritten (w : Word) (may : MayWriteDin tr) (good : s.flt = false) : Performed tr s (s.pushFold w)
  /-- A read that does not fault. -/
  | wasRead (v : Word) (k r : Nat) (notReset : tr ≠ .reset) (still : s.flt = true → r = s.rp)
    (moved : r = s.rp ∨ r = (s.rp + 1) % s.params.n) :
    Performed tr s { s with observed := s.observed ++ [v], freeIx := s.freeIx + k, rp := r }
  /-- A read of the output buffer that faults. -/
  | readFaults (v : Word) (notReset : tr ≠ .reset) (good : s.flt = false) (empty : s.ovalid = false) :
    Performed tr s { s with observed := s.observed ++ [v], freeIx := s.freeIx + 1, flt := true, code := 0x05 }
  /-- Reset. -/
  | wasReset (isReset : tr = .reset) : Performed tr s (resetUnit s)

theorem MayWriteCmd.ne_reset {tr : Transaction} (h : MayWriteCmd tr) : tr ≠ .reset := by
  rcases h with ⟨w, rfl⟩ | ⟨a, l, rfl⟩ <;> simp

theorem MayWriteDin.ne_reset {tr : Transaction} (h : MayWriteDin tr) : tr ≠ .reset := by
  rcases h with ⟨w, rfl⟩ | ⟨a, l, rfl⟩ <;> simp

theorem performed_writeCmd {w : Word} {s t : State} {tr : Transaction} (may : MayWriteCmd tr)
    (h : writeCmd w s = .next t) : Performed tr s t := by
  unfold writeCmd at h
  split at h
  · cases h; exact .ignored may.ne_reset
  · next hf =>
    have good : s.flt = false := by simpa using hf
    split at h
    · rcases exec_inversion h with ⟨c, -, rfl⟩ | ⟨ok, rfl⟩
      · exact .commandFaults c may good
      · exact .commandRuns _ may good ok
    · cases h; exact .commandFaults _ may good

theorem performed_writeDin {w : Word} {s : State} {tr : Transaction} (may : MayWriteDin tr) :
    Performed tr s (writeDin w s) := by
  unfold writeDin
  split
  · exact .ignored may.ne_reset
  · next hf => exact .dataWritten w may (by simpa using hf)

theorem performed_readPort {p : ReadPort} {s : State} {tr : Transaction} (h : tr ≠ .reset) :
    Performed tr s (readPort p s) := by
  cases p with
  | dout =>
    simp only [readPort, readDout]
    split
    · exact .wasRead _ 1 _ h (fun _ => rfl) (.inl rfl)
    · next hf =>
      split
      · exact .wasRead _ 0 _ h (fun hf' => absurd hf' hf) (.inr rfl)
      · next hv =>
        rw [raiseFault_of_good _ (by simpa using hf)]
        exact .readFaults _ h (by simpa using hf) (by simpa using hv)
  | _ => exact .wasRead _ 0 _ h (fun _ => rfl) (.inl rfl)

theorem strayAccess_ne_next {p : Params} {a k : Nat} {t : State} : strayAccess p a k ≠ .next t := by
  unfold strayAccess; split <;> simp

/-- All a transaction can do when it completes. -/
theorem perform_inversion {tr : Transaction} {s t : State} (h : perform tr s = .next t) : Performed tr s t := by
  cases tr with
  | portWrite p w =>
    cases p with
    | cmd => exact performed_writeCmd (.inl ⟨w, rfl⟩) h
    | din => simp only [perform, writePort] at h; cases h; exact performed_writeDin (.inl ⟨w, rfl⟩)
  | portRead p => simp only [perform] at h; cases h; exact performed_readPort (by simp)
  | reset => simp only [perform] at h; cases h; exact .wasReset rfl
  | busRead a k =>
    simp only [perform, busRead] at h
    split at h
    · cases h
      unfold busReadAt
      repeat' split
      all_goals first
        | exact performed_readPort (by simp)
        | exact .wasRead _ 0 _ (by simp) (fun _ => rfl) (.inl rfl)
    · exact absurd h strayAccess_ne_next
  | busWrite a l =>
    simp only [perform, busWrite] at h
    split at h
    · unfold busWriteAt at h
      split at h
      · exact performed_writeCmd (.inr ⟨a, l, rfl⟩) h
      split at h
      · simp only [writePort] at h; cases h; exact performed_writeDin (.inr ⟨a, l, rfl⟩)
      · cases h; exact .ignored (by simp)
    · exact absurd h strayAccess_ne_next

/-! ### Steps -/

/-- All a step can do: nothing, with no transaction pending; else the host's next transaction. -/
theorem step_inversion {s t : State} (h : step s = .next t) :
    (s.pending = [] ∧ t = s) ∨
      ∃ tr rest, s.pending = tr :: rest ∧ Performed tr { s with pending := rest } t := by
  unfold step nextTransaction at h
  cases hp : s.pending with
  | nil => simp [hp] at h; exact .inl ⟨rfl, h.symm⟩
  | cons tr rest => simp only [hp] at h; exact .inr ⟨tr, rest, rfl, perform_inversion h⟩

end Sys2Proof.Machine
end

