-- ==== Sys2Proof/Laws/Runs.lean ====
section
/-! SUPPORT. Runs of listing lines (70_reset_and_hazards.md R181): one lemma per kind of line, and for two lists one
after the other. -/

namespace Sys2Proof.Machine

/-- `s` with another list of transactions to come. -/
def State.withPending (s : State) (p : List Transaction) : State := { s with pending := p }

theorem raiseFault_withPending (c : FaultCode) (s : State) (p : List Transaction) :
    raiseFault c (s.withPending p) = (raiseFault c s).withPending p := by
  unfold raiseFault
  rw [show (s.withPending p).flt = s.flt from rfl]
  split <;> rfl

theorem effectOf_withPending (i : Instr) (s : State) (p : List Transaction) :
    effectOf i (s.withPending p) = (effectOf i s).withPending p := by
  cases i <;> rfl

theorem exec_withPending {i : Instr} {s t : State} (p : List Transaction) (h : exec i s = .next t) :
    exec i (s.withPending p) = .next (t.withPending p) := by
  rw [exec_eq_command] at h ⊢
  have hc : commandFault (s.withPending p) (usedRegs i) (immediateOf i) (sourceRegs i) =
      commandFault s (usedRegs i) (immediateOf i) (sourceRegs i) := rfl
  unfold command at h ⊢
  rw [hc]
  split at h <;> cases h
  · rw [raiseFault_withPending]
  · rw [effectOf_withPending]

/-- A line does the same whatever is planned after it. -/
theorem perform_line_withPending {c : Line} {s t : State} (p : List Transaction)
    (h : perform (lineTransaction c) s = .next t) :
    perform (lineTransaction c) (s.withPending p) = .next (t.withPending p) := by
  cases c with
  | command i =>
    simp only [lineTransaction, perform, writePort, writeCmd] at h ⊢
    rw [show (s.withPending p).flt = s.flt from rfl]
    split at h
    · next hf => cases h; rw [if_pos hf]
    · next hf =>
      rw [if_neg hf]
      split at h
      · exact exec_withPending p h
      · cases h; rw [raiseFault_withPending]
  | din w =>
    simp only [lineTransaction, perform, writePort, writeDin, Host.Outcome.next.injEq] at h ⊢
    subst h
    rw [show (s.withPending p).flt = s.flt from rfl]
    split <;> rfl
  | dout =>
    simp only [lineTransaction, perform, readPort, readDout, Host.Outcome.next.injEq] at h ⊢
    subst h
    rw [show (s.withPending p).flt = s.flt from rfl, show (s.withPending p).ovalid = s.ovalid from rfl]
    split
    · rfl
    · split
      · rfl
      · rw [raiseFault_withPending]; rfl
  | status => cases h; rfl
  | reset => cases h; rfl

@[simp] theorem runLines_nil (s : State) : runLines [] s = .next s := rfl

/-- One more step of a run, when the step goes on. -/
theorem run_of_next (M : Host.Core) {k : Nat} {s t : M.State} (h : M.step s = .next t) :
    M.run (k + 1) s = M.run k t := by
  simp only [Host.Core.run, h]

/-- A run goes on where its first line, which does not touch the host's list, leaves the machine. -/
theorem runLines_cons {c : Line} {l : List Line} {s t : State} (h : perform (lineTransaction c) s = .next t)
    (hp : t.pending = s.pending) : runLines (c :: l) s = runLines l t := by
  have h' := perform_line_withPending (l.map lineTransaction ++ s.pending) h
  refine run_of_next Sys2Proof.core (t := t.plan l) ?_
  show step (s.plan (c :: l)) = _
  simp only [step, nextTransaction, State.plan, List.map_cons, List.cons_append, hp]
  exact h'

theorem performed_pending {tr : Transaction} {s t : State} (h : Performed tr s t) : t.pending = s.pending := by
  cases h with
  | commandFaults c => simp
  | commandRuns i => exact (effectOf_keepsHost i s).2.1
  | _ => rfl

theorem exec_completes (i : Instr) (s : State) : ∃ t, exec i s = .next t := by
  rw [exec_eq_command]; unfold command; split <;> exact ⟨_, rfl⟩

/-- A line always completes, and leaves the host's list alone. -/
theorem perform_line_completes (c : Line) (s : State) :
    ∃ t, perform (lineTransaction c) s = .next t ∧ t.pending = s.pending := by
  have key : ∃ t, perform (lineTransaction c) s = .next t := by
    cases c with
    | command i =>
      simp only [lineTransaction, perform, writePort, writeCmd]
      split
      · exact ⟨_, rfl⟩
      · split
        · exact exec_completes _ _
        · exact ⟨_, rfl⟩
    | _ => exact ⟨_, rfl⟩
  obtain ⟨t, h⟩ := key
  exact ⟨t, h, performed_pending (perform_inversion h)⟩

/-- Two lists of lines, one after the other. -/
theorem runLines_append {l l' : List Line} {s t : State} (h : runLines l s = .next t) :
    runLines (l ++ l') s = runLines l' t := by
  induction l generalizing s with
  | nil => cases h; rfl
  | cons c l ih =>
    obtain ⟨u, hu, hp⟩ := perform_line_completes c s
    rw [runLines_cons hu hp] at h
    rw [List.cons_append, runLines_cons hu hp, ih h]

/-! ### One lemma per kind of line -/

/-- A command line whose checks pass has its effect. -/
theorem runLines_command {i : Instr} {l : List Line} {s : State} (good : s.flt = false) (hd : decode (encode i) = .ok i)
    (ok : Executable i s) : runLines (.command i :: l) s = runLines l (effectOf i s) := by
  refine runLines_cons ?_ (effectOf_keepsHost i s).2.1
  simp [lineTransaction, perform, writePort, writeCmd, good, hd, exec_of_executable ok]

theorem runLines_din {w : Word} {l : List Line} {s : State} (good : s.flt = false) :
    runLines (.din w :: l) s = runLines l (s.pushFold w) := by
  refine runLines_cons ?_ rfl
  simp [lineTransaction, perform, writePort, writeDin, good]

theorem runLines_dout {l : List Line} {s : State} (good : s.flt = false) (full : s.ovalid = true) :
    runLines (.dout :: l) s = runLines l (s.observe (coeff s.ob s.rp)).advanceOut := by
  refine runLines_cons ?_ rfl
  simp [lineTransaction, perform, readPort, readDout, good, full]

theorem runLines_status {l : List Line} {s : State} :
    runLines (.status :: l) s = runLines l (s.observe (statusWord s)) := runLines_cons rfl rfl

/-! ### Chained additions (42_lwe_protocol.md R134) -/

@[simp] theorem noiseTotal_zero (s : State) (j : Nat) : noiseTotal s 0 j = 0 := rfl

@[simp] theorem noiseTotal_succ (s : State) (calls j : Nat) :
    noiseTotal s (calls + 1) j = noiseTotal s calls j + (noiseDraw s (calls * s.params.n + j)).toInt := rfl

/-- One more addition goes on where the chain before it ends. -/
theorem runLines_chainedAdd_succ {k adds b : Nat} {acc fresh kb pt t : RegNum} {s u : State}
    (h : runLines (chainedAddLines k acc fresh kb pt t b adds) s = .next u) :
    runLines (chainedAddLines k acc fresh kb pt t b (adds + 1)) s =
      runLines (encryptLines k fresh kb pt t b ++ ctadd k acc acc fresh) u := by
  rw [chainedAddLines, List.append_assoc, runLines_append h]

end Sys2Proof.Machine
end

