-- ==== Sys2Proof/Tests/Slice0.lean ====
section
/-! SUPPORT. Tests of single steps, with expected results from 95_test_vectors.md (the vector is named in each
docstring), and a witness for the hypotheses of every statement that has some. -/

namespace Sys2Proof.Tests

open Sys2Proof Sys2Proof.Machine

/-! ### Small states -/

/-- After reset with N = 4 and NR = 8, the given registers written. -/
def small (l : List (RegNum × RingElt)) : State := l.foldl (fun s p => s.setReg p.1 p.2) (State.resetOf ⟨4, 8, 0⟩)

/-- One step in which the host writes `w` to CMD. -/
def cmdStep (w : Word) (s : State) : Result := step { s with pending := [.portWrite .cmd w] }

/-- What a property says of the next state; false if there is none. -/
def holdsAfter (r : Result) (p : State → Bool) : Bool :=
  match r with
  | .next t => p t
  | .fault _ => false
  | .refused _ => false

/-- Register `r` holds `v` and is valid. -/
def holdsReg (r : RegNum) (v : RingElt) (s : State) : Bool := decide (s.reg r = v) && s.isValid r

/-- The STATUS word after one CMD write. -/
def statusAfter (w : Word) (s : State) (v : Word) : Bool := holdsAfter (cmdStep w s) fun t => decide (statusWord t = v)

/-! ### Well-formedness: each check refuses -/

theorem test_wellFormed_refuses_one_operand :
    (Instr.zero 256).wellFormed = false ∧ (Instr.fold 256).wellFormed = false ∧ (Instr.st 256).wellFormed = false ∧
      (Instr.rndu 256).wellFormed = false ∧ (Instr.rndb 256).wellFormed = false := by decide

theorem test_wellFormed_refuses_two_operands :
    (Instr.cmpeq 256 0).wellFormed = false ∧ (Instr.cmpeq 0 256).wellFormed = false ∧
      (Instr.addn 256 0).wellFormed = false ∧ (Instr.addn 0 256).wellFormed = false := by decide

theorem test_wellFormed_refuses_dss :
    (Instr.add 256 0 0).wellFormed = false ∧ (Instr.add 0 256 0).wellFormed = false ∧
      (Instr.add 0 0 256).wellFormed = false ∧ (Instr.sub 256 0 0).wellFormed = false ∧
      (Instr.sub 0 256 0).wellFormed = false ∧ (Instr.sub 0 0 256).wellFormed = false ∧
      (Instr.mul 256 0 0).wellFormed = false ∧ (Instr.mul 0 256 0).wellFormed = false ∧
      (Instr.mul 0 0 256).wellFormed = false := by decide

theorem test_wellFormed_refuses_dsi :
    (Instr.enc 256 0 1).wellFormed = false ∧ (Instr.enc 0 256 1).wellFormed = false ∧
      (Instr.enc 0 0 256).wellFormed = false ∧ (Instr.dec 256 0 1).wellFormed = false ∧
      (Instr.dec 0 256 1).wellFormed = false ∧ (Instr.dec 0 0 256).wellFormed = false := by decide

theorem test_wellFormed_accepts :
    (Instr.mul 255 254 253).wellFormed = true ∧ (Instr.enc 255 0 255).wellFormed = true ∧
      Instr.fbclr.wellFormed = true := by decide

/-! ### Decoding: words written out bit by bit from R50, R51, R53 (section 2.1), op a b c -/

/-- V-ENC0-1. -/
theorem test_decode_zero : decode 0b00000001000001010000000000000000 = .ok (.zero 5) := by decide
/-- V-ENC0-2. -/
theorem test_decode_fold : decode 0b00000010000000000000000000000000 = .ok (.fold 0) := by decide
/-- V-ENC0-3. -/
theorem test_decode_fbclr : decode 0b00000011000000000000000000000000 = .ok .fbclr := by decide
/-- V-ENC0-4. -/
theorem test_decode_st : decode 0b00000100000000000000001000000000 = .ok (.st 2) := by decide
/-- V-ENC0-5. -/
theorem test_decode_add : decode 0b00010000000000100000001000000100 = .ok (.add 2 2 4) := by decide
/-- V-ENC0-6. -/
theorem test_decode_sub : decode 0b00010001000001010000001000000100 = .ok (.sub 5 2 4) := by decide
/-- V-ENC0-14. -/
theorem test_decode_mul : decode 0b00010010111111111111111011111101 = .ok (.mul 255 254 253) := by decide
/-- V-ENC0-8. -/
theorem test_decode_cmpeq : decode 0b00010011000000000000001000000011 = .ok (.cmpeq 2 3) := by decide
/-- V-ENC0-9. -/
theorem test_decode_enc : decode 0b00100000000001000000001100000100 = .ok (.enc 4 3 4) := by decide
/-- V-ENC0-15. -/
theorem test_decode_dec : decode 0b00100001000001110000011100011111 = .ok (.dec 7 7 31) := by decide
/-- V-ENC0-11. -/
theorem test_decode_addn : decode 0b00100010000001000000010000000000 = .ok (.addn 4 4) := by decide
/-- V-ENC0-12. -/
theorem test_decode_rndu : decode 0b00110000000000010000000000000000 = .ok (.rndu 1) := by decide
/-- V-ENC0-13. -/
theorem test_decode_rndb : decode 0b00110001000000000000000000000000 = .ok (.rndb 0) := by decide
/-- V-FLT-2 to V-FLT-8: the rejected words, each by its reason. -/
theorem test_decode_rejects :
    decode 0x00000000 = .error (.unknownOp 0x00) ∧ decode 0xFFFFFFFF = .error (.unknownOp 0xFF) ∧
      decode 0x01050001 = .error (.fieldNotZero 0x01) ∧ decode 0x03000100 = .error (.fieldNotZero 0x03) ∧
      decode 0x13010001 = .error (.fieldNotZero 0x13) ∧ decode 0x22000001 = .error (.fieldNotZero 0x22) ∧
      decode 0x05000000 = .error (.unknownOp 0x05) ∧ decode 0x14000000 = .error (.unknownOp 0x14) ∧
      decode 0x23000000 = .error (.unknownOp 0x23) ∧ decode 0x32000000 = .error (.unknownOp 0x32) := by decide

/-! ### One step per command -/

/-- V-ZERO-1. -/
theorem test_zero : holdsAfter (cmdStep 0x01050000 (small [])) (holdsReg 5 [0, 0, 0, 0]) = true := by decide
/-- V-ZERO-2: the old value is lost. -/
theorem test_zero_overwrites :
    holdsAfter (cmdStep 0x01010000 (small [(1, [9, 9, 9, 9])])) (holdsReg 1 [0, 0, 0, 0]) = true := by decide
/-- V-FOLD-5: six words, and the buffer is clear afterwards. -/
theorem test_fold : holdsAfter (cmdStep 0x02000000 { small [] with fb := [1, 2, 3, 4, 5, 6, 0, 0], wp := 6 }) (fun t =>
    holdsReg 0 [0xFFFFFFFC, 0xFFFFFFFC, 3, 4] t && decide (t.fb = [0, 0, 0, 0, 0, 0, 0, 0]) && decide (t.wp = 0)) =
    true := by decide
/-- V-FOLD-14: stale words of the buffer take part. -/
theorem test_fold_stale : holdsAfter (cmdStep 0x02000000 { small [] with fb := [7, 8, 1, 2, 3, 0, 0, 0], wp := 5 })
    (holdsReg 0 [4, 8, 1, 2]) = true := by decide
/-- V-FOLD-12. -/
theorem test_fbclr : holdsAfter (cmdStep 0x03000000 { small [] with fb := [7, 8, 0, 0, 0, 0, 0, 0], wp := 2 }) (fun t =>
    decide (t.fb = [0, 0, 0, 0, 0, 0, 0, 0]) && decide (t.wp = 0)) = true := by decide
/-- V-ST-1. -/
theorem test_st : holdsAfter (cmdStep 0x04000200 (small [(2, [4, 13, 28, 27])])) (fun t =>
    decide (t.ob = [4, 13, 28, 27]) && decide (t.rp = 0) && decide (statusWord t = 0x00000004)) = true := by decide
/-- V-ST-4: a second ST replaces the snapshot and resets the pointer. -/
theorem test_st_replaces :
    holdsAfter (cmdStep 0x04000300 { small [(3, [0, 0, 0, 0])] with ob := [4, 13, 28, 27], ovalid := true, rp := 1 })
      (fun t => decide (t.ob = [0, 0, 0, 0]) && decide (t.rp = 0)) = true := by decide
/-- V-ADD-2. -/
theorem test_add : holdsAfter (cmdStep 0x10020001
    (small [(0, [0x80000000, 0x7FFFFFFF, 5, 0xFFFFFFFF]), (1, [0x80000000, 1, 0xFFFFFFFF, 0xFFFFFFFF])]))
    (holdsReg 2 [0, 0x80000000, 4, 0xFFFFFFFE]) = true := by decide
/-- V-ADD-4: the three operands are one register. -/
theorem test_add_alias : holdsAfter (cmdStep 0x10010101 (small [(1, [1, 0x80000000, 0xFFFFFFFF, 0])]))
    (holdsReg 1 [2, 0, 0xFFFFFFFE, 0]) = true := by decide
/-- V-SUB-1: the first source is the minuend. -/
theorem test_sub : holdsAfter (cmdStep 0x11020001
    (small [(0, [0, 5, 0, 0xFFFFFFFF]), (1, [1, 5, 0xFFFFFFFF, 0xFFFFFFFF])])) (holdsReg 2 [0xFFFFFFFF, 0, 1, 0]) =
    true := by decide
/-- V-SUB-3. -/
theorem test_sub_self : holdsAfter (cmdStep 0x11010101 (small [(1, [1, 2, 3, 4])])) (holdsReg 1 [0, 0, 0, 0]) = true := by
  decide
/-- V-MUL-9: the source is the destination. -/
theorem test_mul_alias : holdsAfter (cmdStep 0x12010101 (small [(1, [1, 2, 3, 4])]))
    (holdsReg 1 [0xFFFFFFE8, 0xFFFFFFEC, 0xFFFFFFFA, 20]) = true := by decide
/-- V-MUL-11: products wrap. -/
theorem test_mul_wraps : holdsAfter (cmdStep 0x12020001 (small [(0, [0x80000000, 1, 0, 0]), (1, [2, 0, 0, 3])]))
    (holdsReg 2 [0xFFFFFFFD, 2, 0, 0x80000000]) = true := by decide
/-- V-CMP-2. -/
theorem test_cmpeq_equal : statusAfter 0x13000001 (small [(0, [0, 0, 0, 0]), (1, [0, 0, 0, 0])]) 0x00000001 = true := by
  decide
/-- V-CMP-4: EQ holds only the latest comparison; the last coefficients differ. -/
theorem test_cmpeq_differs :
    statusAfter 0x13000001 { small [(0, [8, 8, 8, 7]), (1, [8, 8, 8, 6])] with eq := true } 0x00000000 = true := by decide
/-- V-ENCD-2: payloads that do not fit lose their high bits. -/
theorem test_enc : holdsAfter (cmdStep 0x20040304 (small [(3, [17, 16, 31, 0xFFFFFFFF])]))
    (holdsReg 4 [0x10000000, 0, 0xF0000000, 0xF0000000]) = true := by decide
/-- V-ENCD-5: b = 31. -/
theorem test_enc_31 : holdsAfter (cmdStep 0x2004031F (small [(3, [1, 0x7FFFFFFF, 0x80000000, 0xFFFFFFFF])]))
    (holdsReg 4 [2, 0xFFFFFFFE, 0, 0xFFFFFFFE]) = true := by decide
/-- V-DEC-1 to V-DEC-4: the edges of the window, and the wrapping sum. -/
theorem test_dec : holdsAfter (cmdStep 0x21050504 (small [(5, [0x17FFFFFF, 0x08000000, 0x07FFFFFF, 0xF8000000])]))
    (holdsReg 5 [1, 1, 0, 0]) = true := by decide
/-- V-DEC-13: b = 31. -/
theorem test_dec_31 : holdsAfter (cmdStep 0x2105051F (small [(5, [3, 0xFFFFFFFE, 0xFFFFFFFD, 4])]))
    (holdsReg 5 [2, 0x7FFFFFFF, 0x7FFFFFFF, 2]) = true := by decide
/-- V-NOISE-1. -/
theorem test_addn : holdsAfter (cmdStep 0x22040400
    { small [(4, [0x10000000, 0x20000000, 0xF0000000, 0])] with noise := ⟨[3, 0xFFFFFFFE, 0, 0xFFFFFFFF], 0⟩ }) (fun t =>
    holdsReg 4 [0x10000003, 0x1FFFFFFE, 0xF0000000, 0xFFFFFFFF] t && decide (t.noise = ⟨[], 4⟩)) = true := by decide
/-- V-NOISE-3: a fault makes no draw. -/
theorem test_addn_faults : holdsAfter (cmdStep 0x22020100 { small [] with noise := ⟨[7], 2⟩ }) (fun t =>
    decide (statusWord t = 0x00000302) && decide (t.noise = ⟨[7], 2⟩)) = true := by decide
/-- V-RND-1, of a source whose answers would be other values if bits were asked for. -/
theorem test_rndu :
    holdsAfter (cmdStep 0x30010000 { small [] with random := ⟨[⟨5, 0⟩, ⟨0x80000000, 1⟩, ⟨0xFFFFFFFF, 0⟩, ⟨0, 1⟩], 0⟩ })
      (holdsReg 1 [5, 0x80000000, 0xFFFFFFFF, 0]) = true := by decide
/-- V-RND-2, with the first answer of V-RND-3's second command left over. -/
theorem test_rndb :
    holdsAfter (cmdStep 0x31000000 { small [] with random := ⟨[⟨7, 1⟩, ⟨7, 0⟩, ⟨7, 1⟩, ⟨7, 1⟩, ⟨7, 0⟩], 0⟩ }) (fun t =>
      holdsReg 0 [1, 0, 1, 1] t && decide (t.random = ⟨[⟨7, 0⟩], 4⟩)) = true := by decide
/-- R177: RNDU after RNDB takes the answers that RNDB left in the one source. -/
theorem test_draws_in_issue_order : ∃ t,
    exec (.rndb 0) { small [] with
      random := ⟨[⟨1, 1⟩, ⟨2, 0⟩, ⟨3, 1⟩, ⟨4, 1⟩, ⟨5, 0⟩, ⟨6, 0⟩, ⟨7, 0⟩, ⟨8, 0⟩], 0⟩ } = .next t ∧
      holdsReg 0 [1, 0, 1, 1] t = true ∧ holdsAfter (exec (.rndu 1) t) (holdsReg 1 [5, 6, 7, 8]) = true :=
  ⟨_, rfl, by decide, by decide⟩

/-! ### Faults and transactions -/

/-- V-FLT-2, V-FLT-4. -/
theorem test_illegal : statusAfter 0x00000000 (small []) 0x00000102 = true ∧
    statusAfter 0x01050001 (small []) 0x00000102 = true := by decide
/-- V-FLT-9, V-FLT-10 with NR = 8. -/
theorem test_reg_before_param : statusAfter 0x01080000 (small []) 0x00000202 = true ∧
    statusAfter 0x20C80100 (small []) 0x00000202 = true := by decide
/-- V-FLT-12 to V-FLT-17. -/
theorem test_param : statusAfter 0x21010228 (small []) 0x00000402 = true ∧
    statusAfter 0x20010100 (small [(1, [0, 0, 0, 0])]) 0x00000402 = true ∧
    statusAfter 0x20010120 (small [(1, [0, 0, 0, 0])]) 0x00000402 = true ∧
    statusAfter 0x2001011F (small [(1, [0, 0, 0, 0])]) 0x00000000 = true ∧
    statusAfter 0x20010101 (small [(1, [0, 0, 0, 0])]) 0x00000000 = true := by decide
/-- V-CMP-6: EQ and OVALID keep their values. -/
theorem test_uninit : statusAfter 0x10010002 { small [(0, [0, 0, 0, 0])] with eq := true, ovalid := true } 0x00000307 =
    true := by decide
/-- V-FLT-1. -/
theorem test_obempty : holdsAfter (step { small [] with pending := [.portRead .dout] })
    (fun t => decide (statusWord t = 0x00000502)) = true := by decide
/-- V-FLT-19. -/
theorem test_reset : holdsAfter (step { small [(1, [1, 2, 3, 4])] with flt := true, code := 0x01, pending := [.reset] })
    (fun t => decide (statusWord t = 0) && !t.isValid 1) = true := by decide
/-- V-FOLD-8: the word after the eighth overwrites the first. -/
theorem test_din_wraps :
    holdsAfter (step { small [] with fb := [1, 2, 3, 4, 5, 6, 7, 8], wp := 0, pending := [.portWrite .din 9] })
      (fun t => decide (t.fb = [9, 2, 3, 4, 5, 6, 7, 8]) && decide (t.wp = 1)) = true := by decide
/-- V-ST-2: the read pointer wraps. -/
theorem test_dout_wraps :
    holdsAfter (step { small [] with ob := [4, 13, 28, 27], ovalid := true, rp := 3, pending := [.portRead .dout] })
      (fun t => decide (t.observed = [27]) && decide (t.rp = 0)) = true := by decide
/-- `ZERO R5` as four bytes at BASE, the lowest first (20_memory.md R33, R37). -/
theorem test_bus_cmd : holdsAfter (step { small [] with pending := [.busWrite 0 [0x00, 0x00, 0x05, 0x01]] })
    (holdsReg 5 [0, 0, 0, 0]) = true := by decide
/-- PARAM_N at offset 0x10 (20_memory.md R33). -/
theorem test_bus_paramN : holdsAfter (step { small [] with pending := [.busRead 0x10 4] })
    (fun t => decide (t.observed = [4])) = true := by decide
/-- A byte of the window, and a word outside it (20_memory.md R38; 93_implementation_defined.md U19). -/
theorem test_bus_stray :
    step { small [] with pending := [.busRead 0x1F 1] } = .refused (.notAWordAccess 0x1F 1) ∧
      step { small [] with pending := [.busRead 0x20 4] } = .refused (.outsideWindow 0x20) := ⟨rfl, rfl⟩
/-- The host's view of a table word. -/
theorem test_withFetchWord : holdsAfter (step (State.reset.withFetchWord 32 0x01050000)) (holdsReg 5 [0, 0, 0, 0]) = true ∧
    decodeTableWord 32 0x01050000 = some (.zero 5) := by decide
/-- The text of P3's commands. -/
theorem test_text : lineText (.command (.add 2 2 4)) = "ADD R2, R2, R4" ∧
    lineText (.command (.enc 4 3 4)) = "ENC R4, R3, #4" := by decide

/-! ### Witnesses: each shows a state and operands that meet the hypotheses of a statement, clause by clause, at the
ends of the ranges (R7 is the last of eight registers, R8 the first that does not exist) -/

/-- A state with two valid registers, the last one among them. -/
def pair : State := small [(0, [1, 2, 3, 4]), (7, [5, 6, 7, 8])]

/-- What every command statement assumes of the state, with a register that exists, one that does not, one that is
valid and one that is not. -/
theorem witness_command_states :
    Memory.wf pair = true ∧ pair.flt = false ∧ 7 < pair.params.nr ∧ pair.params.nr ≤ 8 ∧ pair.isValid 0 = true ∧
      pair.isValid 7 = true ∧ pair.isValid 1 = false := by decide

theorem witness_DecodeOfEncodeIsIdentity : (Instr.mul 255 0 255).wellFormed = true := by decide

theorem witness_EncodeOfDecodeIsIdentity : decode 0x2107071F = .ok (.dec 7 7 31) := by decide

theorem witness_DecodeFollowsOpcodeMap :
    (∃ row ∈ opcodeRows, rowMatches row 0x01FF0000 = true) ∧ ∀ row ∈ opcodeRows, rowMatches row 0x05000000 = false := by
  decide

theorem witness_IllegalWordFaultsAndChangesNothingElse :
    pair.flt = false ∧ ∀ row ∈ opcodeRows, rowMatches row 0x01050001 = false := by decide

/-- The legal and the illegal words of ZERO. -/
theorem witness_ZeroWritesTheZeroElement :
    (opField 0x01FF0000 = 0x01 ∧ bField 0x01FF0000 = 0 ∧ cField 0x01FF0000 = 0) ∧
      (opField 0x01000100 = 0x01 ∧ bField 0x01000100 ≠ 0) ∧ opField 0x01000001 = 0x01 ∧ cField 0x01000001 ≠ 0 := by decide

/-- The legal and the illegal words of FOLD. -/
theorem witness_FoldSubtractsTheHalvesAndClears :
    (opField 0x02FF0000 = 0x02 ∧ bField 0x02FF0000 = 0 ∧ cField 0x02FF0000 = 0) ∧
      (opField 0x0200FF00 = 0x02 ∧ bField 0x0200FF00 ≠ 0) ∧ opField 0x020000FF = 0x02 ∧ cField 0x020000FF ≠ 0 := by decide

/-- The legal and the illegal words of FBCLR. -/
theorem witness_FbclrClearsTheFoldBuffer :
    (opField 0x03000000 = 0x03 ∧ aField 0x03000000 = 0 ∧ bField 0x03000000 = 0 ∧ cField 0x03000000 = 0) ∧
      (opField 0x03010000 = 0x03 ∧ aField 0x03010000 ≠ 0) ∧ (opField 0x03000100 = 0x03 ∧ bField 0x03000100 ≠ 0) ∧
      opField 0x03000001 = 0x03 ∧ cField 0x03000001 ≠ 0 := by decide

/-- The legal and the illegal words of ST. -/
theorem witness_StSnapshotsTheRegister :
    (opField 0x0400FF00 = 0x04 ∧ aField 0x0400FF00 = 0 ∧ cField 0x0400FF00 = 0) ∧
      (opField 0x04010000 = 0x04 ∧ aField 0x04010000 ≠ 0) ∧ opField 0x04000001 = 0x04 ∧ cField 0x04000001 ≠ 0 := by decide

theorem witness_AddIsPointwiseAddition : opField 0x10FFFFFF = 0x10 := by decide
theorem witness_SubIsPointwiseSubtraction : opField 0x11FFFFFF = 0x11 := by decide
theorem witness_MulIsNegacyclicConvolution : opField 0x12FFFFFF = 0x12 := by decide

/-- The legal and the illegal words of CMPEQ. -/
theorem witness_CmpeqSetsTheFlagByAllCoefficients :
    (opField 0x1300FFFF = 0x13 ∧ aField 0x1300FFFF = 0) ∧ opField 0x13010000 = 0x13 ∧ aField 0x13010000 ≠ 0 := by decide

/-- ENC: its word, and immediates on both sides of both ends. -/
theorem witness_EncShiftsPayloadsUp : opField 0x20FFFFFF = 0x20 ∧ ((0 = 0 ∨ 32 ≤ 0) ∧ (32 = 0 ∨ 32 ≤ 32)) ∧
    (1 ≤ 1 ∧ 1 ≤ 31) ∧ 1 ≤ 31 ∧ 31 ≤ 31 := by decide

/-- DEC: its word, and immediates on both sides of both ends. -/
theorem witness_DecRoundsToTheNearestStep : opField 0x21FFFFFF = 0x21 ∧ ((0 = 0 ∨ 32 ≤ 0) ∧ (32 = 0 ∨ 32 ≤ 32)) ∧
    (1 ≤ 1 ∧ 1 ≤ 31) ∧ 1 ≤ 31 ∧ 31 ≤ 31 := by decide

/-- The legal and the illegal words of ADDN. -/
theorem witness_AddnAddsOneNoiseDrawPerCoefficient :
    (opField 0x22FFFF00 = 0x22 ∧ cField 0x22FFFF00 = 0) ∧ opField 0x22000001 = 0x22 ∧ cField 0x22000001 ≠ 0 := by decide

/-- The legal and the illegal words of RNDU. -/
theorem witness_RnduStoresOneWordDrawPerCoefficient :
    (opField 0x30FF0000 = 0x30 ∧ bField 0x30FF0000 = 0 ∧ cField 0x30FF0000 = 0) ∧
      (opField 0x30000100 = 0x30 ∧ bField 0x30000100 ≠ 0) ∧ opField 0x30000001 = 0x30 ∧ cField 0x30000001 ≠ 0 := by decide

/-- The legal and the illegal words of RNDB. -/
theorem witness_RndbStoresOneBitDrawPerCoefficient :
    (opField 0x31FF0000 = 0x31 ∧ bField 0x31FF0000 = 0 ∧ cField 0x31FF0000 = 0) ∧
      (opField 0x31000100 = 0x31 ∧ bField 0x31000100 ≠ 0) ∧ opField 0x31000001 = 0x31 ∧ cField 0x31000001 ≠ 0 := by decide

/-- Each of the five steps of R155 is reached: an illegal word; R8; imm8 = 32; an unwritten source; and none. -/
theorem witness_ChecksRunInTheirFixedOrder :
    pair.flt = false ∧ decode 0x01000001 = .error (.fieldNotZero 0x01) ∧
      (decode 0x20080820 = .ok (.enc 8 8 32) ∧ pair.params.nr ≤ 8) ∧
      (decode 0x20070120 = .ok (.enc 7 1 32) ∧ 7 < pair.params.nr ∧ ¬(1 ≤ 32 ∧ 32 ≤ 31)) ∧
      (decode 0x2007011F = .ok (.enc 7 1 31) ∧ (1 ≤ 31 ∧ 31 ≤ 31) ∧ pair.isValid 1 = false) ∧
      decode 0x20070001 = .ok (.enc 7 0 1) := by decide

theorem witness_executable : Executable (.enc 7 0 1) pair ∧ Executable (.rndu 7) pair ∧ ¬Executable (.rndb 8) pair := by
  refine ⟨⟨by decide, by rintro b ⟨⟩; decide, by decide⟩, ⟨by decide, by rintro b ⟨⟩, by decide⟩, fun h => ?_⟩
  exact absurd (h.1 8 (by decide)) (by decide)

theorem witness_FaultsArePreciseAndTheFirstIsKept :
    pair.flt = false ∧ ∃ t, perform (.portRead .dout) pair = .next t ∧ t.flt = true := ⟨by decide, _, rfl, rfl⟩

/-- A faulted state, for the statements about it. -/
theorem witness_faulted : (faulted 0x01 pair).flt = true ∧
    ∃ t, perform (.portWrite .cmd 0x01000000) (faulted 0x01 pair) = .next t := ⟨rfl, _, rfl⟩

theorem witness_ClearFaultFlagVouchesForTheStep :
    let s := { pair with pending := [.portWrite .din 9] }
    s.pending.head? ≠ some .reset ∧ ∃ t, step s = .next t ∧ t.flt = false := ⟨by decide, _, rfl, rfl⟩

/-- The first and the last word of the window, and the first word after it. -/
theorem witness_EveryStepCompletesButStrayBusAccesses :
    isWordAccess pair.params 0x00 4 = true ∧ isWordAccess pair.params 0x1C 4 = true ∧
      isWordAccess pair.params 0x20 4 = false := by decide

theorem witness_StepPerformsTheNextTransaction : pair.pending = [] ∧
    { pair with pending := [.reset] }.pending = [.reset] := ⟨rfl, rfl⟩

theorem witness_StepRunsTheDecodedCommand :
    let s := { pair with pending := [.portWrite .cmd 0x10020700] }
    s.pending = [.portWrite .cmd 0x10020700] ∧ s.flt = false ∧ decode 0x10020700 = .ok (.add 2 7 0) := by decide

/-- DIN: a faulted state, and the last position of the buffer. -/
theorem witness_DinWriteStoresAndAdvances :
    (faulted 0x01 pair).flt = true ∧ Memory.wf { pair with wp := 7 } = true ∧
      ({ pair with wp := 7 } : State).wp < 2 * pair.params.n ∧ pair.flt = false := by decide

/-- DOUT: a faulted state, nothing stored, and something stored. -/
theorem witness_DoutReadReturnsTheNextWord :
    (faulted 0x01 pair).flt = true ∧ (pair.flt = false ∧ pair.ovalid = false) ∧
      (pair.setOutput [1, 2, 3, 4]).flt = false ∧ (pair.setOutput [1, 2, 3, 4]).ovalid = true := by decide

theorem witness_BusWindowBindsThePorts : pair.params.base % 4 = 0 := by decide

/-- A byte access, a misaligned word across the end of the window, one across its lowest address (BASE = 4), and an access
of no bytes. -/
theorem witness_SubWordAndMisalignedAccessesAreRefused :
    pair.params.base % 4 = 0 ∧
      ((State.resetOf ⟨4, 8, 4⟩).params.base % 4 = 0 ∧ 2 < (State.resetOf ⟨4, 8, 4⟩).params.base + 32 ∧
        (State.resetOf ⟨4, 8, 4⟩).params.base < 2 + 4 ∧ (4 ≠ 4 ∨ 2 % 4 ≠ 0)) ∧
      (8 < pair.params.base + 32 ∧ pair.params.base < 8 + 0 ∧ (0 ≠ 4 ∨ 8 % 4 ≠ 0) ∧ ([] : List Byte).length = 0) ∧
      (31 < pair.params.base + 32 ∧ pair.params.base < 31 + 1 ∧ (1 ≠ 4 ∨ 31 % 4 ≠ 0)) ∧
      (30 < pair.params.base + 32 ∧ pair.params.base < 30 + 4 ∧ (4 ≠ 4 ∨ 30 % 4 ≠ 0)) ∧
      ([0x00, 0x00, 0x05, 0x01] : List Byte).length = 4 := by decide

theorem witness_ResetStateIsWellFormed : Params.ok ⟨1, 2, 4⟩ = true ∧ Params.ok ⟨2 ^ 31 - 1, 256, 0⟩ = true := by decide

theorem witness_EveryStepKeepsTheInvariant :
    let s := { pair with pending := [.portWrite .din 9] }
    s.wf = true ∧ ∃ t, step s = .next t := ⟨by decide, _, rfl⟩

theorem witness_ParametersNeverChange : ∃ t, step { pair with pending := [.reset] } = .next t := ⟨_, rfl⟩

/-- A valid bit that stays, one that a command sets, a command that executes with the last register as its `rd`, and one
that names an invalid source and passes the checks before that. -/
theorem witness_NoCommandClearsAValidBit :
    pair.isValid 0 = true ∧ (∃ t, exec (.zero 1) pair = .next t ∧ pair.isValid 1 = false ∧ t.isValid 1 = true) ∧
      (Memory.wf pair = true ∧ Executable (.enc 7 0 1) pair ∧ destReg (.enc 7 0 1) = some 7) ∧
      pair.flt = false ∧ (∀ r ∈ usedRegs (.enc 7 1 31), r < pair.params.nr) ∧
      (∀ b, immediateOf (.enc 7 1 31) = some b → 1 ≤ b ∧ b ≤ 31) ∧
      ∃ r ∈ sourceRegs (.enc 7 1 31), pair.isValid r = false :=
  ⟨by decide, ⟨_, rfl, by decide, by decide⟩, ⟨by decide, witness_executable.1, rfl⟩, by decide, by decide,
    by rintro b ⟨⟩; decide, by decide⟩

theorem witness_CommandWritesAtMostItsDestination :
    (∃ t, exec (.zero 1) pair = .next t) ∧ destReg (.zero 1) ≠ some 0 ∧ destReg .fbclr ≠ some 0 :=
  ⟨⟨_, rfl⟩, by decide, by decide⟩

/-- A command that is no CMPEQ; a CMPEQ that faults; a transaction of neither kind. -/
theorem witness_OnlyCmpeqAndResetWriteEq :
    ((∃ t, exec (.zero 1) pair = .next t) ∧ ∀ rs1 rs2, Instr.zero 1 ≠ .cmpeq rs1 rs2) ∧
      (∃ t, exec (.cmpeq 8 0) pair = .next t ∧ t.flt ≠ pair.flt) ∧
      ∃ t, perform (.portRead .status) pair = .next t :=
  ⟨⟨⟨_, rfl⟩, by rintro _ _ ⟨⟩⟩, ⟨_, rfl, by decide⟩, _, rfl⟩

theorem witness_BuffersAreTouchedByTheirOwnCommandsOnly :
    (∃ t, exec (.zero 1) pair = .next t) ∧ (∀ rs1, Instr.zero 1 ≠ .st rs1) ∧ (∀ rd, Instr.zero 1 ≠ .fold rd) ∧
      Instr.zero 1 ≠ .fbclr := ⟨⟨_, rfl⟩, by rintro _ ⟨⟩, by rintro _ ⟨⟩, by rintro ⟨⟩⟩

/-- A drawing command that executes (`witness_executable`), one that does not, a command that draws nothing from the
randomness source, a transaction that is no write, and what the clauses on two commands assume, with the last register. -/
theorem witness_DrawsAreMadeByTheThreeDrawingCommandsOnly :
    (∃ t, exec (.rndu 7) pair = .next t) ∧ randomFill false 7 = .rndu 7 ∧ (∃ t, exec (.rndb 8) pair = .next t) ∧
      (∀ bits rd, Instr.addn 7 0 ≠ randomFill bits rd) ∧ Executable (.addn 7 0) pair ∧
      (∃ t, perform (.portRead .paramN) pair = .next t) ∧
      Memory.wf pair = true ∧ pair.flt = false ∧ 7 < pair.params.nr ∧ pair.isValid 0 = true ∧ pair.isValid 7 = true := by
  refine ⟨⟨_, rfl⟩, rfl, ⟨_, rfl⟩, ?_, ⟨by decide, by rintro b ⟨⟩, by decide⟩, ⟨_, rfl⟩, by decide⟩
  rintro (_ | _) _ ⟨⟩

theorem witness_FoldBufferFreshness :
    (∃ t, perform .reset pair = .next t) ∧ (∃ t, exec (.fold 7) pair = .next t) ∧ (∃ t, exec .fbclr pair = .next t) ∧
      pair.wf = true ∧ pair.flt = false ∧ foldFresh pair :=
  ⟨⟨_, rfl⟩, ⟨_, rfl⟩, ⟨_, rfl⟩, by decide, rfl, by unfold foldFresh; decide⟩

/-- Two states that differ, in a register that is not valid and in an output buffer that holds nothing. -/
theorem witness_InvalidContentsCannotBeObserved :
    let s := { pair with regs := pair.regs.set 1 [9, 9, 9, 9], ob := [9, 9, 9, 9], pending := [.portRead .dout] }
    let t := { pair with pending := [.portRead .dout] }
    s ≠ t ∧ Memory.wf s = true ∧ Memory.wf t = true ∧ SameVisible s t ∧ ∃ s', step s = .next s' := by
  refine ⟨by decide, by decide, by decide, ⟨rfl, rfl, ?_, rfl, rfl, rfl, fun h => absurd h (by decide), rfl, rfl, rfl,
    rfl, rfl, rfl, rfl, rfl, rfl⟩, _, rfl⟩
  rintro (_ | _ | r) h
  · rfl
  · exact absurd h (by decide)
  · rfl

/-- A step that is refused, with those two states' contents untouched. -/
theorem witness_refused : ∃ r, step { pair with pending := [.busRead 0x01 1] } = .refused r := ⟨_, rfl⟩

/-- Elements of four coefficients, and of one. -/
theorem witness_RingLaws : ([1, 2, 3, 4] : RingElt).length = 4 ∧ ([0xFFFFFFFF] : RingElt).length = 1 := by decide

/-- The last value inside the window and the first one outside, on both sides, for b = 1 and b = 31. -/
theorem witness_DecodeWindow :
    inWindow 1 (-1073741824) ∧ ¬inWindow 1 1073741824 ∧ inWindow 31 (-1) ∧ inWindow 31 0 ∧ ¬inWindow 31 1 ∧
      -(2 ^ 31) ≤ (-1073741824 : Int) ∧ (-1073741824 : Int) < 2 ^ 31 := by
  unfold inWindow; decide

theorem witness_DecodeUndoesEncode : inWindow 4 (0xF8000000 : Word).toInt ∧ inWindow 4 (0x07FFFFFF : Word).toInt := by
  unfold inWindow; decide

/-- A list longer than the buffer, one of exactly N words, and the last register. -/
theorem witness_loads :
    pair.wf = true ∧ pair.flt = false ∧ foldFresh pair ∧ 7 < pair.params.nr ∧
      ([1, 2, 3, 4] : List Word).length = pair.params.n ∧ ([1, 2, 3, 4, 5, 6, 7, 8] : List Word).length ≤ 2 * pair.params.n :=
  ⟨by decide, rfl, by unfold foldFresh; decide, by decide, rfl, by decide⟩

theorem witness_RdrReadsTheElement : pair.wf = true ∧ pair.flt = false ∧ 7 < pair.params.nr ∧ pair.isValid 7 = true := by
  decide

/-- Key elements in the last two of eight registers. -/
theorem witness_KeygenDrawsTheKeyBits : pair.wf = true ∧ pair.flt = false ∧ 6 + 2 ≤ pair.params.nr := by decide

/-- Program P3's layout and plaintext, with noise at both ends of the window for b = 4. -/
def p3 : State :=
  { small [(0, [1, 0, 1, 1]), (3, [1, 2, 15, 0])] with noise := ⟨[0x07FFFFFF, 0xF8000000, 0, 0xFFFFFFFF], 0⟩ }

theorem witness_EncryptEndState :
    p3.wf = true ∧ p3.flt = false ∧ layoutOk p3.params.nr (encryptRegs 1 1 0 3 4) = true ∧ keyReady p3 1 0 = true ∧
      p3.isValid 3 = true := by decide

theorem witness_DecryptionRecoversThePlaintext :
    layoutOk p3.params.nr (5 :: encryptRegs 1 1 0 3 4) = true ∧
      (∀ j < p3.params.n, (coeff (p3.reg 3) j).toNat < 2 ^ 4) ∧
      ∀ j < p3.params.n, inWindow 4 (noiseDraw p3 j).toInt := by
  refine ⟨by decide, by decide, ?_⟩
  unfold inWindow; decide

/-- Program P3 before its step 11. -/
def p3Encrypted : State := small [(0, [1, 0, 1, 1]), (1, [5, 0x80000000, 0xFFFFFFFF, 7]),
  (2, [0x90000009, 0x9FFFFFF8, 0xEFFFFFFD, 0x8000000B])]

theorem witness_DecryptRoundsTheResidual :
    p3Encrypted.wf = true ∧ p3Encrypted.flt = false ∧ layoutOk p3Encrypted.params.nr (decryptRegs 1 5 1 0 4) = true ∧
      keyReady p3Encrypted 1 0 = true ∧ ciphertextValid p3Encrypted 1 1 = true := by decide

/-- That ciphertext hides P3's plaintext, with P3's noise. -/
theorem witness_DecryptionReturnsThePayloadInTheWindow :
    Hides p3Encrypted 1 0 1 4 (fun j => [1, 2, 15, 0].getD j 0) (fun j => [3, -2, 0, -1].getD j 0) := by
  unfold Hides; decide

/-- Doubling it in place. -/
theorem witness_AdditionAccumulatesPayloadsAndNoises :
    1 + 1 < p3Encrypted.params.nr ∧ 0 + 1 ≤ p3Encrypted.params.nr ∧ sameOrApart 1 1 1 = true ∧
      ∀ i < 1, 0 + i ∉ regRange 1 (1 + 1) := by decide

/-- Two one-mask ciphertexts, at R1 and R3. -/
def twoCiphertexts : State := small [(1, [1, 2, 3, 4]), (2, [5, 6, 7, 8]), (3, [1, 2, 3, 4]), (4, [5, 6, 7, 9])]

/-- In place, apart, and up to the last register. -/
theorem witness_CtaddSumsTheComponents :
    twoCiphertexts.wf = true ∧ twoCiphertexts.flt = false ∧ 6 + 1 < twoCiphertexts.params.nr ∧
      (sameOrApart 1 1 1 = true ∧ sameOrApart 1 1 3 = true) ∧ (sameOrApart 1 6 1 = true ∧ sameOrApart 1 6 3 = true) ∧
      ciphertextValid twoCiphertexts 1 1 = true ∧ ciphertextValid twoCiphertexts 1 3 = true := by decide

theorem witness_CteqComparesAllComponents :
    twoCiphertexts.wf = true ∧ twoCiphertexts.flt = false ∧ 1 + 1 < twoCiphertexts.params.nr ∧
      3 + 1 < twoCiphertexts.params.nr ∧ ciphertextValid twoCiphertexts 1 1 = true ∧
      ciphertextValid twoCiphertexts 1 3 = true := by decide

/-- Nine registers: key R0, ciphertexts R1 and R3, plaintexts R5 and R6, scratch R7, output R8; the noise sums are
h - 1 and -h, just inside the window. -/
def p4 : State :=
  { ((State.resetOf ⟨4, 9, 0⟩).setReg 0 [1, 0, 1, 1]).setReg 5 [1, 2, 15, 0] |>.setReg 6 [3, 14, 1, 9] with
    noise := ⟨[3, 0xFFFFFFFE, 0, 0xFFFFFFFF, 0x07FFFFFC, 0xF8000002, 1, 2], 0⟩ }

/-- Two encryptions of R5, and a chain of one addition, in the same layout; the noise totals are h - 1 and -h. -/
theorem witness_encryptions_of_one_plaintext :
    layoutOk p4.params.nr (8 :: (regRange 3 (1 + 1) ++ encryptRegs 1 1 0 5 7)) = true ∧
      layoutOk p4.params.nr (regRange 3 (1 + 1) ++ encryptRegs 1 1 0 5 7) = true ∧
      ∀ j < p4.params.n, inWindow 4 (noiseTotal p4 (1 + 1) j) := by
  refine ⟨by decide, by decide, ?_⟩
  unfold inWindow; decide

/-- Sources that repeat their answers, and sources that do not: the two sides of non-determinism. -/
theorem witness_SameDraws :
    SameDraws { p4 with random := ⟨List.replicate 8 ⟨9, 0⟩, 0⟩, noise := ⟨List.replicate 8 1, 0⟩ } 1 ∧ ¬SameDraws p4 1 := by
  unfold SameDraws
  exact ⟨by decide, fun h => absurd (h.2 0 (by decide)) (by decide)⟩

theorem witness_DecryptionOfASumIsTheSumOfThePlaintexts :
    p4.wf = true ∧ p4.flt = false ∧
      layoutOk p4.params.nr (6 :: 8 :: (regRange 3 (1 + 1) ++ encryptRegs 1 1 0 5 7)) = true ∧
      keyReady p4 1 0 = true ∧ p4.isValid 5 = true ∧ p4.isValid 6 = true ∧
      ∀ j < p4.params.n, inWindow 4 ((noiseDraw p4 j).toInt + (noiseDraw p4 (p4.params.n + j)).toInt) := by
  refine ⟨by decide, rfl, by decide, by decide, by decide, by decide, ?_⟩
  unfold inWindow; decide

end Sys2Proof.Tests
end

section
/-! SUPPORT. The state family (10_state.md): what the commands, the transactions and every step keep of the state. -/

namespace Sys2Proof.Machine

/-! ### The machine's invariant -/

theorem wf_iff {s : State} :
    s.wf = true ↔ s.params.ok = true ∧ Memory.wf s = true ∧ pointersOk s = true ∧ statusOk s = true := by
  simp [State.wf, and_assoc]

theorem pointersOk_iff {s : State} : pointersOk s = true ↔ s.wp < 2 * s.params.n ∧ s.rp < s.params.n := by
  simp [pointersOk]

/-- A ring has at least one coefficient (00_scope.md R4). -/
theorem Params.n_pos_of_ok {p : Params} (h : p.ok = true) : 0 < p.n := by
  simp only [Params.ok, Bool.and_eq_true, decide_eq_true_eq] at h
  omega

theorem n_pos_of_wf {s : State} (h : s.wf = true) : 0 < s.params.n := Params.n_pos_of_ok (wf_iff.1 h).1

theorem statusOk_congr {s t : State} (h : KeepsFault s t) : statusOk t = statusOk s := by
  simp only [statusOk, h.1, h.2]

/-- A fault is recorded with one of the five codes, and only over a state without one (60_exceptions.md R153). -/
theorem statusOk_raiseFault (c : FaultCode) {s : State} (h : statusOk s = true) : statusOk (raiseFault c s) = true := by
  cases hf : s.flt with
  | true => rwa [raiseFault_of_faulted c hf]
  | false => simp [statusOk, hf, faultByte_ne_zero]

theorem wf_raiseFault (c : FaultCode) {s : State} (h : s.wf = true) : (raiseFault c s).wf = true := by
  obtain ⟨hp, hm, hptr, hst⟩ := wf_iff.1 h
  exact wf_iff.2 ⟨by simpa using hp, memory_wf_raiseFault c hm, by simpa [pointersOk] using hptr,
    statusOk_raiseFault c hst⟩

/-- A command's effect puts the pointers it writes at the start of their buffers. -/
theorem pointersOk_effectOf (i : Instr) {s : State} (hn : 0 < s.params.n) (h : pointersOk s = true) :
    pointersOk (effectOf i s) = true := by
  rw [pointersOk_iff] at h
  cases i with
  | fold rd => exact pointersOk_iff.2 ⟨by simp [effectOf, hn], h.2⟩
  | fbclr => exact pointersOk_iff.2 ⟨by simp [effectOf, hn], h.2⟩
  | st rs1 => exact pointersOk_iff.2 ⟨h.1, hn⟩
  | _ => exact pointersOk_iff.2 h

theorem wf_effectOf (i : Instr) {s : State} (h : s.wf = true) : (effectOf i s).wf = true := by
  obtain ⟨hp, hm, hptr, hst⟩ := wf_iff.1 h
  exact wf_iff.2 ⟨by rwa [effectOf_params], memory_wf_effectOf i hm, pointersOk_effectOf i (Params.n_pos_of_ok hp) hptr,
    by rwa [statusOk_congr (effectOf_keepsFault i s)]⟩

theorem wf_pushFold {s : State} (w : Word) (h : s.wf = true) : (s.pushFold w).wf = true := by
  obtain ⟨hp, hm, hptr, hst⟩ := wf_iff.1 h
  have hwp : (s.wp + 1) % (2 * s.params.n) < 2 * s.params.n := Nat.mod_lt _ (by have := n_pos_of_wf h; omega)
  exact wf_iff.2 ⟨hp, memory_wf_pushFold w hm, pointersOk_iff.2 ⟨hwp, (pointersOk_iff.1 hptr).2⟩, hst⟩

theorem wf_resetUnit {s : State} (h : s.params.ok = true) : (resetUnit s).wf = true :=
  wf_iff.2 ⟨h, memory_wf_resetUnit s, pointersOk_iff.2 (by simp [Params.n_pos_of_ok h]), rfl⟩

theorem wf_resetOf {p : Params} (h : p.ok = true) : (State.resetOf p).wf = true :=
  wf_iff.2 ⟨h, memory_wf_resetOf p, pointersOk_iff.2 (by simp [State.resetOf, Params.n_pos_of_ok h]), rfl⟩

/-- Every transaction that completes keeps the invariant. -/
theorem Performed.wf {tr : Transaction} {s t : State} (h : Performed tr s t) (hs : s.wf = true) : t.wf = true := by
  obtain ⟨hp, hm, hptr, hst⟩ := wf_iff.1 hs
  cases h with
  | ignored => exact hs
  | commandFaults c => exact wf_raiseFault c hs
  | commandRuns i => exact wf_effectOf i hs
  | dataWritten w => exact wf_pushFold w hs
  | wasRead v k r _ _ moved =>
    have hr : r < s.params.n := by
      rcases moved with rfl | rfl
      · exact (pointersOk_iff.1 hptr).2
      · exact Nat.mod_lt _ (n_pos_of_wf hs)
    exact wf_iff.2 ⟨hp, hm, pointersOk_iff.2 ⟨(pointersOk_iff.1 hptr).1, hr⟩, hst⟩
  | readFaults => exact wf_iff.2 ⟨hp, hm, hptr, rfl⟩
  | wasReset => exact wf_resetUnit hp

/-- Settles O36, transaction by transaction. -/
theorem everyStepKeepsTheInvariant : Obligations.EveryStepKeepsTheInvariant := by
  intro s t hs h
  rcases step_inversion h with ⟨-, rfl⟩ | ⟨tr, rest, -, hperf⟩
  · exact hs
  · exact hperf.wf hs

/-- Settles O35, for all parameters at once. -/
theorem resetStateIsWellFormed : Obligations.ResetStateIsWellFormed :=
  ⟨wf_resetOf (by decide), fun _ hp => wf_resetOf hp⟩

/-- Settles O34: all but the valid bits are the fields as `State.resetOf` writes them. -/
theorem resetStateHasTheResetValues : Obligations.ResetStateHasTheResetValues := by
  refine ⟨fun p => ⟨_, rfl, fun r => ?_, rfl, rfl, rfl, rfl, rfl, rfl, rfl, rfl⟩, rfl⟩
  simp only [State.isValid, State.resetOf, List.getD_eq_getElem?_getD, List.getElem?_replicate]
  split <;> rfl

/-! ### The parameters and the status word -/

theorem Performed.params_eq {tr : Transaction} {s t : State} (h : Performed tr s t) : t.params = s.params := by
  cases h with
  | commandFaults c => exact raiseFault_params c s
  | commandRuns i => exact effectOf_params i s
  | _ => rfl

/-- Settles O37: no case of a completed transaction writes `params`. -/
theorem parametersNeverChange : Obligations.ParametersNeverChange := by
  refine ⟨fun s t h => ?_, fun s => ⟨rfl, rfl⟩⟩
  rcases step_inversion h with ⟨-, rfl⟩ | ⟨tr, rest, -, hperf⟩
  · rfl
  · exact hperf.params_eq

/-- The layout of STATUS, bit by bit (10_state.md R13). -/
theorem getLsbD_statusWord (s : State) (i : Nat) :
    (statusWord s).getLsbD i =
      if i = 0 then s.eq else if i = 1 then s.flt else if i = 2 then s.ovalid
      else !decide (i < 8) && s.code.getLsbD (i - 8) := by
  have top : (statusWord s).getLsbD i = _ :=
    BitVec.getLsbD_append (x := 0#16 ++ s.code ++ 0#5 ++ BitVec.ofBool s.ovalid ++ BitVec.ofBool s.flt)
  rw [top]
  simp only [BitVec.getLsbD_append, BitVec.getLsbD_zero, BitVec.getLsbD_ofBool]
  match i with
  | 0 | 1 | 2 => simp
  | k + 3 =>
    by_cases hcode : k - 5 < 8
    · simp [hcode, show k + 3 < 8 ↔ k < 5 by omega]
    · simp [hcode, BitVec.getLsbD_of_ge s.code (k - 5) (Nat.not_lt.1 hcode)]

theorem getLsbD_statusWord_of_three_le (s : State) {i : Nat} (h : 3 ≤ i) :
    (statusWord s).getLsbD i = (!decide (i < 8) && s.code.getLsbD (i - 8)) := by
  rw [getLsbD_statusWord, if_neg (by omega), if_neg (by omega), if_neg (by omega)]

/-- Settles O29, from the layout bit by bit. -/
theorem statusReadReturnsTheLayout : Obligations.StatusReadReturnsTheLayout := by
  refine fun s =>
    ⟨statusWord s, rfl, getLsbD_statusWord s 0, getLsbD_statusWord s 1, getLsbD_statusWord s 2, ?_, ?_, ?_⟩
  · ext i hi
    simp [getLsbD_statusWord_of_three_le, show 3 + i < 8 by omega]
  · ext i hi
    simp [getLsbD_statusWord_of_three_le, show 3 ≤ 8 + i by omega, hi, ← BitVec.getLsbD_eq_getElem]
  · ext i hi
    simp [getLsbD_statusWord_of_three_le, show 3 ≤ 16 + i by omega,
      BitVec.getLsbD_of_ge s.code (16 + i - 8) (by omega)]

/-! ### What a command's effect writes -/

/-- A command that names a destination writes that register and sets its valid bit (10_state.md R11, R23). -/
theorem effectOf_of_destReg {i : Instr} {rd : RegNum} (s : State) (h : destReg i = some rd) :
    ∃ v, (effectOf i s).regs = (s.setReg rd v).regs ∧ (effectOf i s).valid = (s.setReg rd v).valid := by
  cases i <;> cases h <;> exact ⟨_, rfl, rfl⟩

theorem effectOf_of_destReg_none {i : Instr} (s : State) (h : destReg i = none) :
    (effectOf i s).regs = s.regs ∧ (effectOf i s).valid = s.valid := by
  cases i <;> cases h <;> exact ⟨rfl, rfl⟩

/-- Its destination is one of the register fields that the unit checks (60_exceptions.md R152). -/
theorem mem_usedRegs_of_destReg {i : Instr} {rd : RegNum} (h : destReg i = some rd) : rd ∈ usedRegs i := by
  cases i <;> cases h <;> exact List.mem_cons_self

/-- The registers a command does not name as its destination keep contents and valid bit (10_state.md R23). -/
theorem effectOf_keepsReg {i : Instr} (s : State) {r : RegNum} (h : destReg i ≠ some r) :
    (effectOf i s).reg r = s.reg r ∧ (effectOf i s).isValid r = s.isValid r := by
  cases hd : destReg i with
  | none =>
    obtain ⟨hregs, hvalid⟩ := effectOf_of_destReg_none s hd
    exact ⟨reg_congr hregs r, isValid_congr hvalid r⟩
  | some rd =>
    obtain ⟨v, hregs, hvalid⟩ := effectOf_of_destReg s hd
    have hne : r ≠ rd := fun e => h (by rw [hd, e])
    exact ⟨(reg_congr hregs r).trans (reg_setReg_ne s v hne),
      (isValid_congr hvalid r).trans (isValid_setReg_ne s v hne)⟩

theorem effectOf_isValid_of_isValid (i : Instr) {s : State} {r : RegNum} (h : s.isValid r = true) :
    (effectOf i s).isValid r = true := by
  cases hd : destReg i with
  | none => rw [isValid_congr (effectOf_of_destReg_none s hd).2, h]
  | some rd =>
    obtain ⟨v, -, hvalid⟩ := effectOf_of_destReg s hd
    rw [isValid_congr hvalid, isValid_setReg_of_isValid s rd r v h]

theorem effectOf_isValid_destReg {i : Instr} {s : State} {rd : RegNum} (hm : Memory.wf s = true) (ok : Executable i s)
    (h : destReg i = some rd) : (effectOf i s).isValid rd = true := by
  obtain ⟨v, -, hvalid⟩ := effectOf_of_destReg s h
  obtain ⟨-, -, hlen, -, -⟩ := memory_wf_iff.1 hm
  rw [isValid_congr hvalid, isValid_setReg_self s v (hlen ▸ ok.1 rd (mem_usedRegs_of_destReg h))]

/-- The last check that fails is that of the sources (60_exceptions.md R155, step 4). -/
theorem commandFault_eq_uninit {s : State} {used sources : List RegNum} {imm : Option Nat}
    (hused : ∀ r ∈ used, r < s.params.nr) (himm : ∀ b, imm = some b → 1 ≤ b ∧ b ≤ 31)
    (hsrc : ∃ r ∈ sources, s.isValid r = false) : commandFault s used imm sources = some .uninit := by
  have h1 : used.any (fun r => decide (s.params.nr ≤ r)) = false := by simpa using hused
  have h2 : imm.any (fun b => !legalWidth b) = false := by
    cases imm with
    | none => rfl
    | some b => simpa [legalWidth] using himm b rfl
  have h3 : sources.any (fun r => !s.isValid r) = true := by simpa using hsrc
  simp [commandFault, h1, h2, h3]

/-- Settles O39: a fault writes no register, an effect only its destination. -/
theorem commandWritesAtMostItsDestination : Obligations.CommandWritesAtMostItsDestination := by
  intro i s t r h hr
  rcases exec_inversion h with ⟨c, -, rfl⟩ | ⟨-, rfl⟩
  · exact raiseFault_keepsRegs c s r
  · exact effectOf_keepsReg s hr

/-- Settles O38; its second clause is the frame of O39. -/
theorem noCommandClearsAValidBit : Obligations.NoCommandClearsAValidBit := by
  refine ⟨fun i s t r h hv => ?_, fun i s t r h hv ht => ?_, fun i s r hm ok hd => ?_, fun i s hf hused himm hsrc => ?_⟩
  · rcases exec_inversion h with ⟨c, -, rfl⟩ | ⟨-, rfl⟩
    · rw [(raiseFault_keepsRegs c s r).2, hv]
    · exact effectOf_isValid_of_isValid i hv
  · by_contra hd
    have hkeep := (commandWritesAtMostItsDestination i s t r h hd).2
    simp [hkeep, hv] at ht
  · exact ⟨_, exec_of_executable ok, effectOf_isValid_destReg hm ok hd⟩
  · rw [exec_eq_command, command_of_some (commandFault_eq_uninit hused himm hsrc), raiseFault_of_good _ hf]
    rfl

/-! ### The condition flag and the buffers -/

theorem effectOf_keepsEq {i : Instr} (s : State) (h : ∀ rs1 rs2, i ≠ .cmpeq rs1 rs2) : (effectOf i s).eq = s.eq := by
  cases i with
  | cmpeq rs1 rs2 => exact absurd rfl (h rs1 rs2)
  | _ => rfl

theorem effectOf_keepsOutput {i : Instr} (s : State) (h : ∀ rs1, i ≠ .st rs1) : KeepsOutput s (effectOf i s) := by
  cases i with
  | st rs1 => exact absurd rfl (h rs1)
  | _ => exact ⟨rfl, rfl, rfl⟩

theorem effectOf_keepsFold {i : Instr} (s : State) (hfold : ∀ rd, i ≠ .fold rd) (hclr : i ≠ .fbclr) :
    KeepsFold s (effectOf i s) := by
  cases i with
  | fold rd => exact absurd rfl (hfold rd)
  | fbclr => exact absurd rfl hclr
  | _ => exact ⟨rfl, rfl⟩

theorem raiseFault_keepsOutput (c : FaultCode) (s : State) : KeepsOutput s (raiseFault c s) := by simp [KeepsOutput]

theorem raiseFault_keepsFold (c : FaultCode) (s : State) : KeepsFold s (raiseFault c s) := by simp [KeepsFold]

/-- Only a CMD write or reset can change EQ. -/
theorem Performed.eq_of_not_command {tr : Transaction} {s t : State} (h : Performed tr s t) (hreset : tr ≠ .reset)
    (hcmd : ¬MayWriteCmd tr) : t.eq = s.eq := by
  cases h with
  | commandFaults _ may => exact absurd may hcmd
  | commandRuns _ may => exact absurd may hcmd
  | wasReset isReset => exact absurd isReset hreset
  | _ => rfl

/-- Settles O40: of the effects only CMPEQ's writes EQ, and a fault writes FLT and CODE only. -/
theorem onlyCmpeqAndResetWriteEq : Obligations.OnlyCmpeqAndResetWriteEq := by
  refine ⟨fun i s t h hi => ?_, fun rs1 rs2 s t h hflt => ?_, fun tr s t h hreset hport hbus => ?_⟩
  · rcases exec_inversion h with ⟨c, -, rfl⟩ | ⟨-, rfl⟩
    · exact raiseFault_eq c s
    · exact effectOf_keepsEq s hi
  · rcases exec_inversion h with ⟨c, -, rfl⟩ | ⟨-, rfl⟩
    · exact raiseFault_eq c s
    · exact absurd (effectOf_keepsFault _ s).1 hflt
  · refine (perform_inversion h).eq_of_not_command hreset ?_
    rintro (⟨w, e⟩ | ⟨a, l, e⟩)
    · exact hport w e
    · exact hbus a l e

/-- Settles O41, from the frame of each effect and of a fault. -/
theorem buffersAreTouchedByTheirOwnCommandsOnly : Obligations.BuffersAreTouchedByTheirOwnCommandsOnly := by
  intro i s t h
  rcases exec_inversion h with ⟨c, -, rfl⟩ | ⟨-, rfl⟩
  · exact ⟨fun _ => raiseFault_keepsOutput c s, fun _ _ => raiseFault_keepsFold c s⟩
  · exact ⟨effectOf_keepsOutput s, effectOf_keepsFold s⟩

/-! ### A list written to DIN (10_state.md R16, R17) -/

/-- The state after the words `l` were written to DIN, in order, with no fault recorded. -/
def State.pushWords (s : State) (l : List Word) : State := l.foldl State.pushFold s

@[simp] theorem pushWords_nil (s : State) : s.pushWords [] = s := rfl

theorem pushWords_cons (s : State) (w : Word) (l : List Word) : s.pushWords (w :: l) = (s.pushFold w).pushWords l := rfl

theorem pushWords_concat (s : State) (l : List Word) (w : Word) :
    s.pushWords (l ++ [w]) = (s.pushWords l).pushFold w := by
  simp [State.pushWords]

/-- Writing to DIN changes the fold buffer and its pointer only. -/
theorem pushWords_eq (s : State) (l : List Word) :
    s.pushWords l = { s with fb := (s.pushWords l).fb, wp := (s.pushWords l).wp } := by
  induction l generalizing s with
  | nil => rfl
  | cons w l ih => rw [pushWords_cons, ih]; rfl

@[simp] theorem pushWords_flt (s : State) (l : List Word) : (s.pushWords l).flt = s.flt := by rw [pushWords_eq]
@[simp] theorem pushWords_params (s : State) (l : List Word) : (s.pushWords l).params = s.params := by rw [pushWords_eq]

theorem pushWords_keepsRegs (s : State) (l : List Word) : KeepsRegs s (s.pushWords l) :=
  fun _ => by rw [pushWords_eq]; exact ⟨rfl, rfl⟩

theorem runLines_dins {s : State} (l : List Word) (good : s.flt = false) :
    runLines (l.map .din) s = .next (s.pushWords l) := by
  induction l generalizing s with
  | nil => rfl
  | cons w l ih => rw [List.map_cons, runLines_din good, ih (s := s.pushFold w) good, pushWords_cons]

@[simp] theorem length_pushWords_fb (s : State) (l : List Word) : (s.pushWords l).fb.length = s.fb.length := by
  induction l generalizing s with
  | nil => rfl
  | cons w l ih => simp [pushWords_cons, ih]

/-- The pointer counts the words written modulo 2N (20_memory.md R32). -/
theorem pushWords_wp {s : State} (l : List Word) (h : s.wp = 0) :
    (s.pushWords l).wp = l.length % (2 * s.params.n) := by
  induction l using List.reverseRecOn with
  | nil => simp [h]
  | append_singleton l w ih => simp [pushWords_concat, ih]

/-- One more word takes the position of its index modulo `m`, and the others keep theirs. -/
theorem holdsAt_concat {m j : Nat} {l : List Word} {v w : Word} (h : HoldsAt m l j v) :
    HoldsAt m (l ++ [w]) j (if j = l.length % m then w else v) := by
  have old : ∀ i < l.length, coeff (l ++ [w]) i = coeff l i := fun i hi => by
    simp [coeff, List.getD, List.getElem?_append_left hi]
  have last : coeff (l ++ [w]) l.length = w := by simp [coeff, List.getD]
  have hlen : (l ++ [w]).length = l.length + 1 := by simp
  by_cases hj : j = l.length % m
  · rw [if_pos hj]
    exact .inl ⟨l.length, by omega, hj.symm, last.symm, fun i' _ _ => by omega⟩
  · rw [if_neg hj]
    have not_last : ∀ i < (l ++ [w]).length, i % m = j → i < l.length := by
      intro i hi hij
      have : i ≠ l.length := by rintro rfl; exact hj hij.symm
      omega
    rcases h with ⟨i, hi, hij, hv, hafter⟩ | ⟨hnone, hv⟩
    · exact .inl ⟨i, by omega, hij, by rw [old i hi, hv], fun i' hlt hi' e => hafter i' hlt (not_last i' hi' e) e⟩
    · exact .inr ⟨fun i hi e => hnone i (not_last i hi e) e, hv⟩

/-- A list written to a fresh buffer stands as in the document's temporary buffer (10_state.md R17). -/
theorem pushWords_holdsAt {s : State} (l : List Word) (hn : 0 < s.params.n) (hlen : s.fb.length = 2 * s.params.n)
    (hfresh : foldFresh s) {j : Nat} (hj : j < 2 * s.params.n) :
    HoldsAt (2 * s.params.n) l j (coeff (s.pushWords l).fb j) := by
  induction l using List.reverseRecOn with
  | nil => exact .inr ⟨by simp, hfresh.1 j hj⟩
  | append_singleton l w ih =>
    have hwp : l.length % (2 * s.params.n) < (s.pushWords l).fb.length := by
      rw [length_pushWords_fb, hlen]
      exact Nat.mod_lt _ (by omega)
    rw [pushWords_concat, pushFold_fb, pushWords_wp l hfresh.2, coeff_set j w hwp]
    exact holdsAt_concat ih

theorem foldFresh_clearFold (s : State) : foldFresh s.clearFold := ⟨fun j _ => coeff_replicate_zero _ j, rfl⟩

theorem foldFresh_resetUnit (s : State) : foldFresh (resetUnit s) := ⟨fun j _ => coeff_replicate_zero _ j, rfl⟩

theorem executable_fold {s : State} {rd : RegNum} (h : rd < s.params.nr) : Executable (.fold rd) s := by
  simpa [Executable, usedRegs, immediateOf, sourceRegs] using h

theorem executable_fbclr (s : State) : Executable .fbclr s := by
  simp [Executable, usedRegs, immediateOf, sourceRegs]

/-- Settles O43; the list is taken from its end. -/
theorem foldBufferFreshness : Obligations.FoldBufferFreshness := by
  refine ⟨fun s t h => ?_, fun s t rd h hrd => ?_, fun s t h => ?_, fun s l hs good hfresh => ?_⟩
  · cases h; exact foldFresh_resetUnit s
  · rw [exec_of_executable (executable_fold hrd)] at h
    cases h; exact foldFresh_clearFold _
  · rw [exec_of_executable (executable_fbclr s)] at h
    cases h; exact foldFresh_clearFold s
  · obtain ⟨-, hm, -, -⟩ := wf_iff.1 hs
    obtain ⟨-, -, -, hlen, -⟩ := memory_wf_iff.1 hm
    exact ⟨s.pushWords l, runLines_dins l good, pushWords_keepsRegs s l, by simpa using good, pushWords_wp l hfresh.2,
      fun j hj => pushWords_holdsAt l (n_pos_of_wf hs) hlen hfresh hj⟩

/-! ### What no host can observe (10_state.md R11, R18) -/

/-- `s` with other words in the ring registers and in the output buffer. -/
def State.withContents (s : State) (regs : List RingElt) (ob : List Word) : State := { s with regs := regs, ob := ob }

/-- The other words differ from those of `s` only where no host can look. -/
def HiddenDifference (s : State) (regs : List RingElt) (ob : List Word) : Prop :=
  (∀ r, s.isValid r = true → s.reg r = regs.getD r []) ∧ (s.ovalid = true → s.ob = ob)

theorem sameVisible_withContents {s : State} {regs : List RingElt} {ob : List Word} (h : HiddenDifference s regs ob) :
    SameVisible s (s.withContents regs ob) :=
  ⟨rfl, rfl, h.1, rfl, rfl, rfl, h.2, rfl, rfl, rfl, rfl, rfl, rfl, rfl, rfl, rfl⟩

/-- Two states that look the same differ in two fields only. -/
theorem sameVisible_iff {s t : State} :
    SameVisible s t ↔ ∃ regs ob, t = s.withContents regs ob ∧ HiddenDifference s regs ob := by
  constructor
  · rintro ⟨hparams, hvalid, hregs, hfb, hwp, hovalid, hob, hrp, heq, hflt, hcode, hpending, hobserved, hrandom, hnoise,
      hfreeIx⟩
    refine ⟨t.regs, t.ob, ?_, hregs, hob⟩
    cases s; cases t
    simp_all [State.withContents]
  · rintro ⟨regs, ob, rfl, h⟩
    exact sameVisible_withContents h

theorem SameVisible.refl (s : State) : SameVisible s s := sameVisible_withContents ⟨fun _ _ => rfl, fun _ => rfl⟩

/-! Each update of the state, done to both of two states that look the same, leaves two such states. -/

section
variable {s t : State} (h : SameVisible s t)
include h

/-- The rule for an update that commutes with other contents and leaves hidden what is hidden. -/
theorem SameVisible.update (f : State → State)
    (commutes : ∀ s regs ob, f (s.withContents regs ob) = (f s).withContents regs ob)
    (hides : ∀ s regs ob, HiddenDifference s regs ob → HiddenDifference (f s) regs ob) : SameVisible (f s) (f t) := by
  obtain ⟨regs, ob, rfl, hidden⟩ := sameVisible_iff.1 h
  rw [commutes]
  exact sameVisible_withContents (hides s regs ob hidden)

theorem SameVisible.setReg {rd : RegNum} (v : RingElt) (hs : rd < s.regs.length) (ht : rd < t.regs.length) :
    SameVisible (s.setReg rd v) (t.setReg rd v) := by
  obtain ⟨regs, ob, rfl, hregs, hob⟩ := sameVisible_iff.1 h
  refine sameVisible_withContents (regs := regs.set rd v) ⟨fun r hr => ?_, hob⟩
  by_cases e : r = rd
  · subst e
    exact (reg_setReg_self s v hs).trans (reg_setReg_self (s.withContents regs ob) v ht).symm
  · rw [isValid_setReg_ne s v e] at hr
    rw [reg_setReg_ne s v e, hregs r hr]
    exact (reg_setReg_ne (s.withContents regs ob) v e).symm

theorem SameVisible.setOutput (v : RingElt) : SameVisible (s.setOutput v) (t.setOutput v) := by
  obtain ⟨regs, ob, rfl, hregs, hob⟩ := sameVisible_iff.1 h
  exact sameVisible_withContents (ob := (s.setOutput v).ob) ⟨hregs, fun _ => rfl⟩

theorem SameVisible.clearFold : SameVisible s.clearFold t.clearFold :=
  h.update State.clearFold (fun _ _ _ => rfl) fun _ _ _ => id

theorem SameVisible.pushFold (w : Word) : SameVisible (s.pushFold w) (t.pushFold w) :=
  h.update (State.pushFold · w) (fun _ _ _ => rfl) fun _ _ _ => id

theorem SameVisible.setEq (e : Bool) : SameVisible (s.setEq e) (t.setEq e) :=
  h.update (State.setEq · e) (fun _ _ _ => rfl) fun _ _ _ => id

theorem SameVisible.advanceOut : SameVisible s.advanceOut t.advanceOut :=
  h.update State.advanceOut (fun _ _ _ => rfl) fun _ _ _ => id

theorem SameVisible.observe (w : Word) : SameVisible (s.observe w) (t.observe w) :=
  h.update (State.observe · w) (fun _ _ _ => rfl) fun _ _ _ => id

theorem SameVisible.observeFree : SameVisible s.observeFree t.observeFree :=
  h.update State.observeFree (fun _ _ _ => rfl) fun _ _ _ => id

theorem SameVisible.withPending (p : List Transaction) : SameVisible (s.withPending p) (t.withPending p) :=
  h.update (State.withPending · p) (fun _ _ _ => rfl) fun _ _ _ => id

theorem SameVisible.withRandom (p : Source RandomAnswer) :
    SameVisible { s with random := p } { t with random := p } :=
  h.update (fun s => { s with random := p }) (fun _ _ _ => rfl) fun _ _ _ => id

theorem SameVisible.withNoise (p : Source Word) : SameVisible { s with noise := p } { t with noise := p } :=
  h.update (fun s => { s with noise := p }) (fun _ _ _ => rfl) fun _ _ _ => id

theorem SameVisible.raiseFault (c : FaultCode) :
    SameVisible (Machine.raiseFault c s) (Machine.raiseFault c t) := by
  obtain ⟨regs, ob, rfl, hidden⟩ := sameVisible_iff.1 h
  cases hf : s.flt with
  | true => rwa [raiseFault_of_faulted c hf, raiseFault_of_faulted c (s := s.withContents regs ob) hf]
  | false =>
    rw [raiseFault_of_good c hf, raiseFault_of_good c (s := s.withContents regs ob) hf]
    exact sameVisible_withContents hidden

/-- What reset leaves depends on no register and not on the output buffer. -/
theorem SameVisible.resetUnit : SameVisible (Machine.resetUnit s) (Machine.resetUnit t) := by
  obtain ⟨regs, ob, rfl, -⟩ := sameVisible_iff.1 h
  exact SameVisible.refl _

/-- What the unit may look at is the same. -/
theorem SameVisible.fields_eq :
    t.params = s.params ∧ t.fb = s.fb ∧ t.ovalid = s.ovalid ∧ t.rp = s.rp ∧ t.flt = s.flt ∧ t.pending = s.pending ∧
      t.observed = s.observed ∧ t.random = s.random ∧ t.noise = s.noise := by
  obtain ⟨regs, ob, rfl, -⟩ := sameVisible_iff.1 h
  exact ⟨rfl, rfl, rfl, rfl, rfl, rfl, rfl, rfl, rfl⟩

theorem SameVisible.reg_eq {r : RegNum} (hr : s.isValid r = true) : t.reg r = s.reg r := by
  obtain ⟨regs, ob, rfl, hregs, -⟩ := sameVisible_iff.1 h
  exact (hregs r hr).symm

theorem SameVisible.ob_eq (hv : s.ovalid = true) : t.ob = s.ob := by
  obtain ⟨regs, ob, rfl, -, hob⟩ := sameVisible_iff.1 h
  exact (hob hv).symm

theorem SameVisible.statusWord_eq : statusWord t = statusWord s := by
  obtain ⟨regs, ob, rfl, -⟩ := sameVisible_iff.1 h
  rfl

/-- The checks of a command look at valid bits, never at contents. -/
theorem SameVisible.commandFault_eq (used : List RegNum) (imm : Option Nat) (sources : List RegNum) :
    commandFault t used imm sources = commandFault s used imm sources := by
  obtain ⟨regs, ob, rfl, -⟩ := sameVisible_iff.1 h
  rfl

end

/-! ### The same step from two states that look the same -/

/-- The effect of a command whose checks pass: its sources are valid, so it reads the same words in both states. -/
theorem SameVisible.effectOf {i : Instr} {s t : State} (h : SameVisible s t) (hs : Memory.wf s = true)
    (ht : Memory.wf t = true) (ok : Executable i s) : SameVisible (effectOf i s) (effectOf i t) := by
  obtain ⟨hparams, hfb, -, -, -, -, -, hrandom, hnoise⟩ := h.fields_eq
  have write : ∀ rd, destReg i = some rd → ∀ v, SameVisible (s.setReg rd v) (t.setReg rd v) := by
    intro rd hd v
    have hrd : rd < s.params.nr := ok.1 rd (mem_usedRegs_of_destReg hd)
    refine h.setReg v ?_ ?_
    · rwa [(memory_wf_iff.1 hs).1]
    · rwa [(memory_wf_iff.1 ht).1, hparams]
  have source : ∀ r ∈ sourceRegs i, t.reg r = s.reg r := fun r hr => h.reg_eq (ok.2.2 r hr)
  cases i with
  | zero rd =>
    simp only [Machine.effectOf, hparams]
    exact write rd rfl _
  | fold rd =>
    simp only [Machine.effectOf, hparams, hfb]
    exact (write rd rfl _).clearFold
  | fbclr => exact h.clearFold
  | st rs1 =>
    simp only [Machine.effectOf, source rs1 (by simp [sourceRegs])]
    exact h.setOutput _
  | add rd rs1 rs2 | sub rd rs1 rs2 | mul rd rs1 rs2 =>
    simp only [Machine.effectOf, hparams, source rs1 (by simp [sourceRegs]), source rs2 (by simp [sourceRegs])]
    exact write rd rfl _
  | cmpeq rs1 rs2 =>
    simp only [Machine.effectOf, hparams, source rs1 (by simp [sourceRegs]), source rs2 (by simp [sourceRegs])]
    exact h.setEq _
  | enc rd rs1 imm | dec rd rs1 imm =>
    simp only [Machine.effectOf, hparams, source rs1 (by simp [sourceRegs])]
    exact write rd rfl _
  | addn rd rs1 =>
    simp only [Machine.effectOf, hparams, hnoise, source rs1 (by simp [sourceRegs])]
    exact (write rd rfl _).withNoise _
  | rndu rd | rndb rd =>
    simp only [Machine.effectOf, hparams, hrandom]
    exact (write rd rfl _).withRandom _

/-- Two steps answer next states that look the same, or are refused for the same reason. -/
inductive SameOutcome : Result → Result → Prop
  | next {s t : State} (h : SameVisible s t) : SameOutcome (.next s) (.next t)
  | refused (r : Refusal) : SameOutcome (.refused r) (.refused r)

theorem SameOutcome.of_next {s : State} {o : Result} (h : SameOutcome (.next s) o) :
    ∃ t, o = .next t ∧ SameVisible s t := by
  cases h with
  | next h => exact ⟨_, rfl, h⟩

theorem SameOutcome.of_refused {r : Refusal} {o : Result} (h : SameOutcome (.refused r) o) : o = .refused r := by
  cases h with
  | refused => rfl

theorem sameOutcome_strayAccess (p : Params) (addr size : Nat) :
    SameOutcome (strayAccess p addr size) (strayAccess p addr size) := by
  unfold strayAccess
  split <;> exact .refused _

section
variable {s t : State} (h : SameVisible s t)
include h

theorem SameVisible.readDout : SameVisible (readDout s) (readDout t) := by
  obtain ⟨-, -, hovalid, hrp, hflt, -⟩ := h.fields_eq
  unfold Machine.readDout
  rw [hflt, hovalid, hrp]
  split
  · exact h.observeFree
  · split
    · next hv => rw [h.ob_eq hv]; exact (h.observe _).advanceOut
    · exact (h.raiseFault _).observeFree

theorem SameVisible.readPort (p : ReadPort) : SameVisible (readPort p s) (readPort p t) := by
  obtain ⟨hparams, -⟩ := h.fields_eq
  cases p with
  | status =>
    simp only [Machine.readPort, readStatus, h.statusWord_eq]
    exact h.observe _
  | dout => exact h.readDout
  | paramN =>
    simp only [Machine.readPort, readParamN, hparams]
    exact h.observe _
  | paramNR =>
    simp only [Machine.readPort, readParamNR, hparams]
    exact h.observe _

theorem SameVisible.busReadAt (off : Nat) : SameVisible (busReadAt off s) (busReadAt off t) := by
  unfold Machine.busReadAt
  split
  · exact h.readPort _
  split
  · exact h.readPort _
  split
  · exact h.readPort _
  split
  · exact h.readPort _
  · exact h.observe 0

theorem SameVisible.writeDin (w : Word) : SameVisible (writeDin w s) (writeDin w t) := by
  obtain ⟨-, -, -, -, hflt, -⟩ := h.fields_eq
  unfold Machine.writeDin
  rw [hflt]
  split
  · exact h
  · exact h.pushFold w

variable (hs : Memory.wf s = true) (ht : Memory.wf t = true)
include hs ht

theorem SameVisible.exec (i : Instr) : SameOutcome (exec i s) (exec i t) := by
  rw [exec_eq_command, exec_eq_command, command, command, h.commandFault_eq]
  split
  · exact .next (h.raiseFault _)
  · next hc => exact .next (h.effectOf hs ht (commandFault_eq_none.1 hc))

theorem SameVisible.writeCmd (w : Word) : SameOutcome (writeCmd w s) (writeCmd w t) := by
  obtain ⟨-, -, -, -, hflt, -⟩ := h.fields_eq
  unfold Machine.writeCmd
  rw [hflt]
  split
  · exact .next h
  · split
    · exact h.exec hs ht _
    · exact .next (h.raiseFault _)

theorem SameVisible.writePort (p : WritePort) (w : Word) : SameOutcome (writePort p w s) (writePort p w t) := by
  cases p with
  | cmd => exact h.writeCmd hs ht w
  | din => exact .next (h.writeDin w)

theorem SameVisible.busWriteAt (off : Nat) (w : Word) : SameOutcome (busWriteAt off w s) (busWriteAt off w t) := by
  unfold Machine.busWriteAt
  split
  · exact h.writePort hs ht _ w
  split
  · exact h.writePort hs ht _ w
  · exact .next h

theorem SameVisible.perform (tr : Transaction) : SameOutcome (perform tr s) (perform tr t) := by
  obtain ⟨hparams, -⟩ := h.fields_eq
  cases tr with
  | portWrite p w => exact h.writePort hs ht p w
  | portRead p => exact .next (h.readPort p)
  | busWrite addr bytes =>
    simp only [Machine.perform, busWrite, hparams]
    split
    · exact h.busWriteAt hs ht _ _
    · exact sameOutcome_strayAccess _ _ _
  | busRead addr size =>
    simp only [Machine.perform, busRead, hparams]
    split
    · exact .next (h.busReadAt _)
    · exact sameOutcome_strayAccess _ _ _
  | reset => exact .next h.resetUnit

theorem SameVisible.step : SameOutcome (step s) (step t) := by
  obtain ⟨-, -, -, -, -, hpending, -⟩ := h.fields_eq
  unfold Machine.step nextTransaction
  rw [hpending]
  cases s.pending with
  | nil => exact .next h
  | cons tr rest => exact (h.withPending rest).perform hs ht tr

end

/-- Settles O44: two states that look the same step to the same outcome, transaction by transaction. -/
theorem invalidContentsCannotBeObserved : Obligations.InvalidContentsCannotBeObserved := by
  intro s t hs ht h
  have same := h.step hs ht
  refine ⟨fun s' hs' => ?_, fun r hr => ?_⟩
  · rw [hs'] at same
    obtain ⟨t', ht', h'⟩ := same.of_next
    obtain ⟨-, -, -, -, -, -, hobserved, -⟩ := h'.fields_eq
    exact ⟨t', ht', h', hobserved.symm⟩
  · rw [hr] at same
    exact same.of_refused

end Sys2Proof.Machine
end

section
/-! SUPPORT. The memory family (20_memory.md): what one transaction is at each port, and the bus binding over the same
ports. -/

namespace Sys2Proof.Machine

/-! ### Steps -/

theorem step_of_pending_nil {s : State} (h : s.pending = []) : step s = .next s := by
  simp only [step, nextTransaction, h]

theorem step_of_pending_cons {s : State} {tr : Transaction} {rest : List Transaction} (h : s.pending = tr :: rest) :
    step s = perform tr { s with pending := rest } := by
  simp only [step, nextTransaction, h]

/-- Settles O25, by the two shapes of the host's list. -/
theorem stepPerformsTheNextTransaction : Obligations.StepPerformsTheNextTransaction :=
  ⟨fun _ => step_of_pending_nil, fun _ _ _ => step_of_pending_cons⟩

/-! ### The ports, by the state that the unit is in -/

/-- A CMD write of a command's word is that command (30_encoding.md R55). -/
theorem writeCmd_of_decode_ok {s : State} {w : Word} {i : Instr} (good : s.flt = false) (h : decode w = .ok i) :
    writeCmd w s = exec i s := by
  simp [writeCmd, good, h]

theorem writeDin_of_faulted {s : State} (w : Word) (h : s.flt = true) : writeDin w s = s := by
  simp [writeDin, h]

theorem writeDin_of_good {s : State} (w : Word) (h : s.flt = false) : writeDin w s = s.pushFold w := by
  simp [writeDin, h]

theorem readDout_of_faulted {s : State} (h : s.flt = true) : readDout s = s.observeFree := by
  simp [readDout, h]

theorem readDout_of_empty {s : State} (good : s.flt = false) (empty : s.ovalid = false) :
    readDout s = (raiseFault .obEmpty s).observeFree := by
  simp [readDout, good, empty]

theorem readDout_of_full {s : State} (good : s.flt = false) (full : s.ovalid = true) :
    readDout s = (s.observe (coeff s.ob s.rp)).advanceOut := by
  simp [readDout, good, full]

/-- Settles O26: the step is the CMD write, and that is the command. -/
theorem stepRunsTheDecodedCommand : Obligations.StepRunsTheDecodedCommand := by
  intro s w rest i hpending good hdecode
  calc step s = perform (.portWrite .cmd w) { s with pending := rest } := step_of_pending_cons hpending
    _ = writeCmd w { s with pending := rest } := rfl
    _ = exec i { s with pending := rest } := writeCmd_of_decode_ok good hdecode

/-- Settles O27: with no fault recorded the next state is `pushFold`, whose one new word `coeff_set` finds. -/
theorem dinWriteStoresAndAdvances : Obligations.DinWriteStoresAndAdvances := by
  refine fun s w => ⟨fun h => congrArg _ (writeDin_of_faulted w h), fun hm hwp good => ?_⟩
  obtain ⟨-, -, -, hlen, -⟩ := memory_wf_iff.1 hm
  have stored (j : Nat) : coeff (s.pushFold w).fb j = if j = s.wp then w else coeff s.fb j :=
    coeff_set j w (hlen ▸ hwp)
  refine ⟨s.pushFold w, congrArg _ (writeDin_of_good w good), ?_, fun j hj => ?_, ?_, rfl, fun _ => ⟨rfl, rfl⟩,
    ⟨rfl, rfl, rfl⟩, rfl, ⟨rfl, rfl⟩, ⟨rfl, rfl⟩, ⟨rfl, rfl, rfl, rfl⟩⟩
  · rw [stored, if_pos rfl]
  · rw [stored, if_neg hj]
  · rw [pushFold_fb, List.length_set]

/-- Settles O28, one clause for each case of R34. -/
theorem doutReadReturnsTheNextWord : Obligations.DoutReadReturnsTheNextWord := by
  refine fun s => ⟨fun faulted => ⟨Config.unspecified s.freeIx, ?_⟩,
    fun good empty => ⟨Config.unspecified s.freeIx, ?_⟩, fun good full => ?_⟩
  · exact congrArg _ (readDout_of_faulted faulted)
  · calc perform (.portRead .dout) s = .next (raiseFault .obEmpty s).observeFree :=
          congrArg _ (readDout_of_empty good empty)
      _ = _ := by rw [raiseFault_of_good _ good]; rfl
  · exact congrArg _ (readDout_of_full good full)

/-! ### Byte lanes (20_memory.md R37) -/

/-- Four bytes make the word that has the byte at the lowest address in its bits 7:0. -/
theorem wordOfBytes_four (b0 b1 b2 b3 : Byte) : wordOfBytes [b0, b1, b2, b3] = b3 ++ b2 ++ b1 ++ b0 := by
  rw [← BitVec.setWidth_eq (b3 ++ b2 ++ b1 ++ b0), BitVec.setWidth_append_append_append_eq_shiftLeft_setWidth_or]
  simp [wordOfBytes, BitVec.shiftLeft_or_distrib, BitVec.or_comm]

theorem bytesOfWord_append (b0 b1 b2 b3 : Byte) : bytesOfWord (b3 ++ b2 ++ b1 ++ b0) = [b0, b1, b2, b3] := by
  have lane1 : (b3 ++ b2 ++ b1 ++ b0).extractLsb' 8 8 = b1 := by
    rw [BitVec.extractLsb'_append_eq_of_le (by decide)]
    exact BitVec.extractLsb'_append_eq_right
  have lane2 : (b3 ++ b2 ++ b1 ++ b0).extractLsb' 16 8 = b2 := by
    rw [BitVec.extractLsb'_append_eq_of_le (by decide), BitVec.extractLsb'_append_eq_of_le (by decide)]
    exact BitVec.extractLsb'_append_eq_right
  have lane3 : (b3 ++ b2 ++ b1 ++ b0).extractLsb' 24 8 = b3 := by
    rw [BitVec.extractLsb'_append_eq_of_le (by decide), BitVec.extractLsb'_append_eq_of_le (by decide)]
    exact BitVec.extractLsb'_append_eq_left
  rw [bytesOfWord, BitVec.extractLsb'_append_eq_right, lane1, lane2, lane3]

/-- A word is its four bytes, one above the other: each `rw` joins the two topmost runs of bits. -/
theorem wordOfBytes_bytesOfWord (w : Word) : wordOfBytes (bytesOfWord w) = w := by
  rw [bytesOfWord, wordOfBytes_four, BitVec.extractLsb'_append_extractLsb'_eq_extractLsb' (by rfl),
    BitVec.extractLsb'_append_extractLsb'_eq_extractLsb' (by rfl),
    BitVec.extractLsb'_append_extractLsb'_eq_extractLsb' (by rfl)]
  exact BitVec.extractLsb'_eq_self

/-- Byte `k` of a word is its bits `8k+7 : 8k`. -/
theorem getElem?_bytesOfWord (w : Word) {k : Nat} (hk : k < 4) :
    (bytesOfWord w)[k]? = some (w.extractLsb' (8 * k) 8) := by
  match k with
  | 0 | 1 | 2 | 3 => rfl

/-- Settles O32: each direction lane by lane, and each undoing the other. -/
theorem byteLanesAreLittleEndian : Obligations.ByteLanesAreLittleEndian := by
  refine ⟨fun w => ⟨length_bytesOfWord w, fun _ => getElem?_bytesOfWord w, wordOfBytes_bytesOfWord w⟩,
    fun b0 b1 b2 b3 => ⟨wordOfBytes_four b0 b1 b2 b3, ?_⟩⟩
  rw [wordOfBytes_four, bytesOfWord_append]

/-! ### The bus binding (20_memory.md R33) -/

theorem isWordAccess_iff {p : Params} {addr size : Nat} :
    isWordAccess p addr size = true ↔
      size = 4 ∧ p.base ≤ addr ∧ addr < p.base + 32 ∧ (addr - p.base) % 4 = 0 := by
  simp [isWordAccess, and_assoc]

theorem isWordAccess_offset (p : Params) {off : Nat} (h : off < 32 ∧ off % 4 = 0) :
    isWordAccess p (p.base + off) 4 = true := by
  rw [isWordAccess_iff]
  omega

/-- A word written inside the window is a write at its offset from BASE. -/
theorem perform_busWrite_word (s : State) (w : Word) {off : Nat} (h : off < 32 ∧ off % 4 = 0) :
    perform (.busWrite (s.params.base + off) (bytesOfWord w)) s = busWriteAt off w s := by
  simp [perform, busWrite, isWordAccess_offset s.params h, wordOfBytes_bytesOfWord]

/-- A word read inside the window is a read at its offset from BASE. -/
theorem perform_busRead_word (s : State) {off : Nat} (h : off < 32 ∧ off % 4 = 0) :
    perform (.busRead (s.params.base + off) 4) s = .next (busReadAt off s) := by
  simp [perform, busRead, isWordAccess_offset s.params h]

theorem busWriteAt_of_unbound {off : Nat} (w : Word) (s : State) (h : off ≠ 0x00 ∧ off ≠ 0x08) :
    busWriteAt off w s = .next s := by
  simp [busWriteAt, h]

theorem busReadAt_of_unbound {off : Nat} (s : State) (h : off ≠ 0x04 ∧ off ≠ 0x0C ∧ off ≠ 0x10 ∧ off ≠ 0x14) :
    busReadAt off s = s.observe 0 := by
  simp [busReadAt, h]

/-- Settles O30: the eight offsets are words of the window, and at each the binding names its port. -/
theorem busWindowBindsThePorts : Obligations.BusWindowBindsThePorts := by
  intro s w _
  refine ⟨perform_busWrite_word s w (by decide), perform_busWrite_word s w (by decide), fun off hoff => ?_,
    perform_busRead_word s (by decide), perform_busRead_word s (by decide), perform_busRead_word s (by decide),
    perform_busRead_word s (by decide), fun off hoff => ?_⟩
  · have ignored : ∀ off ∈ [0x04, 0x0C, 0x10, 0x14, 0x18, 0x1C],
        (off < 32 ∧ off % 4 = 0) ∧ off ≠ 0x00 ∧ off ≠ 0x08 := by decide
    obtain ⟨hword, hunbound⟩ := ignored off hoff
    rw [perform_busWrite_word s w hword, busWriteAt_of_unbound w s hunbound]
  · have zero : ∀ off ∈ [0x00, 0x08, 0x18, 0x1C],
        (off < 32 ∧ off % 4 = 0) ∧ off ≠ 0x04 ∧ off ≠ 0x0C ∧ off ≠ 0x10 ∧ off ≠ 0x14 := by decide
    obtain ⟨hword, hunbound⟩ := zero off hoff
    rw [perform_busRead_word s hword, busReadAt_of_unbound s hunbound]
    rfl

/-! ### Stray accesses (20_memory.md R38) -/

/-- Above a word-aligned BASE, an offset is aligned exactly if the address is. -/
theorem isWordAccess_eq_false {p : Params} {addr size : Nat} (hbase : p.base % 4 = 0) (h : size ≠ 4 ∨ addr % 4 ≠ 0) :
    isWordAccess p addr size = false := by
  rw [Bool.eq_false_iff, ne_eq, isWordAccess_iff]
  omega

theorem strayAccess_of_touches {p : Params} {addr size : Nat} (hlow : addr < p.base + 32)
    (hhigh : p.base < addr + size) : strayAccess p addr size = .refused (.notAWordAccess addr size) := by
  simp [strayAccess, touchesWindow, hlow, hhigh]

theorem perform_busWrite_stray {s : State} {addr : Nat} {bytes : List Byte}
    (h : isWordAccess s.params addr bytes.length = false) :
    perform (.busWrite addr bytes) s = strayAccess s.params addr bytes.length := by
  simp [perform, busWrite, h]

theorem perform_busRead_stray {s : State} {addr size : Nat} (h : isWordAccess s.params addr size = false) :
    perform (.busRead addr size) s = strayAccess s.params addr size := by
  simp [perform, busRead, h]

/-- Settles O31: no such access is one word of the window, and the reason is the window it touches. -/
theorem subWordAndMisalignedAccessesAreRefused : Obligations.SubWordAndMisalignedAccessesAreRefused := by
  rintro s addr size bytes hbase hlow hhigh hbad rfl
  have hstray := isWordAccess_eq_false hbase hbad
  have hrefused := strayAccess_of_touches hlow hhigh
  exact ⟨(perform_busRead_stray hstray).trans hrefused, (perform_busWrite_stray hstray).trans hrefused⟩

end Sys2Proof.Machine
end

section
/-! SUPPORT. The encoding family (30_encoding.md): the decoder against the encoder and against the opcode map, and the
CMD write of a word that is no command. -/

namespace Sys2Proof

/-! ### Fields and rows -/

@[simp] theorem fitsField_iff {x : Nat} : fitsField x = true ↔ x < 256 := decide_eq_true_iff

@[simp] theorem aField_lt (w : Word) : aField w < 256 := BitVec.isLt _

@[simp] theorem bField_lt (w : Word) : bField w < 256 := BitVec.isLt _

@[simp] theorem cField_lt (w : Word) : cField w < 256 := BitVec.isLt _

/-- A mask leaves a field as it is where it has all of that field's bits. -/
theorem fields_and (w v : Word) :
    (opField v = 0xFF#8 → opField (w &&& v) = opField w) ∧ (aField v = 0xFF → aField (w &&& v) = aField w) ∧
      (bField v = 0xFF → bField (w &&& v) = bField w) ∧ (cField v = 0xFF → cField (w &&& v) = cField w) := by
  have keep {x y : Byte} (h : y = 0xFF#8) : x &&& y = x := by
    subst h
    exact BitVec.and_allOnes
  have keepField (k : Nat) (h : (v.extractLsb' k 8).toNat = 0xFF) :
      ((w &&& v).extractLsb' k 8).toNat = (w.extractLsb' k 8).toNat := by
    rw [BitVec.extractLsb'_and, keep (BitVec.eq_of_toNat_eq h)]
  refine ⟨fun h => ?_, keepField 16, keepField 8, keepField 0⟩
  rw [opField, BitVec.extractLsb'_and]
  exact keep h

/-- A word that matches a row of R53 has the row's `op` value, and zero in each field that the row's mask keeps. -/
theorem fields_of_rowMatches {m : String} {op : Byte} {a b c : Nat} {w : Word}
    (h : rowMatches ⟨m, packFields op 0 0 0, packFields 0xFF a b c⟩ w = true) :
    opField w = op ∧ (a = 0xFF → aField w = 0) ∧ (b = 0xFF → bField w = 0) ∧ (c = 0xFF → cField w = 0) := by
  obtain ⟨maskOp, maskA, maskB, maskC⟩ := fields_of_packFields 0xFF a b c
  obtain ⟨patternOp, patternA, patternB, patternC⟩ := fields_of_packFields op 0 0 0
  obtain ⟨keptOp, keptA, keptB, keptC⟩ := fields_and w (packFields 0xFF a b c)
  rw [eq_of_beq h] at keptOp keptA keptB keptC
  refine ⟨(keptOp maskOp).symm.trans patternOp, ?_, ?_, ?_⟩
  · rintro rfl
    exact (keptA maskA).symm.trans patternA
  · rintro rfl
    exact (keptB maskB).symm.trans patternB
  · rintro rfl
    exact (keptC maskC).symm.trans patternC

theorem rowOf_mem_opcodeRows (i : Instr) : rowOf i ∈ opcodeRows := by
  cases i <;> simp [opcodeRows, rowSamples, rowOf]

/-- The word of a well-formed command matches the row of the command (R53). -/
theorem rowMatches_encode (i : Instr) (h : i.wellFormed = true) : rowMatches (rowOf i) (encode i) = true :=
  match i with
  | .zero rd => Laws.Encodes.zero rd h
  | .fold rd => Laws.Encodes.fold rd h
  | .fbclr => Laws.Encodes.fbclr h
  | .st rs1 => Laws.Encodes.st rs1 h
  | .add rd rs1 rs2 => Laws.Encodes.add rd rs1 rs2 h
  | .sub rd rs1 rs2 => Laws.Encodes.sub rd rs1 rs2 h
  | .mul rd rs1 rs2 => Laws.Encodes.mul rd rs1 rs2 h
  | .cmpeq rs1 rs2 => Laws.Encodes.cmpeq rs1 rs2 h
  | .enc rd rs1 imm => Laws.Encodes.enc rd rs1 imm h
  | .dec rd rs1 imm => Laws.Encodes.dec rd rs1 imm h
  | .addn rd rs1 => Laws.Encodes.addn rd rs1 h
  | .rndu rd => Laws.Encodes.rndu rd h
  | .rndb rd => Laws.Encodes.rndb rd h

/-! ### The command that a word of a row spells -/

/-- The command of the row of `i` whose operands are the fields of `w` (R50, R51). -/
def Instr.withFieldsOf (i : Instr) (w : Word) : Instr :=
  match i with
  | .zero _ => .zero (aField w)
  | .fold _ => .fold (aField w)
  | .fbclr => .fbclr
  | .st _ => .st (bField w)
  | .add .. => .add (aField w) (bField w) (cField w)
  | .sub .. => .sub (aField w) (bField w) (cField w)
  | .mul .. => .mul (aField w) (bField w) (cField w)
  | .cmpeq .. => .cmpeq (bField w) (cField w)
  | .enc .. => .enc (aField w) (bField w) (cField w)
  | .dec .. => .dec (aField w) (bField w) (cField w)
  | .addn .. => .addn (aField w) (bField w)
  | .rndu _ => .rndu (aField w)
  | .rndb _ => .rndb (aField w)

theorem rowOf_withFieldsOf (i : Instr) (w : Word) : rowOf (i.withFieldsOf w) = rowOf i := by
  cases i <;> rfl

/-- The fields of a well-formed command's word are its operands. -/
theorem withFieldsOf_encode {i : Instr} (h : i.wellFormed = true) : i.withFieldsOf (encode i) = i := by
  cases i <;>
    simp only [Instr.wellFormed, Bool.and_eq_true, fitsField_iff] at h <;>
    simp [Instr.withFieldsOf, encode, fields_of_packFields, Nat.mod_eq_of_lt, h]

/-- A word that matches the row of `i` decodes to the command of that row with the word's own operands: the bytes that
the row's mask keeps are the `op` value and the zeros that the row's format asks for (R51, R53). -/
theorem decode_of_rowMatches {i : Instr} {w : Word} (h : rowMatches (rowOf i) w = true) :
    decode w = .ok (i.withFieldsOf w) := by
  rw [decode_eq_ok]
  cases i with
  | zero rd =>
    simp [Instr.withFieldsOf, fields_of_rowMatches (op := 0x01) (a := 0x00) (b := 0xFF) (c := 0xFF) h]
  | fold rd =>
    simp [Instr.withFieldsOf, fields_of_rowMatches (op := 0x02) (a := 0x00) (b := 0xFF) (c := 0xFF) h]
  | fbclr =>
    simp [Instr.withFieldsOf, fields_of_rowMatches (op := 0x03) (a := 0xFF) (b := 0xFF) (c := 0xFF) h]
  | st rs1 =>
    simp [Instr.withFieldsOf, fields_of_rowMatches (op := 0x04) (a := 0xFF) (b := 0x00) (c := 0xFF) h]
  | add rd rs1 rs2 =>
    simp [Instr.withFieldsOf, fields_of_rowMatches (op := 0x10) (a := 0x00) (b := 0x00) (c := 0x00) h]
  | sub rd rs1 rs2 =>
    simp [Instr.withFieldsOf, fields_of_rowMatches (op := 0x11) (a := 0x00) (b := 0x00) (c := 0x00) h]
  | mul rd rs1 rs2 =>
    simp [Instr.withFieldsOf, fields_of_rowMatches (op := 0x12) (a := 0x00) (b := 0x00) (c := 0x00) h]
  | cmpeq rs1 rs2 =>
    simp [Instr.withFieldsOf, fields_of_rowMatches (op := 0x13) (a := 0xFF) (b := 0x00) (c := 0x00) h]
  | enc rd rs1 imm =>
    simp [Instr.withFieldsOf, fields_of_rowMatches (op := 0x20) (a := 0x00) (b := 0x00) (c := 0x00) h]
  | dec rd rs1 imm =>
    simp [Instr.withFieldsOf, fields_of_rowMatches (op := 0x21) (a := 0x00) (b := 0x00) (c := 0x00) h]
  | addn rd rs1 =>
    simp [Instr.withFieldsOf, fields_of_rowMatches (op := 0x22) (a := 0x00) (b := 0x00) (c := 0xFF) h]
  | rndu rd =>
    simp [Instr.withFieldsOf, fields_of_rowMatches (op := 0x30) (a := 0x00) (b := 0xFF) (c := 0xFF) h]
  | rndb rd =>
    simp [Instr.withFieldsOf, fields_of_rowMatches (op := 0x31) (a := 0x00) (b := 0xFF) (c := 0xFF) h]

/-! ### Decoding and encoding -/

theorem decode_encode {i : Instr} (h : i.wellFormed = true) : decode (encode i) = .ok i := by
  rw [decode_of_rowMatches (rowMatches_encode i h), withFieldsOf_encode h]

/-- Settles O1: the word matches the row of its command, and its fields are the operands. -/
theorem decodeOfEncodeIsIdentity : Obligations.DecodeOfEncodeIsIdentity :=
  fun _ => decode_encode

/-- Settles O2, row by row: the command's operands are the word's fields, and the fields that the command does not have
are zero, so packing the fields is encoding the command. -/
theorem encodeOfDecodeIsIdentity : Obligations.EncodeOfDecodeIsIdentity := by
  intro w i h
  have packed := packFields_fields w
  rcases decode_eq_ok.1 h with ⟨hop, hb, hc, rfl⟩ | ⟨hop, hb, hc, rfl⟩ | ⟨hop, ha, hb, hc, rfl⟩ | ⟨hop, ha, hc, rfl⟩ |
    ⟨hop, rfl⟩ | ⟨hop, rfl⟩ | ⟨hop, rfl⟩ | ⟨hop, ha, rfl⟩ | ⟨hop, rfl⟩ | ⟨hop, rfl⟩ | ⟨hop, hc, rfl⟩ |
    ⟨hop, hb, hc, rfl⟩ | ⟨hop, hb, hc, rfl⟩
  all_goals exact ⟨by simp [Instr.wellFormed], by simpa [encode, *] using packed⟩

/-- Settles O4, by running the decoder on each word. -/
theorem specWordsDecode : Obligations.SpecWordsDecode := by
  unfold Obligations.SpecWordsDecode
  decide

/-! ### The opcode map (30_encoding.md R53, R54) -/

theorem rowMatches_of_decode {w : Word} {i : Instr} (h : decode w = .ok i) : rowMatches (rowOf i) w = true := by
  obtain ⟨hwf, rfl⟩ := encodeOfDecodeIsIdentity w i h
  exact rowMatches_encode i hwf

theorem rowMatches_iff_decode {row : OpcodeRow} (hrow : row ∈ opcodeRows) {w : Word} :
    rowMatches row w = true ↔ ∃ i, decode w = .ok i ∧ rowOf i = row := by
  obtain ⟨i, -, rfl⟩ := List.mem_map.1 hrow
  constructor
  · intro h
    exact ⟨i.withFieldsOf w, decode_of_rowMatches h, rowOf_withFieldsOf i w⟩
  · rintro ⟨j, hdecode, hj⟩
    rw [← hj]
    exact rowMatches_of_decode hdecode

theorem decode_of_no_row {w : Word} (h : ∀ row ∈ opcodeRows, rowMatches row w = false) : ∃ e, decode w = .error e := by
  cases hdecode : decode w with
  | error e => exact ⟨e, rfl⟩
  | ok i =>
    have hmatch := rowMatches_of_decode hdecode
    rw [h (rowOf i) (rowOf_mem_opcodeRows i)] at hmatch
    contradiction

/-- Settles O3: a row that matches is the row of what the word decodes to, and a word decodes to one command. -/
theorem decodeFollowsOpcodeMap : Obligations.DecodeFollowsOpcodeMap := by
  refine fun w => ⟨fun r₁ h₁ r₂ h₂ m₁ m₂ => ?_, fun _ hrow => rowMatches_iff_decode hrow, decode_of_no_row⟩
  obtain ⟨i, hi, rfl⟩ := (rowMatches_iff_decode h₁).1 m₁
  obtain ⟨j, hj, rfl⟩ := (rowMatches_iff_decode h₂).1 m₂
  cases hi.symm.trans hj
  rfl

end Sys2Proof

namespace Sys2Proof.Machine

/-- A CMD write of a word that is no command records E_ILLEGAL (30_encoding.md R54). -/
theorem writeCmd_of_decode_error {s : State} {w : Word} {e : Reject} (good : s.flt = false)
    (h : decode w = .error e) : writeCmd w s = .next (faulted 0x01 s) := by
  simp [writeCmd, good, h, raiseFault_of_good, faulted, faultByte]

/-- Settles O5: a word of no row does not decode. -/
theorem illegalWordFaultsAndChangesNothingElse : Obligations.IllegalWordFaultsAndChangesNothingElse := by
  intro w s good h
  obtain ⟨e, he⟩ := decode_of_no_row h
  exact writeCmd_of_decode_error good he

end Sys2Proof.Machine
end

section
/-! SUPPORT. The ring family (40_ring_arith.md): each ring command's words, faults and effect, and the laws of the ring
of negacyclic polynomials that ADD, SUB and MUL compute in. -/

namespace Sys2Proof.Machine

open scoped Polynomial

/-! ### Illegal words and faulting commands -/

/-- A word that decodes to no command is illegal (30_encoding.md R54). -/
theorem illegal_of_decode_ne_ok {w : Word} (h : ∀ i, decode w ≠ .ok i) : Illegal w := by
  cases hdecode : decode w with
  | ok i => exact absurd hdecode (h i)
  | error e => exact ⟨⟨e, hdecode⟩, fun _ good => writeCmd_of_decode_error good hdecode⟩

theorem raiseFault_eq_faulted (c : FaultCode) {s : State} (good : s.flt = false) :
    raiseFault c s = faulted (faultByte c) s := raiseFault_of_good c good

/-- The first check of all is that of the register numbers (60_exceptions.md R155, step 2). -/
theorem commandFault_eq_reg {s : State} {used sources : List RegNum} {imm : Option Nat}
    (h : ∃ r ∈ used, s.params.nr ≤ r) : commandFault s used imm sources = some .reg := by
  have hany : used.any (fun r => decide (s.params.nr ≤ r)) = true := by simpa using h
  simp [commandFault, hany]

/-- A register number out of range in a used field records E_REG and changes nothing else (60_exceptions.md R152). -/
theorem exec_of_reg_out_of_range {i : Instr} {s : State} (good : s.flt = false)
    (h : ∃ r ∈ usedRegs i, s.params.nr ≤ r) : exec i s = .next (faulted 0x02 s) := by
  rw [exec_eq_command, command_of_some (commandFault_eq_reg h), raiseFault_eq_faulted _ good]
  rfl

/-- An invalid source, with every earlier check passed, records E_UNINIT and changes nothing else. -/
theorem exec_of_source_invalid {i : Instr} {s : State} (good : s.flt = false)
    (hused : ∀ r ∈ usedRegs i, r < s.params.nr) (himm : ∀ b, immediateOf i = some b → 1 ≤ b ∧ b ≤ 31)
    (hsrc : ∃ r ∈ sourceRegs i, s.isValid r = false) : exec i s = .next (faulted 0x03 s) := by
  rw [exec_eq_command, command_of_some (commandFault_eq_uninit hused himm hsrc), raiseFault_eq_faulted _ good]
  rfl

/-! ### Commands that write one register, lane by lane -/

theorem writesOnly_setReg_lanes {s : State} {rd : RegNum} (f : Nat → Word) (hm : Memory.wf s = true)
    (hrd : rd < s.params.nr) : WritesOnly rd f s (s.setReg rd (lanes s.params.n f)) := by
  obtain ⟨hregs, -, hvalid, -, -⟩ := memory_wf_iff.1 hm
  have hwritten := reg_setReg_self s (lanes s.params.n f) (hregs ▸ hrd)
  refine ⟨?_, fun i hi => ?_, isValid_setReg_self s _ (hvalid ▸ hrd), onlyRegChanges_setReg s rd _⟩
  · rw [hwritten, length_lanes]
  · rw [hwritten, coeff_lanes f hi]

/-- Settles O6: the zero element is the lanes of the constant 0. -/
theorem zeroWritesTheZeroElement : Obligations.ZeroWritesTheZeroElement := by
  refine ⟨fun w hop hb hc => ?_, fun w hop hbad => ?_, fun s rd hm good => ⟨fun hrd => ?_, fun hrd => ?_⟩⟩
  · exact decode_eq_ok.2 (by simp [hop, hb, hc])
  · refine illegal_of_decode_ne_ok fun i => ?_
    rcases hbad with h | h <;> simp [decode_eq_ok, hop, h]
  · exact exec_of_reg_out_of_range good ⟨rd, by simp [usedRegs], hrd⟩
  · exact ⟨_, exec_of_executable (by simp [Executable, usedRegs, immediateOf, sourceRegs, hrd]),
      writesOnly_setReg_lanes _ hm hrd⟩

/-- The three operand checks of format DSS and its effect, for a command that computes its destination lane by lane
from the state before it. -/
theorem exec_of_three_registers {i : Instr} {s : State} {rd rs1 rs2 : RegNum} (f : Nat → Word)
    (hused : usedRegs i = [rd, rs1, rs2]) (himm : immediateOf i = none) (hsrc : sourceRegs i = [rs1, rs2])
    (heffect : effectOf i s = s.setReg rd (lanes s.params.n f)) (hm : Memory.wf s = true) (good : s.flt = false) :
    (s.params.nr ≤ rd ∨ s.params.nr ≤ rs1 ∨ s.params.nr ≤ rs2 → exec i s = .next (faulted 0x02 s)) ∧
    (rd < s.params.nr → rs1 < s.params.nr → rs2 < s.params.nr → s.isValid rs1 = false ∨ s.isValid rs2 = false →
      exec i s = .next (faulted 0x03 s)) ∧
    (rd < s.params.nr → rs1 < s.params.nr → rs2 < s.params.nr → s.isValid rs1 = true → s.isValid rs2 = true →
      ∃ t, exec i s = .next t ∧ WritesOnly rd f s t) := by
  refine ⟨fun h => ?_, fun hrd hrs1 hrs2 hv => ?_, fun hrd hrs1 hrs2 hv1 hv2 => ?_⟩
  · exact exec_of_reg_out_of_range good (by simpa [hused] using h)
  · exact exec_of_source_invalid good (by simp [hused, hrd, hrs1, hrs2]) (by simp [himm]) (by simpa [hsrc] using hv)
  · have ok : Executable i s := by simp [Executable, hused, himm, hsrc, hrd, hrs1, hrs2, hv1, hv2]
    exact ⟨_, exec_of_executable ok, heffect ▸ writesOnly_setReg_lanes f hm hrd⟩

/-- Settles O10: ADD is a three-register command, and its lanes are the sums. -/
theorem addIsPointwiseAddition : Obligations.AddIsPointwiseAddition :=
  ⟨fun w hop => decode_eq_ok.2 (by simp [hop]), fun _ _ _ _ => exec_of_three_registers _ rfl rfl rfl rfl⟩

/-- Settles O11: SUB is a three-register command, and its lanes are the differences. -/
theorem subIsPointwiseSubtraction : Obligations.SubIsPointwiseSubtraction :=
  ⟨fun w hop => decode_eq_ok.2 (by simp [hop]), fun _ _ _ _ => exec_of_three_registers _ rfl rfl rfl rfl⟩

theorem mulPos_eq_sum (a b : RingElt) (i : Nat) :
    mulPos a b i = ∑ j ∈ Finset.range (i + 1), coeff a j * coeff b (i - j) := sum32_eq_sum _ _

/-- Settles O12: the two iterated sums are the sums over the index ranges of R80. -/
theorem mulIsNegacyclicConvolution : Obligations.MulIsNegacyclicConvolution := by
  refine ⟨fun w hop => decode_eq_ok.2 (by simp [hop]), fun s rd rs1 rs2 => ?_⟩
  simp only [← mulPos_eq_sum, ← mulNeg_eq_sum]
  exact exec_of_three_registers _ rfl rfl rfl rfl

/-! ### The commands on the buffers and on the flag -/

/-- Settles O7: the destination is written as by any register write, and clearing the buffer touches no register. -/
theorem foldSubtractsTheHalvesAndClears : Obligations.FoldSubtractsTheHalvesAndClears := by
  refine ⟨fun w hop hb hc => ?_, fun w hop hbad => ?_, fun s rd hm good => ⟨fun hrd => ?_, fun hrd => ?_⟩⟩
  · exact decode_eq_ok.2 (by simp [hop, hb, hc])
  · refine illegal_of_decode_ne_ok fun i => ?_
    rcases hbad with h | h <;> simp [decode_eq_ok, hop, h]
  · exact exec_of_reg_out_of_range good ⟨rd, by simp [usedRegs], hrd⟩
  · obtain ⟨hlength, hcoeff, hvalid, hregs, -, houtput, heq, hfault, hsources, hhost⟩ :=
      writesOnly_setReg_lanes (fun i => coeff s.fb i - coeff s.fb (i + s.params.n)) hm hrd
    exact ⟨_, exec_of_executable (executable_fold hrd), hlength, hcoeff, hvalid, hregs, List.length_replicate,
      coeff_replicate_zero _, rfl, houtput, heq, hfault, hsources, hhost⟩

/-- Settles O8: FBCLR has no operand that could fail a check. -/
theorem fbclrClearsTheFoldBuffer : Obligations.FbclrClearsTheFoldBuffer := by
  refine ⟨fun w hop ha hb hc => ?_, fun w hop hbad => ?_, fun s => ?_⟩
  · exact decode_eq_ok.2 (by simp [hop, ha, hb, hc])
  · refine illegal_of_decode_ne_ok fun i => ?_
    rcases hbad with h | h | h <;> simp [decode_eq_ok, hop, h]
  · exact ⟨s.clearFold, exec_of_executable (executable_fbclr s), List.length_replicate, coeff_replicate_zero _, rfl,
      fun _ => ⟨rfl, rfl⟩, ⟨rfl, rfl, rfl⟩, rfl, ⟨rfl, rfl⟩, ⟨rfl, rfl⟩, ⟨rfl, rfl, rfl, rfl⟩⟩

/-- Settles O9: the output buffer takes the register's `N` coefficients, which are all it has. -/
theorem stSnapshotsTheRegister : Obligations.StSnapshotsTheRegister := by
  refine ⟨fun w hop ha hc => ?_, fun w hop hbad => ?_,
    fun s rs1 hm good => ⟨fun hrs1 => ?_, fun hrs1 hv => ?_, fun hrs1 hv => ?_⟩⟩
  · exact decode_eq_ok.2 (by simp [hop, ha, hc])
  · refine illegal_of_decode_ne_ok fun i => ?_
    rcases hbad with h | h <;> simp [decode_eq_ok, hop, h]
  · exact exec_of_reg_out_of_range good ⟨rs1, by simp [usedRegs], hrs1⟩
  · exact exec_of_source_invalid good (by simp [usedRegs, hrs1]) (by simp [immediateOf]) ⟨rs1, by simp [sourceRegs], hv⟩
  · have ok : Executable (.st rs1) s := by simp [Executable, usedRegs, immediateOf, sourceRegs, hrs1, hv]
    exact ⟨_, exec_of_executable ok, lanes_coeff (length_reg hm hrs1), rfl, rfl, fun _ => ⟨rfl, rfl⟩, ⟨rfl, rfl⟩, rfl,
      ⟨rfl, rfl⟩, ⟨rfl, rfl⟩, ⟨rfl, rfl, rfl, rfl⟩⟩

theorem ringEq_iff_coeff {n : Nat} {a b : RingElt} : ringEq n a b = true ↔ ∀ i < n, coeff a i = coeff b i := by
  simp [ringEq]

theorem ringEq_iff_eq {n : Nat} {a b : RingElt} (ha : a.length = n) (hb : b.length = n) :
    ringEq n a b = true ↔ a = b :=
  ringEq_iff_coeff.trans ⟨ext_coeff ha hb, fun h _ _ => by rw [h]⟩

/-- Settles O13: the flag is `ringEq`, and registers of `N` coefficients that agree on all of them are equal. -/
theorem cmpeqSetsTheFlagByAllCoefficients : Obligations.CmpeqSetsTheFlagByAllCoefficients := by
  refine ⟨fun w hop ha => ?_, fun w hop ha => ?_,
    fun s rs1 rs2 hm good => ⟨fun h => ?_, fun hrs1 hrs2 hv => ?_, fun hrs1 hrs2 hv1 hv2 => ?_⟩⟩
  · exact decode_eq_ok.2 (by simp [hop, ha])
  · exact illegal_of_decode_ne_ok fun i => by simp [decode_eq_ok, hop, ha]
  · exact exec_of_reg_out_of_range good (by simpa [usedRegs] using h)
  · exact exec_of_source_invalid good (by simp [usedRegs, hrs1, hrs2]) (by simp [immediateOf])
      (by simpa [sourceRegs] using hv)
  · have ok : Executable (.cmpeq rs1 rs2) s := by
      simp [Executable, usedRegs, immediateOf, sourceRegs, hrs1, hrs2, hv1, hv2]
    exact ⟨_, exec_of_executable ok, ringEq_iff_coeff, ringEq_iff_eq (length_reg hm hrs1) (length_reg hm hrs2),
      fun _ => ⟨rfl, rfl⟩, ⟨rfl, rfl⟩, ⟨rfl, rfl, rfl⟩, ⟨rfl, rfl⟩, ⟨rfl, rfl⟩, ⟨rfl, rfl, rfl, rfl⟩⟩

/-! ### Coefficients of the arithmetic (40_ring_arith.md R78, R79) -/

theorem coeff_lanes_of_le {n i : Nat} (f : Nat → Word) (h : n ≤ i) : coeff (lanes n f) i = 0 :=
  coeff_of_length_le (by rwa [length_lanes])

/-- An element reads 0 beyond its `n` lanes, so where `f` is 0 there no bound on the lane is needed. -/
theorem coeff_lanes_of_zero_beyond {n : Nat} {f : Nat → Word} (h : ∀ i, n ≤ i → f i = 0) (i : Nat) :
    coeff (lanes n f) i = f i := by
  by_cases hi : i < n
  · exact coeff_lanes f hi
  · rw [coeff_lanes_of_le f (by omega), h i (by omega)]

@[simp] theorem coeff_ringZero (n i : Nat) : coeff (ringZero n) i = 0 := coeff_lanes_of_zero_beyond (fun _ _ => rfl) i

section
variable {n : Nat} {a b : RingElt} (ha : a.length = n) (hb : b.length = n)
include ha hb

theorem coeff_ringAdd (i : Nat) : coeff (ringAdd n a b) i = coeff a i + coeff b i :=
  coeff_lanes_of_zero_beyond (fun i hi => by simp [coeff_of_length_le, ha, hb, hi]) i

theorem coeff_ringSub (i : Nat) : coeff (ringSub n a b) i = coeff a i - coeff b i :=
  coeff_lanes_of_zero_beyond (fun i hi => by simp [coeff_of_length_le, ha, hb, hi]) i

end

theorem ringAdd_comm (n : Nat) (a b : RingElt) : ringAdd n a b = ringAdd n b a :=
  lanes_congr fun _ _ => add_comm _ _

/-- Settles O45: each law is that of the words, in every lane. -/
theorem additionLaws : Obligations.AdditionLaws := by
  refine fun n a b c ha => ⟨ringAdd_comm n a b, lanes_congr fun i hi => ?_, ?_⟩
  · calc coeff (ringAdd n a b) i + coeff c i = coeff a i + coeff b i + coeff c i := by rw [ringAdd, coeff_lanes _ hi]
      _ = coeff a i + (coeff b i + coeff c i) := add_assoc _ _ _
      _ = coeff a i + coeff (ringAdd n b c) i := by rw [ringAdd, coeff_lanes _ hi]
  · refine ext_coeff (length_ringAdd n a _) ha fun i _ => ?_
    rw [coeff_ringAdd ha (length_ringZero n), coeff_ringZero, add_zero]

/-! ### Ring elements as polynomials (00_scope.md R7) -/

/-- The polynomial with the coefficients of `a`. -/
noncomputable def toPoly (a : RingElt) : Word[X] := ∑ i ∈ Finset.range a.length, Polynomial.monomial i (coeff a i)

@[simp] theorem coeff_toPoly (a : RingElt) (i : Nat) : (toPoly a).coeff i = coeff a i := by
  simp only [toPoly, Polynomial.finsetSum_coeff, Polynomial.coeff_monomial, Finset.sum_ite_eq', Finset.mem_range]
  split
  · rfl
  · next h => exact (coeff_of_length_le (Nat.not_lt.1 h)).symm

theorem degree_toPoly_lt (a : RingElt) : (toPoly a).degree < a.length :=
  (Polynomial.degree_lt_iff_coeff_zero _ _).2 fun i hi => by rw [coeff_toPoly, coeff_of_length_le hi]

theorem toPoly_ringAdd {n : Nat} {a b : RingElt} (ha : a.length = n) (hb : b.length = n) :
    toPoly (ringAdd n a b) = toPoly a + toPoly b := by
  ext1 i; simp [coeff_ringAdd ha hb]

theorem toPoly_ringSub {n : Nat} {a b : RingElt} (ha : a.length = n) (hb : b.length = n) :
    toPoly (ringSub n a b) = toPoly a - toPoly b := by
  ext1 i; simp [coeff_ringSub ha hb]

@[simp] theorem toPoly_ringZero (n : Nat) : toPoly (ringZero n) = 0 := by
  ext1 i; simp

/-- `[1, 0, .., 0]`, the one of the ring (40_ring_arith.md R83). -/
def ringOne (n : Nat) : RingElt := lanes n fun i => if i = 0 then 1 else 0

@[simp] theorem length_ringOne (n : Nat) : (ringOne n).length = n := length_lanes ..

theorem toPoly_ringOne {n : Nat} (hn : 0 < n) : toPoly (ringOne n) = 1 := by
  ext1 i
  rw [coeff_toPoly, ringOne, coeff_lanes_of_zero_beyond fun i hi => if_neg (by omega), Polynomial.coeff_one]

/-! ### The plain convolution (40_ring_arith.md R83) -/

/-- The indices `j` with `a[j]` and `b[m - j]` both inside elements of length `n`. -/
def convIndices (n m : Nat) : Finset Nat := (Finset.range n).filter fun j => j ≤ m ∧ m - j < n

/-- `conv[m]` of R83. -/
def convAt (n : Nat) (a b : RingElt) (m : Nat) : Word := ∑ j ∈ convIndices n m, coeff a j * coeff b (m - j)

/-- The plain convolution of two elements of length `n`, as a buffer of `2n` words. -/
def ringConv (n : Nat) (a b : RingElt) : List Word := lanes (2 * n) (convAt n a b)

@[simp] theorem length_ringConv (n : Nat) (a b : RingElt) : (ringConv n a b).length = 2 * n := length_lanes ..

theorem mem_convIndices {n m j : Nat} : j ∈ convIndices n m ↔ j < n ∧ j ≤ m ∧ m - j < n := by
  rw [convIndices, Finset.mem_filter, Finset.mem_range]

/-- In the lower half of the buffer stands `pos` of R80. -/
theorem convAt_lower {n i : Nat} (a b : RingElt) (hi : i < n) : convAt n a b i = mulPos a b i := by
  have hindices : convIndices n i = Finset.range (i + 1) := by
    ext j; rw [mem_convIndices, Finset.mem_range]; omega
  rw [convAt, hindices, mulPos_eq_sum]

/-- In the upper half stands `neg` of R80. -/
theorem convAt_upper {n i : Nat} (a b : RingElt) : convAt n a b (i + n) = mulNeg n a b i := by
  have hindices : convIndices n (i + n) = Finset.Ico (i + 1) n := by
    ext j; rw [mem_convIndices, Finset.mem_Ico]; omega
  rw [convAt, hindices, mulNeg_eq_sum]
  refine Finset.sum_congr rfl fun j hj => ?_
  rw [Finset.mem_Ico] at hj
  rw [show i + n - j = n - (j - i) by omega]

/-- MUL is the fold of the plain convolution (R83). -/
theorem ringMul_eq_ringFold_ringConv (n : Nat) (a b : RingElt) : ringMul n a b = ringFold n (ringConv n a b) :=
  lanes_congr fun i hi => by
    rw [ringConv, coeff_lanes _ (by omega), coeff_lanes _ (by omega), convAt_lower a b hi, convAt_upper]

/-- The plain convolution is the product of the polynomials: the indices it leaves out give products with a 0. -/
theorem convAt_eq_coeff_mul {n : Nat} {a b : RingElt} (ha : a.length = n) (hb : b.length = n) (m : Nat) :
    convAt n a b m = (toPoly a * toPoly b).coeff m := by
  rw [Polynomial.coeff_mul, Finset.Nat.sum_antidiagonal_eq_sum_range_succ_mk]
  simp only [coeff_toPoly]
  refine Finset.sum_subset (fun j hj => ?_) fun j hj hout => ?_
  · rw [mem_convIndices] at hj
    exact Finset.mem_range.2 (by omega)
  · rw [Finset.mem_range] at hj
    rw [mem_convIndices] at hout
    have outside : a.length ≤ j ∨ b.length ≤ m - j := by omega
    rcases outside with h | h <;> simp [coeff_of_length_le h]

theorem toPoly_ringConv {n : Nat} {a b : RingElt} (ha : a.length = n) (hb : b.length = n) :
    toPoly (ringConv n a b) = toPoly a * toPoly b := by
  have beyond : ∀ m, 2 * n ≤ m → convAt n a b m = 0 := fun m hm =>
    Finset.sum_eq_zero fun j hj => by rw [mem_convIndices] at hj; omega
  ext1 m
  rw [coeff_toPoly, ringConv, coeff_lanes_of_zero_beyond beyond, convAt_eq_coeff_mul ha hb]

/-! ### The ring of polynomials modulo `X^n + 1` (00_scope.md R7) -/

/-- The class of `a` modulo `X^n + 1`. -/
noncomputable def toQuotient (n : Nat) (a : RingElt) : AdjoinRoot (Polynomial.X ^ n + 1 : Word[X]) :=
  AdjoinRoot.mk _ (toPoly a)

/-- Folding takes from a buffer the multiple of `X^n + 1` by its upper half. -/
theorem toPoly_sub_toPoly_ringFold {n : Nat} {buf : List Word} (h : buf.length = 2 * n) :
    toPoly buf - toPoly (ringFold n buf) = (Polynomial.X ^ n + 1) * toPoly (buf.drop n) := by
  have hdrop (i : Nat) : coeff (buf.drop n) i = coeff buf (i + n) := by
    simp [coeff, List.getD, Nat.add_comm]
  ext1 i
  simp only [add_mul, one_mul, Polynomial.coeff_sub, Polynomial.coeff_add, Polynomial.coeff_X_pow_mul', coeff_toPoly,
    hdrop]
  by_cases hi : i < n
  · rw [ringFold, coeff_lanes _ hi, if_neg (by omega)]
    ring
  · rw [ringFold, coeff_lanes_of_le _ (by omega), if_pos (by omega), coeff_of_length_le (i := i + n) (by omega),
      Nat.sub_add_cancel (by omega)]
    ring

theorem toQuotient_ringFold {n : Nat} {buf : List Word} (h : buf.length = 2 * n) :
    toQuotient n (ringFold n buf) = toQuotient n buf :=
  (AdjoinRoot.mk_eq_mk.2 ⟨_, toPoly_sub_toPoly_ringFold h⟩).symm

/-- `X^n + 1` is monic of degree `n`, so no class holds two elements of length `n`. -/
theorem eq_of_toQuotient_eq {n : Nat} {a b : RingElt} (ha : a.length = n) (hb : b.length = n)
    (h : 0 < n → toQuotient n a = toQuotient n b) : a = b := by
  refine ext_coeff ha hb fun i hi => ?_
  have hn : 0 < n := by omega
  have hnontrivial : Nontrivial Word := ⟨0, 1, by decide⟩
  have hmonic : (Polynomial.X ^ n + 1 : Word[X]).Monic := by
    rw [← Polynomial.C_1]
    exact Polynomial.monic_X_pow_add_C 1 hn.ne'
  have hdegree : (toPoly a - toPoly b).degree < (Polynomial.X ^ n + 1 : Word[X]).degree := by
    rw [← Polynomial.C_1, Polynomial.degree_X_pow_add_C hn]
    exact (Polynomial.degree_sub_le _ _).trans_lt (max_lt (ha ▸ degree_toPoly_lt a) (hb ▸ degree_toPoly_lt b))
  have hzero : toPoly a - toPoly b = 0 := by
    by_contra hne
    exact hmonic.not_dvd_of_degree_lt hne hdegree (AdjoinRoot.mk_eq_mk.1 (h hn))
  simpa using congrArg (Polynomial.coeff · i) (sub_eq_zero.1 hzero)

@[simp] theorem toQuotient_ringZero (n : Nat) : toQuotient n (ringZero n) = 0 := by
  rw [toQuotient, toPoly_ringZero, map_zero]

theorem toQuotient_ringOne {n : Nat} (hn : 0 < n) : toQuotient n (ringOne n) = 1 := by
  rw [toQuotient, toPoly_ringOne hn, map_one]

section
variable {n : Nat} {a b : RingElt} (ha : a.length = n) (hb : b.length = n)
include ha hb

theorem toQuotient_ringAdd : toQuotient n (ringAdd n a b) = toQuotient n a + toQuotient n b := by
  rw [toQuotient, toPoly_ringAdd ha hb, map_add]; rfl

theorem toQuotient_ringSub : toQuotient n (ringSub n a b) = toQuotient n a - toQuotient n b := by
  rw [toQuotient, toPoly_ringSub ha hb, map_sub]; rfl

theorem toQuotient_ringMul : toQuotient n (ringMul n a b) = toQuotient n a * toQuotient n b := by
  rw [ringMul_eq_ringFold_ringConv, toQuotient_ringFold (length_ringConv ..), toQuotient, toPoly_ringConv ha hb, map_mul]
  rfl

end

/-! ### The laws (40_ring_arith.md R83) -/

/-- Folding a list of `2n` words subtracts its halves. -/
theorem ringFold_append {n : Nat} {a : RingElt} (b : RingElt) (ha : a.length = n) :
    ringFold n (a ++ b) = ringSub n a b :=
  lanes_congr fun i hi => by
    have hlower : coeff (a ++ b) i = coeff a i := by simp [coeff, List.getD, List.getElem?_append_left, ha, hi]
    have hupper : coeff (a ++ b) (i + n) = coeff b i := by simp [coeff, List.getD, List.getElem?_append_right, ha]
    rw [hlower, hupper]

theorem ringSub_self (n : Nat) (a : RingElt) : ringSub n a a = ringZero n :=
  lanes_congr fun _ _ => sub_self _

section
variable {n : Nat} {a b c : RingElt} (ha : a.length = n) (hb : b.length = n) (hc : c.length = n)
include ha

theorem ringSub_zero : ringSub n a (ringZero n) = a :=
  ext_coeff (length_ringSub ..) ha fun i _ => by rw [coeff_ringSub ha (length_ringZero n), coeff_ringZero, sub_zero]

theorem ringMul_one : ringMul n a (ringOne n) = a :=
  eq_of_toQuotient_eq (length_ringMul ..) ha fun hn => by
    rw [toQuotient_ringMul ha (length_ringOne n), toQuotient_ringOne hn, mul_one]

include hb

theorem ringSub_eq_ringAdd_neg : ringSub n a b = ringAdd n a (ringSub n (ringZero n) b) :=
  ext_coeff (length_ringSub ..) (length_ringAdd ..) fun i _ => by
    rw [coeff_ringSub ha hb, coeff_ringAdd ha (length_ringSub ..), coeff_ringSub (length_ringZero n) hb, coeff_ringZero,
      zero_sub, sub_eq_add_neg]

theorem ringSub_add_cancel : ringAdd n (ringSub n a b) b = a :=
  ext_coeff (length_ringAdd ..) ha fun i _ => by
    rw [coeff_ringAdd (length_ringSub ..) hb, coeff_ringSub ha hb, sub_add_cancel]

theorem ringMul_comm : ringMul n a b = ringMul n b a :=
  eq_of_toQuotient_eq (length_ringMul ..) (length_ringMul ..) fun _ => by
    rw [toQuotient_ringMul ha hb, toQuotient_ringMul hb ha, mul_comm]

include hc

theorem ringMul_ringAdd : ringMul n a (ringAdd n b c) = ringAdd n (ringMul n a b) (ringMul n a c) :=
  eq_of_toQuotient_eq (length_ringMul ..) (length_ringAdd ..) fun _ => by
    rw [toQuotient_ringMul ha (length_ringAdd ..), toQuotient_ringAdd hb hc,
      toQuotient_ringAdd (length_ringMul ..) (length_ringMul ..), toQuotient_ringMul ha hb, toQuotient_ringMul ha hc,
      mul_add]

theorem ringMul_assoc : ringMul n (ringMul n a b) c = ringMul n a (ringMul n b c) :=
  eq_of_toQuotient_eq (length_ringMul ..) (length_ringMul ..) fun _ => by
    rw [toQuotient_ringMul (length_ringMul ..) hc, toQuotient_ringMul ha (length_ringMul ..), toQuotient_ringMul ha hb,
      toQuotient_ringMul hb hc, mul_assoc]

end

/-- Settles O46: MUL is the product of polynomials modulo `X^n + 1`, where the laws of multiplication are those of a
commutative ring; the rest holds lane by lane. -/
theorem ringLaws : Obligations.RingLaws := by
  refine fun n a b c ha hb hc => ⟨⟨ringSub_eq_ringAdd_neg ha hb, ringSub_self n a, ringSub_add_cancel ha hb⟩,
    ⟨ringMul_comm ha hb, ringMul_ringAdd ha hb hc, ringMul_assoc ha hb hc, ringMul_one ha⟩,
    ringMul_eq_ringFold_ringConv n a b, ?_⟩
  rw [ringFold_append b ha, ringFold_append (ringZero n) (length_ringSub ..), ringSub_zero (length_ringSub ..)]

end Sys2Proof.Machine
end

section
/-! SUPPORT. The coefficient family (41_lwe_codec.md): encoding and decoding as arithmetic on numbers, the words, faults
and effects of ENC, DEC, ADDN, RNDU and RNDB, and which transactions draw. -/

namespace Sys2Proof.Machine

/-! ### Encoding and decoding as arithmetic (41_lwe_codec.md R101, R103) -/

theorem encodeWord_eq_ofNat (b : Nat) (v : Word) : encodeWord b v = BitVec.ofNat 32 (v.toNat * 2 ^ (32 - b)) := by
  apply BitVec.eq_of_toNat_eq
  simp [encodeWord, encodingShift, Nat.shiftLeft_eq]

theorem encodeWord_eq_ofInt (b : Nat) (v : Word) : encodeWord b v = BitVec.ofInt 32 (v.toNat * 2 ^ (32 - b)) := by
  rw [encodeWord_eq_ofNat, ← BitVec.ofInt_natCast]
  push_cast
  rfl

theorem encodeWord_add (b : Nat) (x y : Word) : encodeWord b (x + y) = encodeWord b x + encodeWord b y :=
  BitVec.shiftLeft_add_distrib

/-- The payload and the encoding shift share the 32 bits of a word. -/
theorem two_pow_width_mul {b : Nat} (hb : b ≤ 31) : 2 ^ b * 2 ^ (32 - b) = 2 ^ 32 := by
  rw [← Nat.pow_add, Nat.add_sub_cancel' (by omega)]

/-- The bits above the payload width are lost. -/
theorem toNat_encodeWord {b : Nat} (hb : b ≤ 31) (v : Word) :
    (encodeWord b v).toNat = v.toNat % 2 ^ b * 2 ^ (32 - b) := by
  rw [encodeWord_eq_ofNat, BitVec.toNat_ofNat, ← two_pow_width_mul hb, Nat.mul_mod_mul_right]

theorem toNat_decodeWord (b : Nat) (c : Word) :
    (decodeWord b c).toNat = (c.toNat + 2 ^ (31 - b)) % 2 ^ 32 / 2 ^ (32 - b) := by
  simp [decodeWord, halfStep, encodingShift, Nat.shiftRight_eq_div_pow]

theorem decodeWord_eq_ofNat (b : Nat) (c : Word) :
    decodeWord b c = BitVec.ofNat 32 ((c.toNat + 2 ^ (31 - b)) % 2 ^ 32 / 2 ^ (32 - b)) := by
  rw [← toNat_decodeWord, BitVec.ofNat_toNat, BitVec.setWidth_eq]

/-- A decoded coefficient fits the payload width. -/
theorem toNat_decodeWord_lt {b : Nat} (hb : b ≤ 31) (c : Word) : (decodeWord b c).toNat < 2 ^ b := by
  rw [toNat_decodeWord, Nat.div_lt_iff_lt_mul (Nat.two_pow_pos _), two_pow_width_mul hb]
  exact Nat.mod_lt _ (Nat.two_pow_pos 32)

/-! ### The decode window (41_lwe_codec.md R104) -/

/-- Dividing a remainder: `Nat.mod_mul_right_div_self` for integers. -/
theorem emod_mul_ediv {d : Int} (hd : 0 < d) (x k : Int) : x % (d * k) / d = x / d % k := by
  rw [Int.emod_def, Int.emod_def, ← Int.ediv_ediv_of_nonneg hd.le, mul_assoc, sub_eq_add_neg, ← mul_neg,
    Int.add_mul_ediv_left _ _ hd.ne', ← sub_eq_add_neg]

theorem toNat_decodeWord_ofInt {b : Nat} (hb : b ≤ 31) (x : Int) :
    ((decodeWord b (BitVec.ofInt 32 x)).toNat : Int) = (x + 2 ^ (31 - b)) / 2 ^ (32 - b) % 2 ^ b := by
  have hsplit : (2 : Int) ^ 32 = 2 ^ (32 - b) * 2 ^ b := by
    rw [mul_comm]
    exact_mod_cast (two_pow_width_mul hb).symm
  have hword : ((BitVec.ofInt 32 x).toNat : Int) = x % 2 ^ 32 := by
    rw [BitVec.toNat_ofInt]
    omega
  calc ((decodeWord b (BitVec.ofInt 32 x)).toNat : Int)
      = ((BitVec.ofInt 32 x).toNat + 2 ^ (31 - b)) % 2 ^ 32 / 2 ^ (32 - b) := by
        exact_mod_cast congrArg Nat.cast (toNat_decodeWord b (BitVec.ofInt 32 x))
    _ = (x + 2 ^ (31 - b)) % (2 ^ (32 - b) * 2 ^ b) / 2 ^ (32 - b) := by rw [hword, Int.emod_add_emod, hsplit]
    _ = (x + 2 ^ (31 - b)) / 2 ^ (32 - b) % 2 ^ b := emod_mul_ediv (by positivity) _ _

/-- What decoding returns for a payload and any noise. -/
theorem toNat_decodeWord_payload_add_noise {b : Nat} (hb : b ≤ 31) (m e : Int) :
    ((decodeWord b (BitVec.ofInt 32 (m * 2 ^ (32 - b) + e))).toNat : Int) =
      (m + (e + 2 ^ (31 - b)) / 2 ^ (32 - b)) % 2 ^ b := by
  rw [toNat_decodeWord_ofInt hb, add_assoc, add_comm, Int.add_mul_ediv_right _ _ (by positivity), add_comm]

/-- The window is one decoding step, so the noise is in it exactly if it moves the payload by no step. -/
theorem inWindow_iff_ediv_eq_zero {b : Nat} (hb : b ≤ 31) (e : Int) :
    inWindow b e ↔ (e + 2 ^ (31 - b)) / 2 ^ (32 - b) = 0 := by
  have hstep : (2 : Int) ^ (32 - b) = 2 * 2 ^ (31 - b) := by
    rw [show 32 - b = 31 - b + 1 by omega, pow_succ, mul_comm]
  have hhalf : (0 : Int) < 2 ^ (31 - b) := by positivity
  rw [inWindow, hstep, Int.ediv_eq_iff_of_pos (by omega)]
  omega

/-- A signed noise of 32 bits moves the payload by less than `2^b` steps. -/
theorem abs_noise_steps_lt {b : Nat} (hb1 : 1 ≤ b) (hb : b ≤ 31) {e : Int} (hlow : -(2 ^ 31) ≤ e)
    (hhigh : e < 2 ^ 31) : |(e + 2 ^ (31 - b)) / 2 ^ (32 - b)| < 2 ^ b := by
  have hsplit : (2 : Int) ^ b * 2 ^ (32 - b) = 2 ^ 32 := by exact_mod_cast two_pow_width_mul hb
  have hstep : (2 : Int) ^ (32 - b) ≤ 2 ^ 31 := pow_le_pow_right₀ (by decide) (by omega)
  have hhalf : (2 : Int) ^ (31 - b) ≤ 2 ^ 30 := pow_le_pow_right₀ (by decide) (by omega)
  have hpos : (0 : Int) < 2 ^ (31 - b) := by positivity
  have hstep_pos : (0 : Int) < 2 ^ (32 - b) := by positivity
  refine abs_lt.2 ⟨Int.lt_of_add_one_le ((Int.le_ediv_iff_mul_le hstep_pos).2 ?_),
    (Int.ediv_lt_iff_lt_mul hstep_pos).2 ?_⟩
  · rw [add_mul, neg_mul, one_mul, hsplit]
    omega
  · rw [hsplit]
    omega

theorem toNat_decodeWord_eq_payload_iff {b : Nat} (hb1 : 1 ≤ b) (hb : b ≤ 31) (m : Int) {e : Int}
    (hlow : -(2 ^ 31) ≤ e) (hhigh : e < 2 ^ 31) :
    ((decodeWord b (BitVec.ofInt 32 (m * 2 ^ (32 - b) + e))).toNat : Int) = m % 2 ^ b ↔ inWindow b e := by
  rw [toNat_decodeWord_payload_add_noise hb, inWindow_iff_ediv_eq_zero hb, Int.emod_eq_emod_iff_emod_sub_eq_zero,
    add_sub_cancel_left]
  refine ⟨fun h => ?_, fun h => by rw [h, Int.zero_emod]⟩
  exact Int.eq_zero_of_abs_lt_dvd (Int.dvd_of_emod_eq_zero h) (abs_noise_steps_lt hb1 hb hlow hhigh)

/-- Settles O47: the noise moves the payload by fewer than `2^b` steps, a number that is 0 modulo `2^b` only if it is
0. -/
theorem decodeWindow : Obligations.DecodeWindow :=
  fun _ m e hb1 hb => ⟨toNat_decodeWord_payload_add_noise hb m e, toNat_decodeWord_eq_payload_iff hb1 hb m⟩

/-! ### Composition (41_lwe_codec.md R105) -/

/-- Decoding an encoded payload with noise in the window gives the payload, modulo `2^b`. -/
theorem toNat_decodeWord_encodeWord_add {b : Nat} (hb1 : 1 ≤ b) (hb : b ≤ 31) (x : Word) {e : Word}
    (he : inWindow b e.toInt) : (decodeWord b (encodeWord b x + e)).toNat = x.toNat % 2 ^ b := by
  have hsum : encodeWord b x + e = BitVec.ofInt 32 (x.toNat * 2 ^ (32 - b) + e.toInt) := by
    rw [BitVec.ofInt_add, BitVec.ofInt_toInt, encodeWord_eq_ofInt]
  have hdecoded := (toNat_decodeWord_eq_payload_iff hb1 hb x.toNat e.le_toInt e.toInt_lt).2 he
  rw [← hsum] at hdecoded
  exact_mod_cast hdecoded

/-- Settles O48: no noise is in the window, and two encoded payloads are the encoding of their sum. -/
theorem decodeUndoesEncode : Obligations.DecodeUndoesEncode := by
  refine fun b x y e hb1 hb => ⟨?_, (encodeWord_add b x y).symm, fun he => ?_⟩
  · have hzero : inWindow b (0 : Word).toInt := by simp [inWindow]
    simpa using toNat_decodeWord_encodeWord_add hb1 hb x hzero
  · rw [← encodeWord_add, toNat_decodeWord_encodeWord_add hb1 hb _ he, BitVec.toNat_add,
      Nat.mod_mod_of_dvd _ (pow_dvd_pow 2 (by omega))]

/-! ### ENC and DEC -/

/-- The check of the immediate comes after that of the register numbers (60_exceptions.md R155, step 3). -/
theorem commandFault_eq_param {s : State} {used sources : List RegNum} {b : Nat}
    (hused : ∀ r ∈ used, r < s.params.nr) (hb : b = 0 ∨ 32 ≤ b) :
    commandFault s used (some b) sources = some .param := by
  have hany : used.any (fun r => decide (s.params.nr ≤ r)) = false := by simpa using hused
  have hwidth : legalWidth b = false := by
    simp only [legalWidth, Bool.and_eq_false_iff, decide_eq_false_iff_not]
    omega
  simp [commandFault, hany, hwidth]

/-- An immediate out of range, with the register numbers in range, records E_PARAM and changes nothing else. -/
theorem exec_of_width_out_of_range {i : Instr} {s : State} {b : Nat} (good : s.flt = false)
    (hused : ∀ r ∈ usedRegs i, r < s.params.nr) (himm : immediateOf i = some b) (hb : b = 0 ∨ 32 ≤ b) :
    exec i s = .next (faulted 0x04 s) := by
  rw [exec_eq_command, himm, command_of_some (commandFault_eq_param hused hb), raiseFault_eq_faulted _ good]
  rfl

/-- The checks of format DSI and its effect, for a command that computes its destination lane by lane from the state
before it. -/
theorem exec_of_registers_and_width {i : Instr} {s : State} {rd rs1 : RegNum} {b : Nat} (f : Nat → Word)
    (hused : usedRegs i = [rd, rs1]) (himm : immediateOf i = some b) (hsrc : sourceRegs i = [rs1])
    (heffect : effectOf i s = s.setReg rd (lanes s.params.n f)) (hm : Memory.wf s = true) (good : s.flt = false) :
    (s.params.nr ≤ rd ∨ s.params.nr ≤ rs1 → exec i s = .next (faulted 0x02 s)) ∧
    (rd < s.params.nr → rs1 < s.params.nr → b = 0 ∨ 32 ≤ b → exec i s = .next (faulted 0x04 s)) ∧
    (rd < s.params.nr → rs1 < s.params.nr → 1 ≤ b → b ≤ 31 → s.isValid rs1 = false →
      exec i s = .next (faulted 0x03 s)) ∧
    (rd < s.params.nr → rs1 < s.params.nr → 1 ≤ b → b ≤ 31 → s.isValid rs1 = true →
      ∃ t, exec i s = .next t ∧ WritesOnly rd f s t) := by
  refine ⟨fun h => ?_, fun hrd hrs1 hb => ?_, fun hrd hrs1 hb1 hb hv => ?_, fun hrd hrs1 hb1 hb hv => ?_⟩
  · exact exec_of_reg_out_of_range good (by simpa [hused] using h)
  · exact exec_of_width_out_of_range good (by simp [hused, hrd, hrs1]) himm hb
  · exact exec_of_source_invalid good (by simp [hused, hrd, hrs1]) (by simp [himm, hb1, hb]) (by simpa [hsrc] using hv)
  · have ok : Executable i s := by simp [Executable, hused, himm, hsrc, hrd, hrs1, hb1, hb, hv]
    exact ⟨_, exec_of_executable ok, heffect ▸ writesOnly_setReg_lanes f hm hrd⟩

/-- Settles O14: ENC's lanes are `encodeWord`, in its two forms as arithmetic. -/
theorem encShiftsPayloadsUp : Obligations.EncShiftsPayloadsUp := by
  refine ⟨fun w hop => decode_eq_ok.2 (by simp [hop]), fun s rd rs1 b hm good => ?_⟩
  simp only [← encodeWord_eq_ofNat]
  obtain ⟨hreg, hparam, huninit, hruns⟩ :=
    exec_of_registers_and_width (i := .enc rd rs1 b) _ rfl rfl rfl rfl hm good
  refine ⟨hreg, hparam, huninit, fun hrd hrs1 hb1 hb hv => ?_⟩
  obtain ⟨t, hexec, hwrites⟩ := hruns hrd hrs1 hb1 hb hv
  have ⟨_, hcoeff, _⟩ := hwrites
  exact ⟨t, hexec, hwrites, fun i hi => by rw [hcoeff i hi, toNat_encodeWord hb]⟩

/-- Settles O15: DEC's lanes are `decodeWord`, which fits the payload width. -/
theorem decRoundsToTheNearestStep : Obligations.DecRoundsToTheNearestStep := by
  refine ⟨fun w hop => decode_eq_ok.2 (by simp [hop]), fun s rd rs1 b hm good => ?_⟩
  simp only [← decodeWord_eq_ofNat]
  obtain ⟨hreg, hparam, huninit, hruns⟩ :=
    exec_of_registers_and_width (i := .dec rd rs1 b) _ rfl rfl rfl rfl hm good
  refine ⟨hreg, hparam, huninit, fun hrd hrs1 hb1 hb hv => ?_⟩
  obtain ⟨t, hexec, hwrites⟩ := hruns hrd hrs1 hb1 hb hv
  have ⟨_, hcoeff, _⟩ := hwrites
  exact ⟨t, hexec, hwrites, fun i hi => by rw [hcoeff i hi]; exact toNat_decodeWord_lt hb _⟩

/-! ### The effects of the drawing commands (41_lwe_codec.md R102, R107, R108) -/

theorem drawMany_snd {α : Type} (free : Nat → α) (k : Nat) (p : Source α) : (drawMany free k p).2 = drawnOf p k := by
  rw [drawMany_eq]

theorem randomFill_false (rd : RegNum) : randomFill false rd = .rndu rd := rfl
theorem randomFill_true (rd : RegNum) : randomFill true rd = .rndb rd := rfl
theorem randomDraw_false (s : State) : randomDraw false s = wordDraw s := rfl
theorem randomDraw_true (s : State) : randomDraw true s = bitDraw s := rfl

theorem effectOf_addn (rd rs1 : RegNum) (s : State) :
    effectOf (.addn rd rs1) s =
      { s.setReg rd (lanes s.params.n fun i => coeff (s.reg rs1) i + noiseDraw s i) with
        noise := drawnOf s.noise s.params.n } := by
  have hlanes : ringAdd s.params.n (s.reg rs1) (lanes s.params.n (noiseDraw s)) =
      lanes s.params.n fun i => coeff (s.reg rs1) i + noiseDraw s i :=
    lanes_congr fun i hi => by rw [coeff_lanes _ hi]
  simp only [effectOf, drawMany_noises, hlanes, drawMany_snd]

theorem effectOf_randomFill (bits : Bool) (rd : RegNum) (s : State) :
    effectOf (randomFill bits rd) s =
      { s.setReg rd (lanes s.params.n (randomDraw bits s)) with random := drawnOf s.random s.params.n } := by
  cases bits with
  | false => simp only [randomFill_false, randomDraw_false, effectOf, drawMany_words, drawMany_snd]
  | true => simp only [randomFill_true, randomDraw_true, effectOf, drawMany_bits, drawMany_snd]

theorem executable_addn {s : State} {rd rs1 : RegNum} (hrd : rd < s.params.nr) (hrs1 : rs1 < s.params.nr)
    (hv : s.isValid rs1 = true) : Executable (.addn rd rs1) s := by
  simp [Executable, usedRegs, immediateOf, sourceRegs, hrd, hrs1, hv]

theorem executable_randomFill {s : State} (bits : Bool) {rd : RegNum} (hrd : rd < s.params.nr) :
    Executable (randomFill bits rd) s := by
  cases bits <;> simpa [Executable, randomFill, usedRegs, immediateOf, sourceRegs] using hrd

theorem exec_randomFill_of_reg_out_of_range {s : State} (bits : Bool) {rd : RegNum} (good : s.flt = false)
    (hrd : s.params.nr ≤ rd) : exec (randomFill bits rd) s = .next (faulted 0x02 s) :=
  exec_of_reg_out_of_range good ⟨rd, by cases bits <;> simp [randomFill, usedRegs], hrd⟩

/-- A random fill that passes its check takes the next `N` answers of the randomness source in order. -/
theorem exec_randomFill {s : State} (bits : Bool) {rd : RegNum} (hm : Memory.wf s = true) (hrd : rd < s.params.nr) :
    ∃ t, exec (randomFill bits rd) s = .next t ∧
      (t.reg rd).length = s.params.n ∧ (∀ i < s.params.n, coeff (t.reg rd) i = randomDraw bits s i) ∧
      t.isValid rd = true ∧ KeepsRegsBut rd s t ∧ t.random = drawnOf s.random s.params.n ∧ t.noise = s.noise ∧
      KeepsFold s t ∧ KeepsOutput s t ∧ t.eq = s.eq ∧ KeepsFault s t ∧ KeepsHost s t := by
  refine ⟨_, exec_of_executable (executable_randomFill bits hrd), ?_⟩
  rw [effectOf_randomFill]
  obtain ⟨hlength, hcoeff, hvalid, hregs, hfold, houtput, heq, hfault, -, hhost⟩ :=
    writesOnly_setReg_lanes (randomDraw bits s) hm hrd
  exact ⟨hlength, hcoeff, hvalid, hregs, rfl, rfl, hfold, houtput, heq, hfault, hhost⟩

/-- An ADDN that passes its checks takes the next `N` answers of the noise source in order. -/
theorem exec_addn {s : State} {rd rs1 : RegNum} (hm : Memory.wf s = true) (hrd : rd < s.params.nr)
    (hrs1 : rs1 < s.params.nr) (hv : s.isValid rs1 = true) :
    ∃ t, exec (.addn rd rs1) s = .next t ∧
      (t.reg rd).length = s.params.n ∧
      (∀ i < s.params.n, coeff (t.reg rd) i = coeff (s.reg rs1) i + noiseDraw s i) ∧
      t.isValid rd = true ∧ KeepsRegsBut rd s t ∧ t.noise = drawnOf s.noise s.params.n ∧ t.random = s.random ∧
      KeepsFold s t ∧ KeepsOutput s t ∧ t.eq = s.eq ∧ KeepsFault s t ∧ KeepsHost s t := by
  refine ⟨_, exec_of_executable (executable_addn hrd hrs1 hv), ?_⟩
  rw [effectOf_addn]
  obtain ⟨hlength, hcoeff, hvalid, hregs, hfold, houtput, heq, hfault, -, hhost⟩ :=
    writesOnly_setReg_lanes (fun i => coeff (s.reg rs1) i + noiseDraw s i) hm hrd
  exact ⟨hlength, hcoeff, hvalid, hregs, rfl, rfl, hfold, houtput, heq, hfault, hhost⟩

/-- Settles O16: the lanes are the sums with the noise source's next answers. -/
theorem addnAddsOneNoiseDrawPerCoefficient : Obligations.AddnAddsOneNoiseDrawPerCoefficient := by
  refine ⟨fun w hop hc => ?_, fun w hop hc => ?_,
    fun s rd rs1 hm good => ⟨fun h => ?_, fun hrd hrs1 hv => ?_, fun hrd hrs1 hv => ?_⟩⟩
  · exact decode_eq_ok.2 (by simp [hop, hc])
  · exact illegal_of_decode_ne_ok fun i => by simp [decode_eq_ok, hop, hc]
  · exact exec_of_reg_out_of_range good (by simpa [usedRegs] using h)
  · exact exec_of_source_invalid good (by simp [usedRegs, hrd, hrs1]) (by simp [immediateOf])
      ⟨rs1, by simp [sourceRegs], hv⟩
  · exact exec_addn hm hrd hrs1 hv

/-- Settles O17: RNDU is the random fill that takes words. -/
theorem rnduStoresOneWordDrawPerCoefficient : Obligations.RnduStoresOneWordDrawPerCoefficient := by
  refine ⟨fun w hop hb hc => ?_, fun w hop hbad => ?_, fun s rd hm good => ⟨fun hrd => ?_, fun hrd => ?_⟩⟩
  · exact decode_eq_ok.2 (by simp [hop, hb, hc])
  · refine illegal_of_decode_ne_ok fun i => ?_
    rcases hbad with h | h <;> simp [decode_eq_ok, hop, h]
  · exact exec_randomFill_of_reg_out_of_range false good hrd
  · exact exec_randomFill false hm hrd

/-- Settles O18: RNDB is the random fill that takes bits. -/
theorem rndbStoresOneBitDrawPerCoefficient : Obligations.RndbStoresOneBitDrawPerCoefficient := by
  refine ⟨fun w hop hb hc => ?_, fun w hop hbad => ?_, fun s rd hm good => ⟨fun hrd => ?_, fun hrd => ?_⟩⟩
  · exact decode_eq_ok.2 (by simp [hop, hb, hc])
  · refine illegal_of_decode_ne_ok fun i => ?_
    rcases hbad with h | h <;> simp [decode_eq_ok, hop, h]
  · exact exec_randomFill_of_reg_out_of_range true good hrd
  · obtain ⟨t, hexec, hlength, hcoeff, hrest⟩ := exec_randomFill true hm hrd
    refine ⟨t, hexec, hlength, fun i hi => ⟨hcoeff i hi, ?_⟩, hrest⟩
    rw [hcoeff i hi]
    exact bitDraw_eq_zero_or_one s i

/-! ### Who draws (41_lwe_codec.md R106; 70_reset_and_hazards.md R177) -/

theorem effectOf_keepsRandom {i : Instr} (s : State) (h : ∀ bits rd, i ≠ randomFill bits rd) :
    (effectOf i s).random = s.random := by
  cases i with
  | rndu rd => exact absurd rfl (h false rd)
  | rndb rd => exact absurd rfl (h true rd)
  | _ => rfl

theorem effectOf_keepsNoise {i : Instr} (s : State) (h : ∀ rd rs1, i ≠ .addn rd rs1) :
    (effectOf i s).noise = s.noise := by
  cases i with
  | addn rd rs1 => exact absurd rfl (h rd rs1)
  | _ => rfl

theorem effectOf_random_of_randomFill {i : Instr} (s : State) (h : ∃ bits rd, i = randomFill bits rd) :
    (effectOf i s).random = drawnOf s.random s.params.n := by
  obtain ⟨bits, rd, rfl⟩ := h
  rw [effectOf_randomFill]

theorem effectOf_noise_of_addn {i : Instr} (s : State) (h : ∃ rd rs1, i = .addn rd rs1) :
    (effectOf i s).noise = drawnOf s.noise s.params.n := by
  obtain ⟨rd, rs1, rfl⟩ := h
  rw [effectOf_addn]

/-- No draw is returned to its source. -/
theorem effectOf_movesSourcesOn (i : Instr) (s : State) :
    ∃ j k, (effectOf i s).random = drawnOf s.random j ∧ (effectOf i s).noise = drawnOf s.noise k := by
  obtain ⟨j, hj⟩ : ∃ j, (effectOf i s).random = drawnOf s.random j := by
    by_cases h : ∃ bits rd, i = randomFill bits rd
    · exact ⟨_, effectOf_random_of_randomFill s h⟩
    · exact ⟨0, effectOf_keepsRandom s (by simpa using h)⟩
  obtain ⟨k, hk⟩ : ∃ k, (effectOf i s).noise = drawnOf s.noise k := by
    by_cases h : ∃ rd rs1, i = .addn rd rs1
    · exact ⟨_, effectOf_noise_of_addn s h⟩
    · exact ⟨0, effectOf_keepsNoise s (by simpa using h)⟩
  exact ⟨j, k, hj, hk⟩

/-- A transaction that completes leaves the sources alone, or is a command that has its effect. -/
theorem Performed.keepsSources_or_runs {tr : Transaction} {s t : State} (h : Performed tr s t) :
    KeepsSources s t ∨ MayWriteCmd tr ∧ ∃ i, t = effectOf i s := by
  cases h with
  | commandFaults c => exact .inl (raiseFault_keepsSources c s)
  | commandRuns i may => exact .inr ⟨may, i, rfl⟩
  | _ => exact .inl ⟨rfl, rfl⟩

theorem perform_movesSourcesOn {tr : Transaction} {s t : State} (h : perform tr s = .next t) :
    ∃ j k, t.random = drawnOf s.random j ∧ t.noise = drawnOf s.noise k := by
  rcases (perform_inversion h).keepsSources_or_runs with hkeeps | ⟨-, i, rfl⟩
  · exact ⟨0, 0, hkeeps⟩
  · exact effectOf_movesSourcesOn i s

/-! ### Two drawing commands, one after the other -/

theorem memory_wf_exec {i : Instr} {s t : State} (h : exec i s = .next t) (hm : Memory.wf s = true) :
    Memory.wf t = true := by
  rcases exec_inversion h with ⟨c, -, rfl⟩ | ⟨-, rfl⟩
  · exact memory_wf_raiseFault c hm
  · exact memory_wf_effectOf i hm

theorem randomDraw_of_drawn {s t : State} {k : Nat} (bits : Bool) (h : t.random = drawnOf s.random k) (i : Nat) :
    randomDraw bits t i = randomDraw bits s (k + i) := by
  cases bits with
  | false => exact wordDraw_of_drawn h i
  | true => exact bitDraw_of_drawn h i

theorem two_randomFills_draw_in_order {s : State} (bits₁ bits₂ : Bool) {rd₁ rd₂ : RegNum} (hm : Memory.wf s = true)
    (hrd₁ : rd₁ < s.params.nr) (hrd₂ : rd₂ < s.params.nr) :
    ∃ t u, exec (randomFill bits₁ rd₁) s = .next t ∧ exec (randomFill bits₂ rd₂) t = .next u ∧
      ∀ i < s.params.n, (rd₁ ≠ rd₂ → coeff (u.reg rd₁) i = randomDraw bits₁ s i) ∧
        coeff (u.reg rd₂) i = randomDraw bits₂ s (s.params.n + i) := by
  obtain ⟨t, hexec₁, -, hcoeff₁, -, -, hrandom, -, -, -, -, -, hparams, -⟩ := exec_randomFill bits₁ hm hrd₁
  obtain ⟨u, hexec₂, -, hcoeff₂, -, hregs, -⟩ :=
    exec_randomFill bits₂ (memory_wf_exec hexec₁ hm) (show rd₂ < t.params.nr by rwa [hparams])
  refine ⟨t, u, hexec₁, hexec₂, fun i hi => ⟨fun hne => ?_, ?_⟩⟩
  · rw [(hregs rd₁ hne).1, hcoeff₁ i hi]
  · rw [hcoeff₂ i (by rwa [hparams]), randomDraw_of_drawn bits₂ hrandom]

theorem two_addns_draw_in_order {s : State} {rd₁ rs₁ rd₂ rs₂ : RegNum} (hm : Memory.wf s = true)
    (hrd₁ : rd₁ < s.params.nr) (hrs₁ : rs₁ < s.params.nr) (hrd₂ : rd₂ < s.params.nr) (hrs₂ : rs₂ < s.params.nr)
    (hv₁ : s.isValid rs₁ = true) (hv₂ : s.isValid rs₂ = true) :
    ∃ t u, exec (.addn rd₁ rs₁) s = .next t ∧ exec (.addn rd₂ rs₂) t = .next u ∧
      ∀ i < s.params.n, (rd₁ ≠ rd₂ → coeff (u.reg rd₁) i = coeff (s.reg rs₁) i + noiseDraw s i) ∧
        coeff (u.reg rd₂) i = coeff (t.reg rs₂) i + noiseDraw s (s.params.n + i) := by
  obtain ⟨t, hexec₁, -, hcoeff₁, -, -, hnoise, -, -, -, -, -, hparams, -⟩ := exec_addn hm hrd₁ hrs₁ hv₁
  have hv₂' : t.isValid rs₂ = true := noCommandClearsAValidBit.1 _ _ _ _ hexec₁ hv₂
  obtain ⟨u, hexec₂, -, hcoeff₂, -, hregs, -⟩ :=
    exec_addn (rd := rd₂) (memory_wf_exec hexec₁ hm) (by rwa [hparams]) (by rwa [hparams]) hv₂'
  refine ⟨t, u, hexec₁, hexec₂, fun i hi => ⟨fun hne => ?_, ?_⟩⟩
  · rw [(hregs rd₁ hne).1, hcoeff₁ i hi]
  · rw [hcoeff₂ i (by rwa [hparams]), noiseDraw_of_drawn hnoise]

/-- Settles O42: the draws of each effect, and of each way a transaction can complete; the second of two drawing
commands starts from the source as the first one left it. -/
theorem drawsAreMadeByTheThreeDrawingCommandsOnly : Obligations.DrawsAreMadeByTheThreeDrawingCommandsOnly := by
  refine ⟨fun i s t h ok => ?_, fun i s t h hnot => ?_, fun tr s t h hport hbus => ?_,
    fun tr s t => perform_movesSourcesOn,
    fun s bits₁ bits₂ rd₁ rd₂ hm _ => two_randomFills_draw_in_order bits₁ bits₂ hm,
    fun s rd₁ rs₁ rd₂ rs₂ hm _ => two_addns_draw_in_order hm⟩
  · rw [exec_of_executable ok] at h
    cases h
    exact ⟨effectOf_random_of_randomFill s, effectOf_keepsRandom s, effectOf_noise_of_addn s, effectOf_keepsNoise s⟩
  · rcases exec_inversion h with ⟨c, -, rfl⟩ | ⟨ok, -⟩
    · exact raiseFault_keepsSources c s
    · exact absurd ok hnot
  · rcases (perform_inversion h).keepsSources_or_runs with hkeeps | ⟨⟨w, e⟩ | ⟨a, l, e⟩, -⟩
    · exact hkeeps
    · exact absurd e (hport w)
    · exact absurd e (hbus a l)

end Sys2Proof.Machine
end

section
/-! SUPPORT. The protocol family (42_lwe_protocol.md): what each host sequence leaves, from what one of its lines does.
A sequence of register commands is followed by `RegRun`, which says that it runs and what it leaves alone. -/

namespace Sys2Proof.Machine

/-! ### Runs from a good state -/

/-- The unit with parameters `p` can run commands: its invariant holds and no fault is recorded. -/
structure Ready (p : Params) (s : State) : Prop where
  params : s.params = p
  wf : s.wf = true
  good : s.flt = false

theorem runLines_trans {l l' : List Line} {s t u : State} (h : runLines l s = .next t) (h' : runLines l' t = .next u) :
    runLines (l ++ l') s = .next u := (runLines_append h).trans h'

/-- A run keeps the invariant, as each of its transactions does. -/
theorem wf_of_runLines {l : List Line} {s t : State} (h : runLines l s = .next t) (hs : s.wf = true) : t.wf = true := by
  induction l generalizing s with
  | nil => cases h; exact hs
  | cons c l ih =>
    obtain ⟨u, hu, hp⟩ := perform_line_completes c s
    rw [runLines_cons hu hp] at h
    exact ih h ((perform_inversion hu).wf hs)

/-- What passes the unit's checks has an encoding: there are at most 256 registers (00_scope.md R4). -/
theorem wellFormed_of_executable {i : Instr} {s : State} (hs : s.wf = true) (ok : Executable i s) :
    i.wellFormed = true := by
  obtain ⟨hused, himm, -⟩ := ok
  have hnr : s.params.nr ≤ 256 := by
    obtain ⟨hp, -⟩ := wf_iff.1 hs
    simp only [Params.ok, Bool.and_eq_true, decide_eq_true_eq] at hp
    omega
  have hreg : ∀ r ∈ usedRegs i, r < 256 := fun r hr => Nat.lt_of_lt_of_le (hused r hr) hnr
  have hwidth : ∀ b, immediateOf i = some b → b < 256 := fun b hb => by have := himm b hb; omega
  cases i <;> simp_all [Instr.wellFormed, usedRegs, immediateOf]

section
variable {p : Params} {s : State} (hs : Ready p s)
include hs

theorem Ready.memory : Memory.wf s = true := by
  obtain ⟨-, hm, -⟩ := wf_iff.1 hs.wf
  exact hm

theorem Ready.n_pos : 0 < p.n := hs.params ▸ n_pos_of_wf hs.wf

theorem Ready.lt_of_isValid {r : Nat} (h : s.isValid r = true) : r < p.nr := by
  obtain ⟨-, -, hlen, -, -⟩ := memory_wf_iff.1 hs.memory
  by_contra hge
  have hnone : s.valid[r]? = none := List.getElem?_eq_none (by rw [hlen, hs.params]; exact Nat.le_of_not_lt hge)
  simp [State.isValid, List.getD, hnone] at h

theorem Ready.length_reg {r : Nat} (h : s.isValid r = true) : (s.reg r).length = p.n := by
  rw [← hs.params]
  exact Machine.length_reg hs.memory (by rw [hs.params]; exact hs.lt_of_isValid h)

/-- One command line whose checks pass. -/
theorem Ready.runLines_command {i : Instr} (ok : Executable i s) : runLines [.command i] s = .next (effectOf i s) :=
  Machine.runLines_command hs.good (decode_encode (wellFormed_of_executable hs.wf ok)) ok

end

/-! ### LDF and LDX (R123, R124) -/

/-- Up to `m` words, each position holds the word of its own index. -/
theorem HoldsAt.eq_coeff {m j : Nat} {l : List Word} {v : Word} (h : HoldsAt m l j v) (hl : l.length ≤ m)
    (hj : j < m) : v = coeff l j := by
  have index : ∀ i < l.length, i % m = i := fun i hi => Nat.mod_eq_of_lt (by omega)
  rcases h with ⟨i, hi, hij, hv, -⟩ | ⟨hnone, hv⟩
  · rw [hv, ← hij, index i hi]
  · rw [hv, coeff_of_length_le]
    by_contra hlt
    exact hnone j (by omega) (Nat.mod_eq_of_lt hj)

/-- Writing a list to DIN changes the fold buffer only, which then holds the list as in the document's own buffer. -/
theorem Ready.runLines_dins {p : Params} {s : State} (hs : Ready p s) (hfresh : foldFresh s) (l : List Word) :
    ∃ fb wp, runLines (l.map .din) s = .next { s with fb := fb, wp := wp } ∧
      ∀ j < 2 * p.n, HoldsAt (2 * p.n) l j (coeff fb j) := by
  obtain ⟨-, -, -, hlen, -⟩ := memory_wf_iff.1 hs.memory
  obtain ⟨rfl, -, good⟩ := hs
  refine ⟨(s.pushWords l).fb, (s.pushWords l).wp, ?_, fun j hj => pushWords_holdsAt l (by omega) hlen hfresh hj⟩
  rw [Machine.runLines_dins l good, ← pushWords_eq]

/-- Settles O49: FOLD subtracts the halves of the buffer that the list was written to. -/
theorem ldfFoldsAListOfAnyLength : Obligations.LdfFoldsAListOfAnyLength := by
  intro s l rd hwf good hfresh hrd
  have hs : Ready s.params s := ⟨rfl, hwf, good⟩
  obtain ⟨fb, wp, hdins, hholds⟩ := hs.runLines_dins hfresh l
  have hfilled : Ready s.params { s with fb := fb, wp := wp } := ⟨rfl, wf_of_runLines hdins hwf, good⟩
  have ok := executable_fold (s := { s with fb := fb, wp := wp }) hrd
  obtain ⟨-, -, hfold⟩ := foldSubtractsTheHalvesAndClears
  obtain ⟨-, hruns⟩ := hfold _ rd hfilled.memory hfilled.good
  obtain ⟨t, hexec, hlength, hcoeff, hvalid, hregs, -, hzero, hwp, hkept⟩ := hruns hrd
  cases (exec_of_executable ok).symm.trans hexec
  refine ⟨_, runLines_trans hdins (hfilled.runLines_command ok), hlength, fun i hi => ?_, fun hl i hi => ?_, hvalid,
    ⟨fun j _ => hzero j, hwp⟩, hregs, hkept⟩
  · exact ⟨_, _, hholds i (by omega), hholds (i + s.params.n) (by omega), hcoeff i hi⟩
  · rw [hcoeff i hi, (hholds i (by omega)).eq_coeff hl (by omega),
      (hholds (i + s.params.n) (by omega)).eq_coeff hl (by omega)]

/-- Settles O50: with N words the upper half of the buffer is zero. -/
theorem ldxLoadsAnExactList : Obligations.LdxLoadsAnExactList := by
  intro s l rd hwf good hfresh hrd hl
  obtain ⟨t, hrun, hlength, -, hfold, hrest⟩ := ldfFoldsAListOfAnyLength s l rd hwf good hfresh hrd
  refine ⟨t, hrun, ext_coeff hlength hl fun i hi => ?_, hrest⟩
  rw [hfold (by omega) i hi, coeff_of_length_le (i := i + s.params.n) (by omega), sub_zero]

/-! ### RDR (R125) -/

/-- The first `m` reads of the output buffer return its first `m` words. -/
theorem runLines_douts {s : State} {m : Nat} (good : s.flt = false) (full : s.ovalid = true) (hrp : s.rp = 0)
    (hlen : s.ob.length = s.params.n) (hm : m ≤ s.params.n) :
    runLines (List.replicate m .dout) s =
      .next { s with rp := m % s.params.n, observed := s.observed ++ s.ob.take m } := by
  induction m with
  | zero => rw [List.replicate_zero, runLines_nil, Nat.zero_mod, List.take_zero, List.append_nil, ← hrp]
  | succ m ih =>
    have hword : coeff s.ob (m % s.params.n) = s.ob[m] := by
      rw [Nat.mod_eq_of_lt hm, coeff, List.getD_eq_getElem]
    have hread := runLines_dout (l := []) (s := { s with rp := m % s.params.n, observed := s.observed ++ s.ob.take m })
      good full
    rw [List.replicate_succ', runLines_append (ih (by omega)), hread, runLines_nil]
    simp [State.observe, State.advanceOut, hword]

/-- Settles O51: ST fills the output buffer with the register, and the N reads empty it. -/
theorem rdrReadsTheElement : Obligations.RdrReadsTheElement := by
  intro s rs hwf good hrs hv
  have hs : Ready s.params s := ⟨rfl, hwf, good⟩
  have ok : Executable (.st rs) s := by simp [Executable, usedRegs, immediateOf, sourceRegs, hrs, hv]
  have hlen := hs.length_reg hv
  have hst : runLines [.command (.st rs)] s = .next { s with ob := s.reg rs, ovalid := true, rp := 0 } := by
    simp only [hs.runLines_command ok, effectOf, State.setOutput, lanes_coeff hlen]
  have hreads := runLines_douts (s := { s with ob := s.reg rs, ovalid := true, rp := 0 }) (m := s.params.n) good rfl rfl
    hlen le_rfl
  rw [rdr, ← List.singleton_append, runLines_trans hst hreads, Nat.mod_self, ← hlen, List.take_length]

end Sys2Proof.Machine
end

section
/-! SUPPORT. Sequences of register commands (42_lwe_protocol.md R126 to R131): what one such command leaves, loops over
the components of a key or a ciphertext, and the sequences made of them. -/

namespace Sys2Proof.Machine

/-! ### Register ranges (R120) -/

theorem mem_regRange {base k r : Nat} : r ∈ regRange base k ↔ base ≤ r ∧ r < base + k := by
  simp only [regRange, List.mem_map, List.mem_range]
  exact ⟨by rintro ⟨i, hi, rfl⟩; omega, fun h => ⟨r - base, by omega, by omega⟩⟩

theorem all_regRange {base k : Nat} {f : RegNum → Bool} :
    (regRange base k).all f = true ↔ ∀ i < k, f (base + i) = true := by
  simp [regRange]

theorem keyReady_iff {s : State} {k kb : Nat} : keyReady s k kb = true ↔ ∀ i < k, s.isValid (kb + i) = true :=
  all_regRange

theorem ciphertextValid_iff {s : State} {k cb : Nat} :
    ciphertextValid s k cb = true ↔ ∀ i < k + 1, s.isValid (cb + i) = true := all_regRange

/-! ### Runs that change registers only -/

section
variable {s t u : State}

theorem KeepsFold.trans : KeepsFold s t → KeepsFold t u → KeepsFold s u := by
  rintro ⟨hfb, hwp⟩ ⟨hfb', hwp'⟩
  exact ⟨hfb'.trans hfb, hwp'.trans hwp⟩

theorem KeepsOutput.trans : KeepsOutput s t → KeepsOutput t u → KeepsOutput s u := by
  rintro ⟨hob, hovalid, hrp⟩ ⟨hob', hovalid', hrp'⟩
  exact ⟨hob'.trans hob, hovalid'.trans hovalid, hrp'.trans hrp⟩

theorem KeepsFault.trans : KeepsFault s t → KeepsFault t u → KeepsFault s u := by
  rintro ⟨hflt, hcode⟩ ⟨hflt', hcode'⟩
  exact ⟨hflt'.trans hflt, hcode'.trans hcode⟩

theorem KeepsHost.trans : KeepsHost s t → KeepsHost t u → KeepsHost s u := by
  rintro ⟨hparams, hpending, hobserved, hfreeIx⟩ ⟨hparams', hpending', hobserved', hfreeIx'⟩
  exact ⟨hparams'.trans hparams, hpending'.trans hpending, hobserved'.trans hobserved, hfreeIx'.trans hfreeIx⟩

end

/-- The lines `l` take `s` to `t`; they make `j` draws of the randomness source and `k` of the noise source, change no
register outside `ds`, clear no valid bit, and change nothing else. -/
structure RegRun (l : List Line) (ds : List Nat) (j k : Nat) (s t : State) : Prop where
  run : runLines l s = .next t
  regs : ∀ r, r ∉ ds → t.reg r = s.reg r ∧ t.isValid r = s.isValid r
  valid : ∀ r, s.isValid r = true → t.isValid r = true
  random : t.random = drawnOf s.random j
  noise : t.noise = drawnOf s.noise k
  fold : KeepsFold s t
  output : KeepsOutput s t
  eq : t.eq = s.eq
  fault : KeepsFault s t
  host : KeepsHost s t

section
variable {p : Params} {l l' : List Line} {ds ds' : List Nat} {j j' k k' : Nat} {s t u : State}

theorem RegRun.refl (ds : List Nat) (s : State) : RegRun [] ds 0 0 s s :=
  ⟨rfl, fun _ _ => ⟨rfl, rfl⟩, fun _ => id, rfl, rfl, ⟨rfl, rfl⟩, ⟨rfl, rfl, rfl⟩, rfl, ⟨rfl, rfl⟩,
    ⟨rfl, rfl, rfl, rfl⟩⟩

theorem RegRun.params_eq (h : RegRun l ds j k s t) : t.params = s.params := by
  obtain ⟨hparams, -⟩ := h.host
  exact hparams

theorem RegRun.observed_eq (h : RegRun l ds j k s t) : t.observed = s.observed := by
  obtain ⟨-, -, hobserved, -⟩ := h.host
  exact hobserved

theorem RegRun.ready (h : RegRun l ds j k s t) (hs : Ready p s) : Ready p t :=
  ⟨h.params_eq.trans hs.params, wf_of_runLines h.run hs.wf, h.fault.1.trans hs.good⟩

theorem RegRun.mono (h : RegRun l ds j k s t) (hds : ds ⊆ ds') : RegRun l ds' j k s t :=
  { h with regs := fun r hr => h.regs r fun hmem => hr (hds hmem) }

theorem RegRun.trans (h : RegRun l ds j k s t) (h' : RegRun l' ds j' k' t u) :
    RegRun (l ++ l') ds (j + j') (k + k') s u where
  run := runLines_trans h.run h'.run
  regs r hr := ⟨(h'.regs r hr).1.trans (h.regs r hr).1, (h'.regs r hr).2.trans (h.regs r hr).2⟩
  valid r hr := h'.valid r (h.valid r hr)
  random := by rw [h'.random, h.random, drawnOf_drawnOf]
  noise := by rw [h'.noise, h.noise, drawnOf_drawnOf]
  fold := h.fold.trans h'.fold
  output := h.output.trans h'.output
  eq := h'.eq.trans h.eq
  fault := h.fault.trans h'.fault
  host := h.host.trans h'.host

/-- A loop: `P i` holds after `i` rounds, which have changed the registers `ds i` only. -/
theorem RegRun.loop {f : Nat → List Line} {ds : Nat → List Nat} (P : Nat → State → Prop) (m : Nat)
    (grows : ∀ i, ds i ⊆ ds (i + 1)) (start : P 0 s)
    (round : ∀ i < m, ∀ u, RegRun ((List.range i).flatMap f) (ds i) (i * j) 0 s u → P i u →
      ∃ v, RegRun (f i) (ds (i + 1)) j 0 u v ∧ P (i + 1) v) :
    ∃ t, RegRun ((List.range m).flatMap f) (ds m) (m * j) 0 s t ∧ P m t := by
  induction m with
  | zero => exact ⟨s, by rw [Nat.zero_mul]; exact RegRun.refl _ s, start⟩
  | succ m ih =>
    obtain ⟨u, hu, hPu⟩ := ih fun i hi => round i (by omega)
    obtain ⟨v, hv, hPv⟩ := round m (by omega) u hu hPu
    refine ⟨v, ?_, hPv⟩
    rw [List.range_succ, List.flatMap_append, List.flatMap_singleton, Nat.succ_mul]
    exact (hu.mono (grows m)).trans hv

end

/-! ### One register command -/

section
variable {p : Params} {s : State} {rd rs1 rs2 b : Nat} (hs : Ready p s) (hrd : rd < p.nr)
include hs hrd

/-- A command whose effect is to write `v` to `rd`, after `j` and `k` draws. -/
theorem Ready.regRun_command {i : Instr} {v : RingElt} {j k : Nat} (ok : Executable i s)
    (heffect : effectOf i s =
      { s.setReg rd v with random := drawnOf s.random j, noise := drawnOf s.noise k }) :
    ∃ t, RegRun [.command i] [rd] j k s t ∧ t.reg rd = v ∧ t.isValid rd = true := by
  obtain ⟨hregs, -, hvalid, -, -⟩ := memory_wf_iff.1 hs.memory
  rw [hs.params] at hregs hvalid
  have hrun := hs.runLines_command ok
  rw [heffect] at hrun
  refine ⟨_, ⟨hrun, fun r hr => ?_, fun r => isValid_setReg_of_isValid s rd r v, rfl, rfl, ⟨rfl, rfl⟩, ⟨rfl, rfl, rfl⟩,
    rfl, ⟨rfl, rfl⟩, ⟨rfl, rfl, rfl, rfl⟩⟩, reg_setReg_self s v (hregs ▸ hrd), isValid_setReg_self s v (hvalid ▸ hrd)⟩
  exact ⟨reg_setReg_ne s v (by simpa using hr), isValid_setReg_ne s v (by simpa using hr)⟩

theorem Ready.executable {i : Instr} (hused : usedRegs i = rd :: sourceRegs i)
    (himm : ∀ b, immediateOf i = some b → 1 ≤ b ∧ b ≤ 31) (hv : ∀ r ∈ sourceRegs i, s.isValid r = true) :
    Executable i s := by
  refine ⟨fun r hr => ?_, himm, hv⟩
  rw [hs.params]
  rcases List.mem_cons.1 (hused ▸ hr) with rfl | hr
  · exact hrd
  · exact hs.lt_of_isValid (hv r hr)

theorem Ready.regRun_zero :
    ∃ t, RegRun [.command (.zero rd)] [rd] 0 0 s t ∧ t.reg rd = ringZero p.n ∧ t.isValid rd = true := by
  obtain rfl := hs.params
  exact hs.regRun_command hrd (hs.executable hrd rfl (by simp [immediateOf]) (by simp [sourceRegs])) rfl

theorem Ready.regRun_randomFill (bits : Bool) :
    ∃ t, RegRun [.command (randomFill bits rd)] [rd] p.n 0 s t ∧ t.reg rd = lanes p.n (randomDraw bits s) ∧
      t.isValid rd = true := by
  obtain rfl := hs.params
  exact hs.regRun_command hrd (executable_randomFill bits hrd) (effectOf_randomFill bits rd s)

section
variable (hv1 : s.isValid rs1 = true)
include hv1

theorem Ready.regRun_addn :
    ∃ t, RegRun [.command (.addn rd rs1)] [rd] 0 p.n s t ∧
      t.reg rd = lanes p.n (fun i => coeff (s.reg rs1) i + noiseDraw s i) ∧ t.isValid rd = true := by
  obtain rfl := hs.params
  exact hs.regRun_command hrd (executable_addn hrd (hs.lt_of_isValid hv1) hv1) (effectOf_addn rd rs1 s)

section
variable (hb1 : 1 ≤ b) (hb : b ≤ 31)
include hb1 hb

theorem Ready.regRun_enc :
    ∃ t, RegRun [.command (.enc rd rs1 b)] [rd] 0 0 s t ∧
      t.reg rd = lanes p.n (fun i => encodeWord b (coeff (s.reg rs1) i)) ∧ t.isValid rd = true := by
  obtain rfl := hs.params
  exact hs.regRun_command hrd
    (hs.executable hrd rfl (by simp [immediateOf, hb1, hb]) (by simpa [sourceRegs] using hv1)) rfl

theorem Ready.regRun_dec :
    ∃ t, RegRun [.command (.dec rd rs1 b)] [rd] 0 0 s t ∧
      t.reg rd = lanes p.n (fun i => decodeWord b (coeff (s.reg rs1) i)) ∧ t.isValid rd = true := by
  obtain rfl := hs.params
  exact hs.regRun_command hrd
    (hs.executable hrd rfl (by simp [immediateOf, hb1, hb]) (by simpa [sourceRegs] using hv1)) rfl

end

variable (hv2 : s.isValid rs2 = true)
include hv2

theorem Ready.regRun_add :
    ∃ t, RegRun [.command (.add rd rs1 rs2)] [rd] 0 0 s t ∧ t.reg rd = ringAdd p.n (s.reg rs1) (s.reg rs2) ∧
      t.isValid rd = true := by
  obtain rfl := hs.params
  exact hs.regRun_command hrd (hs.executable hrd rfl (by simp [immediateOf]) (by simp [sourceRegs, hv1, hv2])) rfl

theorem Ready.regRun_sub :
    ∃ t, RegRun [.command (.sub rd rs1 rs2)] [rd] 0 0 s t ∧ t.reg rd = ringSub p.n (s.reg rs1) (s.reg rs2) ∧
      t.isValid rd = true := by
  obtain rfl := hs.params
  exact hs.regRun_command hrd (hs.executable hrd rfl (by simp [immediateOf]) (by simp [sourceRegs, hv1, hv2])) rfl

theorem Ready.regRun_mul :
    ∃ t, RegRun [.command (.mul rd rs1 rs2)] [rd] 0 0 s t ∧ t.reg rd = ringMul p.n (s.reg rs1) (s.reg rs2) ∧
      t.isValid rd = true := by
  obtain rfl := hs.params
  exact hs.regRun_command hrd (hs.executable hrd rfl (by simp [immediateOf]) (by simp [sourceRegs, hv1, hv2])) rfl

end
end

/-! ### KEYGEN and the masks of ENCRYPT (R126, R127 step 1) -/

theorem regRange_subset_succ (base i : Nat) : regRange base i ⊆ regRange base (i + 1) := fun r hr => by
  rw [mem_regRange] at hr ⊢
  omega

theorem singleton_subset_regRange_succ (base i : Nat) : [base + i] ⊆ regRange base (i + 1) := by
  simp [mem_regRange]

theorem commands_eq_flatMap (k : Nat) (f : Nat → Instr) :
    (List.range k).map (fun i => Line.command (f i)) = (List.range k).flatMap fun i => [.command (f i)] :=
  List.map_eq_flatMap

/-- Random fills of the registers from `base` on: register `i` takes the `N` answers after the first `i * N`. -/
theorem Ready.regRun_randomFills {p : Params} {s : State} {base k : Nat} (hs : Ready p s) (bits : Bool)
    (hk : base + k ≤ p.nr) :
    ∃ t, RegRun ((List.range k).map fun i => .command (randomFill bits (base + i))) (regRange base k) (k * p.n) 0 s t ∧
      ∀ i < k, t.reg (base + i) = lanes p.n (fun j => randomDraw bits s (i * p.n + j)) ∧
        t.isValid (base + i) = true := by
  rw [commands_eq_flatMap]
  refine RegRun.loop (fun m u => ∀ i < m, u.reg (base + i) = lanes p.n (fun j => randomDraw bits s (i * p.n + j)) ∧
    u.isValid (base + i) = true) k (regRange_subset_succ base) (by simp) fun m hm u hu hfilled => ?_
  obtain ⟨v, hv, hreg, hvalid⟩ := (hu.ready hs).regRun_randomFill (rd := base + m) (by omega) bits
  refine ⟨v, hv.mono (singleton_subset_regRange_succ base m), fun i hi => ?_⟩
  rcases Nat.lt_succ_iff_lt_or_eq.1 hi with hi | rfl
  · obtain ⟨hkept, hkeptValid⟩ := hv.regs (base + i) (by simp; omega)
    rw [hkept, hkeptValid]
    exact hfilled i hi
  · exact ⟨hreg.trans (lanes_congr fun j _ => randomDraw_of_drawn bits hu.random j), hvalid⟩

/-- Settles O52: KEYGEN is the random fills with bits. -/
theorem keygenDrawsTheKeyBits : Obligations.KeygenDrawsTheKeyBits := by
  intro s k kb hwf good hk
  obtain ⟨t, h, hfilled⟩ := Ready.regRun_randomFills ⟨rfl, hwf, good⟩ true hk
  refine ⟨t, h.run, keyReady_iff.2 fun i hi => (hfilled i hi).2, fun i hi j hj => ?_, h.random, h.noise, h.regs, h.fold,
    h.output, h.eq, h.fault, h.host⟩
  rw [(hfilled i hi).1, coeff_lanes _ hj, randomDraw_true]

/-! ### CTADD (R131) -/

/-- Component `i` of a range that is the same or apart is not among the first `i` of the result. -/
theorem not_mem_regRange_of_sameOrApart {k cd c i : Nat} (h : sameOrApart k cd c = true) (hi : i < k + 1) :
    c + i ∉ regRange cd i := by
  simp only [sameOrApart, Bool.or_eq_true, decide_eq_true_eq] at h
  rw [mem_regRange]
  omega

/-- CTADD leaves in component `i` the sum of the two components `i` as they were before: those still to be added are not
yet written. -/
theorem Ready.regRun_ctadd {p : Params} {s : State} {k cd c1 c2 : Nat} (hs : Ready p s) (hcd : cd + k < p.nr)
    (h1 : sameOrApart k cd c1 = true) (h2 : sameOrApart k cd c2 = true) (hv1 : ciphertextValid s k c1 = true)
    (hv2 : ciphertextValid s k c2 = true) :
    ∃ t, RegRun (ctadd k cd c1 c2) (regRange cd (k + 1)) 0 0 s t ∧
      ∀ i < k + 1, t.reg (cd + i) = ringAdd p.n (s.reg (c1 + i)) (s.reg (c2 + i)) ∧ t.isValid (cd + i) = true := by
  rw [ciphertextValid_iff] at hv1 hv2
  rw [ctadd, commands_eq_flatMap]
  refine RegRun.loop (j := 0) (fun m u => ∀ i < m, u.reg (cd + i) = ringAdd p.n (s.reg (c1 + i)) (s.reg (c2 + i)) ∧
    u.isValid (cd + i) = true) (k + 1) (regRange_subset_succ cd) (by simp) fun m hm u hu hadded => ?_
  obtain ⟨v, hv, hreg, hvalid⟩ := (hu.ready hs).regRun_add (rd := cd + m) (by omega) (hu.valid _ (hv1 m hm))
    (hu.valid _ (hv2 m hm))
  refine ⟨v, hv.mono (singleton_subset_regRange_succ cd m), fun i hi => ?_⟩
  rcases Nat.lt_succ_iff_lt_or_eq.1 hi with hi | rfl
  · obtain ⟨hkept, hkeptValid⟩ := hv.regs (cd + i) (by simp; omega)
    rw [hkept, hkeptValid]
    exact hadded i hi
  · refine ⟨?_, hvalid⟩
    obtain ⟨hkept1, -⟩ := hu.regs _ (not_mem_regRange_of_sameOrApart h1 hm)
    obtain ⟨hkept2, -⟩ := hu.regs _ (not_mem_regRange_of_sameOrApart h2 hm)
    rw [hreg, hkept1, hkept2]

/-- Settles O56: the components of the result are sums of ring elements. -/
theorem ctaddSumsTheComponents : Obligations.CtaddSumsTheComponents := by
  intro s k cd c1 c2 hwf good hcd _ _ h1 h2 _ hv1 hv2
  obtain ⟨t, h, hsum⟩ := Ready.regRun_ctadd ⟨rfl, hwf, good⟩ hcd h1 h2 hv1 hv2
  refine ⟨t, h.run, fun i hi j hj => ?_, ciphertextValid_iff.2 fun i hi => (hsum i hi).2, h.regs, h.fold, h.output,
    h.eq, h.fault, ⟨h.random, h.noise⟩, h.host⟩
  rw [(hsum i (Nat.lt_succ_of_le hi)).1, ringAdd, coeff_lanes _ hj]

end Sys2Proof.Machine
end

section
/-! SUPPORT. ENCRYPT and DECRYPT (42_lwe_protocol.md R127 to R129): what the registers hold after each. -/

namespace Sys2Proof.Machine

/-! ### Layouts (R120, R129) -/

theorem layoutOk_iff {nr : Nat} {l : List Nat} : layoutOk nr l = true ↔ (∀ r ∈ l, r < nr) ∧ l.Nodup := by
  simp [layoutOk]

/-- A layout stays legal when registers are left out or taken in another order. -/
theorem layoutOk_of_count_le {nr : Nat} {l l' : List Nat} (h : layoutOk nr l = true)
    (hcount : ∀ r, l'.count r ≤ l.count r) : layoutOk nr l' = true := by
  obtain ⟨hlt, hnodup⟩ := layoutOk_iff.1 h
  refine layoutOk_iff.2 ⟨fun r hr => hlt r ?_, List.nodup_iff_count_le_one.2 fun r => ?_⟩
  · exact List.count_pos_iff.1 (Nat.lt_of_lt_of_le (List.count_pos_iff.2 hr) (hcount r))
  · exact (hcount r).trans (List.nodup_iff_count_le_one.1 hnodup r)

/-- Two ranges without a common register stand one after the other. -/
theorem apart_of_disjoint_regRange {a m b l : Nat} (hm : 0 < m) (hl : 0 < l)
    (h : (regRange a m).Disjoint (regRange b l)) : a + m ≤ b ∨ b + l ≤ a := by
  by_contra hnot
  exact h (a := max a b) (mem_regRange.2 (by omega)) (mem_regRange.2 (by omega))

theorem apart_of_layoutOk {nr k c1 c2 : Nat}
    (h : layoutOk nr (regRange c1 (k + 1) ++ regRange c2 (k + 1)) = true) : c1 + k < c2 ∨ c2 + k < c1 := by
  obtain ⟨-, hnodup⟩ := layoutOk_iff.1 h
  obtain ⟨-, -, hdisjoint⟩ := List.nodup_append'.1 hnodup
  have hapart := apart_of_disjoint_regRange (Nat.succ_pos k) (Nat.succ_pos k) hdisjoint
  omega

/-- Key, ciphertext, scratch and one more register, the plaintext or the output, below `nr` and apart. -/
structure Layout (nr k cb kb x t : Nat) : Prop where
  key_le : kb + k ≤ nr
  ct_lt : cb + k < nr
  x_lt : x < nr
  scratch_lt : t < nr
  x_ne_scratch : x ≠ t
  key_ct : kb + k ≤ cb ∨ cb + k < kb
  key_x : x < kb ∨ kb + k ≤ x
  key_scratch : t < kb ∨ kb + k ≤ t
  ct_x : x < cb ∨ cb + k < x
  ct_scratch : t < cb ∨ cb + k < t

theorem layout_of_layoutOk {nr k cb kb x t : Nat} (hk : 1 ≤ k) (h : layoutOk nr (encryptRegs k cb kb x t) = true) :
    Layout nr k cb kb x t := by
  obtain ⟨hlt, hnodup⟩ := layoutOk_iff.1 h
  simp only [encryptRegs, List.mem_append, List.mem_cons, mem_regRange] at hlt
  obtain ⟨hranges, hpair, hrest⟩ := List.nodup_append'.1 hnodup
  obtain ⟨-, -, hkeyct⟩ := List.nodup_append'.1 hranges
  have hx : x ∉ regRange kb k ++ regRange cb (k + 1) := fun hmem => hrest hmem (by simp)
  have ht : t ∉ regRange kb k ++ regRange cb (k + 1) := fun hmem => hrest hmem (by simp)
  simp only [List.mem_append, mem_regRange] at hx ht
  have hapart := apart_of_disjoint_regRange hk (Nat.succ_pos k) hkeyct
  exact
    { key_le := by
        have hlast := hlt (kb + k - 1) (by omega)
        omega
      ct_lt := hlt (cb + k) (by omega)
      x_lt := hlt x (by simp)
      scratch_lt := hlt t (by simp)
      x_ne_scratch := by simpa using hpair
      key_ct := by omega
      key_x := by omega
      key_scratch := by omega
      ct_x := by omega
      ct_scratch := by omega }

theorem layout_of_count_le {nr k cb kb x t : Nat} {l : List Nat} (hk : 1 ≤ k) (h : layoutOk nr l = true)
    (hcount : ∀ r, (encryptRegs k cb kb x t).count r ≤ l.count r) : Layout nr k cb kb x t :=
  layout_of_layoutOk hk (layoutOk_of_count_le h hcount)

/-! ### The sum of the products (R127 step 2, R129 step 1) -/

theorem ringAdd_lanes (n : Nat) (f : Nat → Word) (a : RingElt) :
    ringAdd n (lanes n f) a = lanes n fun j => f j + coeff a j :=
  lanes_congr fun i hi => by rw [coeff_lanes _ hi]

theorem ringSub_lanes (n : Nat) (f : Nat → Word) (a : RingElt) :
    ringSub n (lanes n f) a = lanes n fun j => f j - coeff a j :=
  lanes_congr fun i hi => by rw [coeff_lanes _ hi]

theorem maskSum_succ (s : State) (k kb cb j : Nat) :
    maskSum s (k + 1) kb cb j =
      maskSum s k kb cb j + coeff (ringMul s.params.n (s.reg (kb + k)) (s.reg (cb + k))) j := rfl

/-- The sum depends on the key and the masks only. -/
theorem maskSum_congr {s u : State} {k kb cb cb' : Nat} (hp : u.params = s.params)
    (hkey : ∀ i < k, u.reg (kb + i) = s.reg (kb + i)) (hmask : ∀ i < k, u.reg (cb' + i) = s.reg (cb + i)) :
    maskSum u k kb cb' = maskSum s k kb cb :=
  funext fun j => sum32_congr fun i hi => by rw [hp, hkey i hi, hmask i hi]

section
variable {p : Params} {s : State} {rd acc a c t : Nat} (hs : Ready p s) (hrd : rd < p.nr) (ht : t < p.nr)
  (hacc : acc ≠ t) (hva : s.isValid a = true) (hvc : s.isValid c = true) (hvacc : s.isValid acc = true)
include hs hrd ht hacc hva hvc hvacc

/-- A product, formed in `t`, is added to a register. -/
theorem Ready.regRun_mulAdd :
    ∃ u, RegRun [.command (.mul t a c), .command (.add rd acc t)] [rd, t] 0 0 s u ∧
      u.reg rd = ringAdd p.n (s.reg acc) (ringMul p.n (s.reg a) (s.reg c)) ∧ u.isValid rd = true := by
  obtain ⟨v, hmul, hprod, hprodValid⟩ := hs.regRun_mul ht hva hvc
  obtain ⟨u, hadd, hsum, hsumValid⟩ := (hmul.ready hs).regRun_add hrd (hmul.valid _ hvacc) hprodValid
  refine ⟨u, (hmul.mono (by simp)).trans (hadd.mono (by simp)), ?_, hsumValid⟩
  rw [hsum, (hmul.regs acc (by simpa using hacc)).1, hprod]

/-- A product, formed in `t`, is subtracted from a register. -/
theorem Ready.regRun_mulSub :
    ∃ u, RegRun [.command (.mul t a c), .command (.sub rd acc t)] [rd, t] 0 0 s u ∧
      u.reg rd = ringSub p.n (s.reg acc) (ringMul p.n (s.reg a) (s.reg c)) ∧ u.isValid rd = true := by
  obtain ⟨v, hmul, hprod, hprodValid⟩ := hs.regRun_mul ht hva hvc
  obtain ⟨u, hsub, hdiff, hdiffValid⟩ := (hmul.ready hs).regRun_sub hrd (hmul.valid _ hvacc) hprodValid
  refine ⟨u, (hmul.mono (by simp)).trans (hsub.mono (by simp)), ?_, hdiffValid⟩
  rw [hdiff, (hmul.regs acc (by simpa using hacc)).1, hprod]

end

section
variable {p : Params} {s : State} {k cb kb x t b : Nat} (hs : Ready p s) (hl : Layout p.nr k cb kb x t)
  (hkey : ∀ i < k, s.isValid (kb + i) = true)
include hs hl hkey

/-- Step 2 of ENCRYPT: after `i` rounds the phase is the sum of the first `i` products. -/
theorem Ready.regRun_encryptPhase (hmask : ∀ i < k, s.isValid (cb + i) = true) :
    ∃ u, RegRun (encryptPhase k cb kb t) [cb + k, t] 0 0 s u ∧ u.reg (cb + k) = lanes p.n (maskSum s k kb cb) ∧
      u.isValid (cb + k) = true := by
  obtain ⟨-, hct, -, ht, -, hkeyct, -, hkeyt, -, hctt⟩ := hl
  obtain ⟨s₀, hzero, hzeroReg, hzeroValid⟩ := hs.regRun_zero hct
  have hstart : RegRun [.command (.zero (cb + k))] [cb + k, t] 0 0 s s₀ := hzero.mono (by simp)
  obtain ⟨u, hu, hphase⟩ := RegRun.loop (s := s₀) (j := 0) (ds := fun _ => [cb + k, t])
    (f := fun i => [.command (.mul t (kb + i) (cb + i)), .command (.add (cb + k) (cb + k) t)])
    (fun i u => u.reg (cb + k) = lanes p.n (maskSum s i kb cb) ∧ u.isValid (cb + k) = true) k
    (fun _ => List.Subset.refl _) ⟨hzeroReg, hzeroValid⟩ fun i hi u hu ⟨hreg, hvalid⟩ => by
      have hfrom := hstart.trans hu
      obtain ⟨v, hround, hsum, hsumValid⟩ := (hfrom.ready hs).regRun_mulAdd (acc := cb + k) hct ht (by omega)
        (hfrom.valid _ (hkey i hi)) (hfrom.valid _ (hmask i hi)) hvalid
      have hkeyReg := (hfrom.regs (kb + i) (by simp; omega)).1
      have hmaskReg := (hfrom.regs (cb + i) (by simp; omega)).1
      refine ⟨v, hround, ?_, hsumValid⟩
      rw [hsum, hreg, hkeyReg, hmaskReg, ringAdd_lanes]
      exact lanes_congr fun j _ => by rw [maskSum_succ, hs.params]
  exact ⟨u, hstart.trans hu, hphase⟩

/-- Steps 1 and 2 of DECRYPT: after `i` rounds the output is the phase less the first `i + 1` products. -/
theorem Ready.regRun_decryptCompute (hk : 1 ≤ k) (hb1 : 1 ≤ b) (hb : b ≤ 31) (hct : ciphertextValid s k cb = true) :
    ∃ u, RegRun (decryptCompute k x cb kb t b) [x, t] 0 0 s u ∧
      u.reg x = lanes p.n (fun j => decodeWord b (coeff (s.reg (cb + k)) j - maskSum s k kb cb j)) ∧
      u.isValid x = true := by
  obtain ⟨-, -, hx, ht, hxt, -, hkeyx, hkeyt, hctx, hctt⟩ := hl
  rw [ciphertextValid_iff] at hct
  obtain ⟨k, rfl⟩ : ∃ m, k = m + 1 := ⟨k - 1, by omega⟩
  obtain ⟨s₁, hstart, hfirst, hfirstValid⟩ := hs.regRun_mulSub (acc := cb + (k + 1)) hx ht (by omega)
    (hkey 0 (by omega)) (hct 0 (by omega)) (hct (k + 1) (by omega))
  have hfirstReg : s₁.reg x = lanes p.n fun j => coeff (s.reg (cb + (k + 1))) j - maskSum s (0 + 1) kb cb j := by
    rw [hfirst, ringSub]
    exact lanes_congr fun j _ => by rw [maskSum_succ, hs.params, maskSum, sum32, zero_add]
  obtain ⟨u, hu, hreg, hvalid⟩ := RegRun.loop (s := s₁) (j := 0) (ds := fun _ => [x, t])
    (f := fun i => [.command (.mul t (kb + (i + 1)) (cb + (i + 1))), .command (.sub x x t)])
    (fun i u => u.reg x = lanes p.n (fun j => coeff (s.reg (cb + (k + 1))) j - maskSum s (i + 1) kb cb j) ∧
      u.isValid x = true) k (fun _ => List.Subset.refl _) ⟨hfirstReg, hfirstValid⟩ fun i hi u hu ⟨hreg, hvalid⟩ => by
        have hfrom := hstart.trans hu
        obtain ⟨v, hround, hdiff, hdiffValid⟩ := (hfrom.ready hs).regRun_mulSub (acc := x) hx ht hxt
          (hfrom.valid _ (hkey (i + 1) (by omega))) (hfrom.valid _ (hct (i + 1) (by omega))) hvalid
        have hkeyReg := (hfrom.regs (kb + (i + 1)) (by simp; omega)).1
        have hmaskReg := (hfrom.regs (cb + (i + 1)) (by simp; omega)).1
        refine ⟨v, hround, ?_, hdiffValid⟩
        rw [hdiff, hreg, hkeyReg, hmaskReg, ringSub_lanes]
        exact lanes_congr fun j _ => by rw [maskSum_succ s (i + 1), hs.params, sub_sub]
  obtain ⟨v, hdec, hround, hroundValid⟩ := (hu.ready (hstart.ready hs)).regRun_dec hx hvalid hb1 hb
  refine ⟨v, (hstart.trans hu).trans (hdec.mono (by simp)), hround.trans (lanes_congr fun j hj => ?_), hroundValid⟩
  rw [hreg, coeff_lanes _ hj]

end

/-! ### ENCRYPT (R127, R128) -/

/-- `u` is what ENCRYPT leaves from `s`. -/
structure Encrypted (p : Params) (k cb kb pt t b : Nat) (s u : State) : Prop where
  run : RegRun (encryptLines k cb kb pt t b) (t :: regRange cb (k + 1)) (k * p.n) p.n s u
  masks : ∀ i < k, u.reg (cb + i) = lanes p.n fun j => wordDraw s (i * p.n + j)
  scratch : u.reg t = lanes p.n fun j => encodeWord b (coeff (s.reg pt) j) + noiseDraw s j
  phase : u.reg (cb + k) =
    lanes p.n fun j => maskSum u k kb cb j + (encodeWord b (coeff (s.reg pt) j) + noiseDraw s j)
  valid : ciphertextValid u k cb = true

/-- Steps 3 to 5 of ENCRYPT: the payloads, encoded and noised, are added to the phase. -/
theorem Ready.regRun_encryptPayload {p : Params} {s : State} {phase pt t b : Nat} (hs : Ready p s)
    (hphase : phase < p.nr) (ht : t < p.nr) (hne : phase ≠ t) (hb1 : 1 ≤ b) (hb : b ≤ 31) (hpt : s.isValid pt = true)
    (hv : s.isValid phase = true) :
    ∃ u, RegRun [.command (.enc t pt b), .command (.addn t t), .command (.add phase phase t)] [phase, t] 0 p.n s u ∧
      u.reg t = lanes p.n (fun j => encodeWord b (coeff (s.reg pt) j) + noiseDraw s j) ∧
      u.reg phase = ringAdd p.n (s.reg phase) (u.reg t) ∧ u.isValid phase = true := by
  obtain ⟨s₁, henc, hencoded, hencodedValid⟩ := hs.regRun_enc ht hpt hb1 hb
  obtain ⟨s₂, haddn, hnoised, hnoisedValid⟩ := (henc.ready hs).regRun_addn ht hencodedValid
  have hfrom := henc.trans haddn
  have hkept := hfrom.regs phase (by simpa using hne)
  obtain ⟨u, hadd, hsum, hsumValid⟩ := (hfrom.ready hs).regRun_add hphase (hkept.2.trans hv) hnoisedValid
  have hscratch := (hadd.regs t (by simpa using hne.symm)).1
  refine ⟨u, ?_, ?_, by rw [hsum, hscratch, hkept.1], hsumValid⟩
  · have hrun := (hfrom.mono (ds' := [phase, t]) (by simp)).trans (hadd.mono (by simp))
    simpa using hrun
  · rw [hscratch, hnoised, hencoded]
    refine lanes_congr fun j hj => ?_
    rw [coeff_lanes _ hj, noiseDraw_of_drawn henc.noise, Nat.zero_add]

/-- ENCRYPT runs: the masks, then the phase over them, then the payloads into the phase. -/
theorem Ready.encrypt {p : Params} {s : State} {k cb kb pt t b : Nat} (hs : Ready p s) (hl : Layout p.nr k cb kb pt t)
    (hb1 : 1 ≤ b) (hb : b ≤ 31) (hkey : ∀ i < k, s.isValid (kb + i) = true) (hpt : s.isValid pt = true) :
    ∃ u, Encrypted p k cb kb pt t b s u := by
  have ⟨_, hct, _, ht, hptt, hkeyct, _, hkeyt, hctpt, hctt⟩ := hl
  obtain ⟨s₁, hmasks, hfilled⟩ := hs.regRun_randomFills false (base := cb) (k := k) (by omega)
  have hs₁ := hmasks.ready hs
  obtain ⟨s₂, hproducts, hsum, hsumValid⟩ := hs₁.regRun_encryptPhase hl (fun i hi => hmasks.valid _ (hkey i hi))
    fun i hi => (hfilled i hi).2
  have hs₂ := hproducts.ready hs₁
  obtain ⟨u, hpayload, hscratch, hphase, hphaseValid⟩ := hs₂.regRun_encryptPayload hct ht (by omega) hb1 hb
    (hproducts.valid _ (hmasks.valid _ hpt)) hsumValid
  have hmaskRegs : regRange cb k ⊆ t :: regRange cb (k + 1) :=
    List.subset_cons_of_subset t (regRange_subset_succ cb k)
  have hphaseRegs : [cb + k, t] ⊆ t :: regRange cb (k + 1) := by simp [mem_regRange]
  have hfrom := (hmasks.mono hmaskRegs).trans (hproducts.mono hphaseRegs)
  have hrun := hfrom.trans (hpayload.mono hphaseRegs)
  have hkeepsPt : s₂.reg pt = s.reg pt := by
    rw [(hproducts.regs pt (by simp; omega)).1, (hmasks.regs pt (by rw [mem_regRange]; omega)).1]
  have hkeepsMask : ∀ i < k, u.reg (cb + i) = s₁.reg (cb + i) := fun i hi => by
    rw [(hpayload.regs (cb + i) (by simp; omega)).1, (hproducts.regs (cb + i) (by simp; omega)).1]
  have hkeepsKey : ∀ i < k, u.reg (kb + i) = s₁.reg (kb + i) := fun i hi => by
    rw [(hpayload.regs (kb + i) (by simp; omega)).1, (hproducts.regs (kb + i) (by simp; omega)).1]
  have hnoised : u.reg t = lanes p.n fun j => encodeWord b (coeff (s.reg pt) j) + noiseDraw s j := by
    rw [hscratch, hkeepsPt]
    refine lanes_congr fun j _ => ?_
    rw [noiseDraw_of_drawn hfrom.noise, Nat.zero_add]
  refine ⟨u, ?_, fun i hi => ?_, hnoised, ?_, ciphertextValid_iff.2 fun i hi => ?_⟩
  · simpa [encryptLines, encryptMasks, randomFill] using hrun
  · rw [hkeepsMask i hi, (hfilled i hi).1, randomDraw_false]
  · have hproductsKept : maskSum u k kb cb = maskSum s₁ k kb cb :=
      maskSum_congr (hpayload.params_eq.trans hproducts.params_eq) hkeepsKey hkeepsMask
    rw [hphase, hsum, ringAdd_lanes, hproductsKept]
    refine lanes_congr fun j hj => ?_
    rw [hnoised, coeff_lanes _ hj]
  · rcases Nat.lt_succ_iff_lt_or_eq.1 hi with hi | rfl
    · exact hpayload.valid _ (hproducts.valid _ (hfilled i hi).2)
    · exact hphaseValid

theorem length_encryptLines (k cb kb pt t b : Nat) : (encryptLines k cb kb pt t b).length = 3 * k + 4 := by
  simp [encryptLines, encryptMasks, encryptPhase]
  omega

section
variable {p : Params} {k c1 c2 kb pt t b : Nat} {s u v : State}

theorem ciphertextAt_eq_iff :
    ciphertextAt s k c1 = ciphertextAt s k c2 ↔ ∀ i < k + 1, s.reg (c1 + i) = s.reg (c2 + i) := by
  simp [ciphertextAt, regRange]

/-- Two elements given lane by lane are equal when their lanes are. -/
theorem lanes_eq_iff {n : Nat} {f g : Nat → Word} : lanes n f = lanes n g ↔ ∀ j < n, f j = g j :=
  ⟨fun h j hj => by rw [← coeff_lanes f hj, h, coeff_lanes g hj], lanes_congr⟩

/-- Of two ENCRYPTs of one plaintext under one key, each into registers of its own, the ciphertexts are equal when the
second is given the draws of the first again: equal masks have equal products, so that the phases differ in the noise
only. -/
theorem ciphertextAt_eq_iff_sameDraws (hs : Ready p s) (hu : Encrypted p k c1 kb pt t b s u)
    (hv : Encrypted p k c2 kb pt t b u v) (hl1 : Layout p.nr k c1 kb pt t) (hl2 : Layout p.nr k c2 kb pt t)
    (hapart : c1 + k < c2 ∨ c2 + k < c1) : ciphertextAt v k c1 = ciphertextAt v k c2 ↔ SameDraws s k := by
  obtain ⟨-, -, -, -, hptt, hkeyct1, -, hkeyt, hctpt1, hctt1⟩ := hl1
  obtain ⟨-, -, -, -, -, hkeyct2, -, -, -, -⟩ := hl2
  have hkept : ∀ i < k + 1, v.reg (c1 + i) = u.reg (c1 + i) := fun i hi =>
    (hv.run.regs _ (by simp [mem_regRange]; omega)).1
  have hkey : ∀ i < k, v.reg (kb + i) = u.reg (kb + i) := fun i hi =>
    (hv.run.regs _ (by simp [mem_regRange]; omega)).1
  have hpt : u.reg pt = s.reg pt := (hu.run.regs _ (by simp [mem_regRange]; omega)).1
  have hparams : v.params = u.params := hv.run.params_eq
  have hmasks : (∀ i < k, v.reg (c1 + i) = v.reg (c2 + i)) ↔
      ∀ i < k, ∀ j < p.n, wordDraw s (i * p.n + j) = wordDraw s (k * p.n + (i * p.n + j)) := by
    refine forall₂_congr fun i hi => ?_
    rw [hkept i (by omega), hu.masks i hi, hv.masks i hi, lanes_eq_iff]
    simp only [wordDraw_of_drawn hu.run.random]
  have hphases : (∀ i < k, v.reg (c1 + i) = v.reg (c2 + i)) →
      (v.reg (c1 + k) = v.reg (c2 + k) ↔ ∀ j < p.n, noiseDraw s j = noiseDraw s (p.n + j)) := fun hsame => by
    have hproducts : maskSum v k kb c2 = maskSum u k kb c1 :=
      maskSum_congr hparams hkey fun i hi => by rw [← hsame i hi, hkept i (by omega)]
    rw [hkept k (by omega), hu.phase, hv.phase, hproducts, hpt, lanes_eq_iff]
    simp only [add_right_inj, noiseDraw_of_drawn hu.run.noise]
  rw [ciphertextAt_eq_iff, Nat.forall_lt_succ_right, SameDraws, hs.params, ← hmasks]
  exact and_congr_right hphases

end

/-- Settles O53; the second of two calls starts from the sources as the first left them. -/
theorem encryptEndState : Obligations.EncryptEndState := by
  refine ⟨fun s k cb kb pt t b hwf good hk hb1 hb hlayout hkey hpt => ?_,
    fun s k c1 c2 kb pt t b hwf good hk hb1 hb hlayout hkey hpt => ?_⟩
  · obtain ⟨u, hu⟩ := Ready.encrypt ⟨rfl, hwf, good⟩ (layout_of_layoutOk hk hlayout) hb1 hb (keyReady_iff.1 hkey) hpt
    refine ⟨u, hu.run.run, fun i hi j hj => ?_, fun j hj => ?_, fun j hj => ?_, hu.valid, hu.run.regs, hu.run.random,
      hu.run.noise, hu.run.fold, hu.run.output, hu.run.eq, hu.run.fault, hu.run.host, length_encryptLines ..⟩
    · rw [hu.masks i hi, coeff_lanes _ hj]
    · rw [hu.phase, coeff_lanes _ hj, encodeWord, encodingShift]
    · rw [hu.scratch, coeff_lanes _ hj, encodeWord, encodingShift]
  · have hs : Ready s.params s := ⟨rfl, hwf, good⟩
    have hl1 : Layout s.params.nr k c1 kb pt t := layout_of_count_le hk hlayout fun r => by simp
    have hl2 : Layout s.params.nr k c2 kb pt t := layout_of_count_le hk hlayout fun r => by
      simp only [encryptRegs, List.count_append]
      omega
    have hapart := apart_of_layoutOk (layoutOk_of_count_le (l' := regRange c1 (k + 1) ++ regRange c2 (k + 1)) hlayout
      fun r => by
        simp only [encryptRegs, List.count_append]
        omega)
    obtain ⟨u, hu⟩ := hs.encrypt hl1 hb1 hb (keyReady_iff.1 hkey) hpt
    obtain ⟨v, hv⟩ := (hu.run.ready hs).encrypt hl2 hb1 hb (fun i hi => hu.run.valid _ (keyReady_iff.1 hkey i hi))
      (hu.run.valid _ hpt)
    refine ⟨v, runLines_trans hu.run.run hv.run.run, ?_, ?_, ?_, ?_⟩
    · exact hu.run.fault.trans hv.run.fault
    · rw [hv.run.random, hu.run.random, drawnOf_drawnOf, two_mul]
    · rw [hv.run.noise, hu.run.noise, drawnOf_drawnOf, two_mul]
    · exact ciphertextAt_eq_iff_sameDraws hs hu hv hl1 hl2 hapart

/-! ### DECRYPT (R129) -/

theorem length_decryptLines {n k out cb kb t b : Nat} (hk : 1 ≤ k) :
    (decryptLines n k out cb kb t b).length = 2 * k + 1 + (1 + n) := by
  simp [decryptLines, decryptCompute, rdr]
  omega

/-- DECRYPT runs, and the read-out of the rounded residual changes the output buffer and what the host has read only. -/
theorem Ready.decrypt {p : Params} {s : State} {k out cb kb t b : Nat} (hs : Ready p s) (hl : Layout p.nr k cb kb out t)
    (hk : 1 ≤ k) (hb1 : 1 ≤ b) (hb : b ≤ 31) (hkey : keyReady s k kb = true) (hct : ciphertextValid s k cb = true) :
    ∃ v, RegRun (decryptCompute k out cb kb t b) [out, t] 0 0 s v ∧
      v.reg out = lanes p.n (fun j => decodeWord b (coeff (s.reg (cb + k)) j - maskSum s k kb cb j)) ∧
      runLines (decryptLines p.n k out cb kb t b) s =
        .next { v with ob := v.reg out, ovalid := true, rp := 0, observed := s.observed ++ v.reg out } := by
  obtain ⟨v, hv, hreg, hvalid⟩ := hs.regRun_decryptCompute hl (keyReady_iff.1 hkey) hk hb1 hb hct
  have hready := hv.ready hs
  have hread := rdrReadsTheElement v out hready.wf hready.good (by rw [hready.params]; exact hl.x_lt) hvalid
  rw [hready.params] at hread
  refine ⟨v, hv, hreg, (runLines_trans hv.run hread).trans ?_⟩
  rw [hv.observed_eq, ← hready.params]

/-- Settles O54: the residual is formed and rounded in registers, and then read out. -/
theorem decryptRoundsTheResidual : Obligations.DecryptRoundsTheResidual := by
  intro s k out cb kb t b hwf good hk hb1 hb hlayout hkey hct
  obtain ⟨v, hv, hreg, hrun⟩ := Ready.decrypt ⟨rfl, hwf, good⟩ (layout_of_layoutOk hk hlayout) hk hb1 hb hkey hct
  obtain ⟨-, hpending, -⟩ := hv.host
  refine ⟨_, hrun, fun j hj => ?_, rfl, fun r hout ht => hv.regs r (by simp [hout, ht]), hv.fold, hv.eq, hv.fault,
    ⟨hv.random, hv.noise⟩, hv.params_eq, hpending, length_decryptLines hk⟩
  calc (coeff (v.reg out) j).toNat
      = (decodeWord b (coeff (s.reg (cb + k)) j - maskSum s k kb cb j)).toNat := by rw [hreg, coeff_lanes _ hj]
    _ = _ := toNat_decodeWord b _

end Sys2Proof.Machine
end

section
/-! SUPPORT. Payload and noise (42_lwe_protocol.md R130, R132, R134): what a ciphertext hides, after ENCRYPT, under
CTADD and for DECRYPT. -/

namespace Sys2Proof.Machine

/-! ### Hidden payloads and noises -/

section
variable {p : Params} {s u : State} {k cd c1 c2 cb kb pt t b : Nat} {m m₁ m₂ e e₁ e₂ : Nat → Int}

/-- What a ciphertext hides depends on its own registers and on those of the key only. -/
theorem Hides.congr (h : Hides s k kb cb b m e) (hp : u.params = s.params)
    (hkey : ∀ i < k, u.reg (kb + i) = s.reg (kb + i)) (hct : ∀ i < k + 1, u.reg (cb + i) = s.reg (cb + i)) :
    Hides u k kb cb b m e := fun j hj => by
  rw [hct k (Nat.lt_succ_self k), maskSum_congr hp hkey fun i hi => hct i (by omega), h j (hp ▸ hj)]

/-- ENCRYPT hides the plaintext, with the noise that was drawn (R130). -/
theorem Encrypted.hides (hs : Ready p s) (h : Encrypted p k cb kb pt t b s u) :
    Hides u k kb cb b (fun j => (coeff (s.reg pt) j).toNat) fun j => (noiseDraw s j).toInt := fun j hj => by
  rw [(h.run.ready hs).params] at hj
  rw [h.phase, coeff_lanes _ hj, encodeWord_eq_ofInt, BitVec.ofInt_add, BitVec.ofInt_toInt]

theorem sum32_add (k : Nat) (f g : Nat → Word) : sum32 k (fun i => f i + g i) = sum32 k f + sum32 k g := by
  simp only [sum32_eq_sum, Finset.sum_add_distrib]

/-- The products of a key with a sum of masks are the sums of the products, by distributivity. -/
theorem maskSum_add (hp : u.params = s.params) (hkey : ∀ i < k, u.reg (kb + i) = s.reg (kb + i))
    (hsum : ∀ i < k, u.reg (cd + i) = ringAdd s.params.n (s.reg (c1 + i)) (s.reg (c2 + i)))
    (hkeyLen : ∀ i < k, (s.reg (kb + i)).length = s.params.n) (hlen1 : ∀ i < k, (s.reg (c1 + i)).length = s.params.n)
    (hlen2 : ∀ i < k, (s.reg (c2 + i)).length = s.params.n) (j : Nat) :
    maskSum u k kb cd j = maskSum s k kb c1 j + maskSum s k kb c2 j := by
  rw [maskSum, maskSum, maskSum, ← sum32_add]
  refine sum32_congr fun i hi => ?_
  rw [hp, hkey i hi, hsum i hi, ringMul_ringAdd (hkeyLen i hi) (hlen1 i hi) (hlen2 i hi),
    coeff_ringAdd (length_ringMul ..) (length_ringMul ..)]

/-- The sum of two ciphertexts hides the sum of the payloads with the sum of the noises (R132). -/
theorem Ready.ctadd_hides (hs : Ready p s) (hcd : cd + k < p.nr) (hkb : kb + k ≤ p.nr)
    (h1 : sameOrApart k cd c1 = true) (h2 : sameOrApart k cd c2 = true) (hkey : ∀ i < k, kb + i ∉ regRange cd (k + 1))
    (hv1 : ciphertextValid s k c1 = true) (hv2 : ciphertextValid s k c2 = true) (hm₁ : Hides s k kb c1 b m₁ e₁)
    (hm₂ : Hides s k kb c2 b m₂ e₂) :
    ∃ u, RegRun (ctadd k cd c1 c2) (regRange cd (k + 1)) 0 0 s u ∧ ciphertextValid u k cd = true ∧
      Hides u k kb cd b (fun j => m₁ j + m₂ j) fun j => e₁ j + e₂ j := by
  obtain ⟨u, hu, hsum⟩ := hs.regRun_ctadd hcd h1 h2 hv1 hv2
  obtain rfl := hs.params
  rw [ciphertextValid_iff] at hv1 hv2
  have hkeyLen : ∀ i < k, (s.reg (kb + i)).length = s.params.n := fun i hi =>
    Machine.length_reg hs.memory (Nat.lt_of_lt_of_le (Nat.add_lt_add_left hi kb) hkb)
  have hproducts := maskSum_add hu.params_eq (fun i hi => (hu.regs _ (hkey i hi)).1) (fun i hi => (hsum i (by omega)).1)
    hkeyLen (fun i hi => hs.length_reg (hv1 i (by omega))) (fun i hi => hs.length_reg (hv2 i (by omega)))
  refine ⟨u, hu, ciphertextValid_iff.2 fun i hi => (hsum i hi).2, fun j hj => ?_⟩
  rw [hu.params_eq] at hj
  have hpayloads : BitVec.ofInt 32 ((m₁ j + m₂ j) * 2 ^ (32 - b) + (e₁ j + e₂ j)) =
      BitVec.ofInt 32 (m₁ j * 2 ^ (32 - b) + e₁ j) + BitVec.ofInt 32 (m₂ j * 2 ^ (32 - b) + e₂ j) := by
    rw [← BitVec.ofInt_add, add_mul, add_add_add_comm]
  rw [(hsum k (Nat.lt_succ_self k)).1, ringAdd, coeff_lanes _ hj, hm₁ j hj, hm₂ j hj, hproducts, hpayloads]
  exact add_add_add_comm _ _ _ _

/-- A fresh encryption added in place to a ciphertext adds its payload and its noise. -/
theorem Ready.encrypt_ctadd {acc fresh x : Nat} (hs : Ready p s) (hacc : Layout p.nr k acc kb x t)
    (hfresh : Layout p.nr k fresh kb pt t) (hapart : acc + k < fresh ∨ fresh + k < acc) (hb1 : 1 ≤ b) (hb : b ≤ 31)
    (hkey : ∀ i < k, s.isValid (kb + i) = true) (hpt : s.isValid pt = true) (hct : ciphertextValid s k acc = true)
    (hm : Hides s k kb acc b m e) :
    ∃ u, RegRun (encryptLines k fresh kb pt t b ++ ctadd k acc acc fresh)
        (t :: (regRange acc (k + 1) ++ regRange fresh (k + 1))) (k * p.n) p.n s u ∧
      ciphertextValid u k acc = true ∧
      Hides u k kb acc b (fun j => m j + (coeff (s.reg pt) j).toNat) fun j => e j + (noiseDraw s j).toInt := by
  obtain ⟨v, hv⟩ := hs.encrypt hfresh hb1 hb hkey hpt
  obtain ⟨hkeyLe, haccLt, -, -, -, hkeyacc, -, hkeyt, -, hacct⟩ := hacc
  have hkeyfresh := hfresh.key_ct
  have hkept : ∀ i < k + 1, v.reg (acc + i) = s.reg (acc + i) := fun i hi =>
    (hv.run.regs _ (by simp [mem_regRange]; omega)).1
  have hkeptKey : ∀ i < k, v.reg (kb + i) = s.reg (kb + i) := fun i hi =>
    (hv.run.regs _ (by simp [mem_regRange]; omega)).1
  have hctKept : ciphertextValid v k acc = true :=
    ciphertextValid_iff.2 fun i hi => hv.run.valid _ (ciphertextValid_iff.1 hct i hi)
  obtain ⟨u, hu, hvalid, hhides⟩ := (hv.run.ready hs).ctadd_hides (kb := kb) haccLt hkeyLe (by simp [sameOrApart])
    (by simp [sameOrApart]; omega) (fun i hi => by rw [mem_regRange]; omega) hctKept hv.valid
    (hm.congr hv.run.params_eq hkeptKey hkept) (hv.hides hs)
  refine ⟨u, ?_, hvalid, hhides⟩
  have hrun := (hv.run.mono (ds' := t :: (regRange acc (k + 1) ++ regRange fresh (k + 1))) (by simp)).trans
    (hu.mono (by simp))
  simpa using hrun

end

/-! ### Decryption of what is hidden (R130, R132) -/

/-- What the host reads from DECRYPT: each payload, moved by as many steps as the noise is large. -/
theorem Ready.decrypt_hides {p : Params} {s : State} {k out cb kb t b : Nat} {m e : Nat → Int} (hs : Ready p s)
    (hl : Layout p.nr k cb kb out t) (hk : 1 ≤ k) (hb1 : 1 ≤ b) (hb : b ≤ 31) (hkey : keyReady s k kb = true)
    (hct : ciphertextValid s k cb = true) (hm : Hides s k kb cb b m e) :
    ∃ u, runLines (decryptLines p.n k out cb kb t b) s = .next u ∧ u.flt = false ∧
      u.observed = s.observed ++ u.reg out ∧ (u.reg out).length = p.n ∧ ∀ j < p.n,
        ((coeff (u.reg out) j).toNat : Int) = (m j + (e j + 2 ^ (31 - b)) / 2 ^ (32 - b)) % 2 ^ b ∧
        (inWindow b (e j) → ((coeff (u.reg out) j).toNat : Int) = m j % 2 ^ b) := by
  obtain ⟨v, hv, hreg, hrun⟩ := hs.decrypt hl hk hb1 hb hkey hct
  refine ⟨_, hrun, (hv.ready hs).good, rfl, (congrArg List.length hreg).trans (length_lanes ..), fun j hj => ?_⟩
  have hread : ((coeff (v.reg out) j).toNat : Int) = (m j + (e j + 2 ^ (31 - b)) / 2 ^ (32 - b)) % 2 ^ b := by
    rw [hreg, coeff_lanes _ hj, hm j (by rwa [hs.params]), add_sub_cancel_left, toNat_decodeWord_payload_add_noise hb]
  refine ⟨hread, fun he => hread.trans ?_⟩
  rw [(inWindow_iff_ediv_eq_zero hb _).1 he, add_zero]

/-- Settles O59: the residual is the payload with the noise, which DEC rounds. -/
theorem decryptionReturnsThePayloadInTheWindow : Obligations.DecryptionReturnsThePayloadInTheWindow := by
  intro s k out cb kb t b m e hwf good hk hb1 hb hlayout hkey hct hm
  obtain ⟨u, hrun, hflt, hobserved, -, hread⟩ :=
    Ready.decrypt_hides ⟨rfl, hwf, good⟩ (layout_of_layoutOk hk hlayout) hk hb1 hb hkey hct hm
  exact ⟨u, hrun, hflt, hobserved, hread⟩

/-- Register commands that leave a ciphertext, and its decryption: where the noise is in the window the host reads the
payload. -/
theorem RegRun.decrypt {p : Params} {l : List Line} {ds : List Nat} {i j k out cb kb t b : Nat} {s u : State}
    {m e : Nat → Int} (h : RegRun l ds i j s u) (hs : Ready p s) (hl : Layout p.nr k cb kb out t) (hk : 1 ≤ k)
    (hb1 : 1 ≤ b) (hb : b ≤ 31) (hkey : keyReady s k kb = true) (hct : ciphertextValid u k cb = true)
    (hm : Hides u k kb cb b m e) :
    ∃ v, runLines (l ++ decryptLines p.n k out cb kb t b) s = .next v ∧ v.observed = s.observed ++ v.reg out ∧
      v.flt = false ∧ (v.reg out).length = p.n ∧
      ∀ j < p.n, inWindow b (e j) → ((coeff (v.reg out) j).toNat : Int) = m j % 2 ^ b := by
  have hkeyKept : keyReady u k kb = true := keyReady_iff.2 fun i hi => h.valid _ (keyReady_iff.1 hkey i hi)
  obtain ⟨v, hrun, hflt, hobserved, hlength, hread⟩ := (h.ready hs).decrypt_hides hl hk hb1 hb hkeyKept hct hm
  refine ⟨v, runLines_trans h.run hrun, ?_, hflt, hlength, fun j hj => (hread j hj).2⟩
  rw [hobserved, h.observed_eq]

/-! ### The protocol's properties (R134) -/

/-- Settles O55: ENCRYPT hides the plaintext, which is below the modulus. -/
theorem decryptionRecoversThePlaintext : Obligations.DecryptionRecoversThePlaintext := by
  intro s k out cb kb pt t b hwf good hk hb1 hb hlayout hkey hpt hbound hwindow
  have hs : Ready s.params s := ⟨rfl, hwf, good⟩
  have hl : Layout s.params.nr k cb kb pt t := layout_of_count_le hk hlayout fun r => by
    rw [List.count_cons]
    omega
  have hout : Layout s.params.nr k cb kb out t := layout_of_count_le hk hlayout fun r => by
    simp only [encryptRegs, List.count_append, List.count_cons]
    omega
  obtain ⟨u, hu⟩ := hs.encrypt hl hb1 hb (keyReady_iff.1 hkey) hpt
  obtain ⟨v, hrun, hobserved, hflt, hlength, hread⟩ := hu.run.decrypt hs hout hk hb1 hb hkey hu.valid (hu.hides hs)
  refine ⟨v, hrun, hobserved.trans (congrArg _ (ext_coeff hlength (hs.length_reg hpt) fun j hj => ?_)), hflt⟩
  have hpayload := hread j hj (hwindow j hj)
  apply BitVec.eq_of_toNat_eq
  rw [← Nat.mod_eq_of_lt (hbound j hj)]
  exact_mod_cast hpayload

/-- Settles O57: the second encryption is added in place to the first. -/
theorem decryptionOfASumIsTheSumOfThePlaintexts : Obligations.DecryptionOfASumIsTheSumOfThePlaintexts := by
  intro s k out c1 c2 kb p1 p2 t b hwf good hk hb1 hb hlayout hkey hp1 hp2
  have hs : Ready s.params s := ⟨rfl, hwf, good⟩
  have hl1 (x : Nat) (hx : x = p1 ∨ x = p2 ∨ x = out) : Layout s.params.nr k c1 kb x t :=
    layout_of_count_le hk hlayout fun r => by
      simp only [encryptRegs, List.count_append, List.count_cons]
      rcases hx with rfl | rfl | rfl <;> omega
  have hl2 : Layout s.params.nr k c2 kb p2 t := layout_of_count_le hk hlayout fun r => by
    simp only [encryptRegs, List.count_append, List.count_cons]
    omega
  have hapart := apart_of_layoutOk (layoutOk_of_count_le (l' := regRange c1 (k + 1) ++ regRange c2 (k + 1)) hlayout
    fun r => by
      simp only [encryptRegs, List.count_append, List.count_cons]
      omega)
  obtain ⟨u, hu⟩ := hs.encrypt (hl1 p1 (.inl rfl)) hb1 hb (keyReady_iff.1 hkey) hp1
  obtain ⟨v, hv, hvalid, hhides⟩ := (hu.run.ready hs).encrypt_ctadd (hl1 p1 (.inl rfl)) hl2 hapart hb1 hb
    (fun i hi => hu.run.valid _ (keyReady_iff.1 hkey i hi)) (hu.run.valid _ hp2) hu.valid (hu.hides hs)
  have hp2Kept : u.reg p2 = s.reg p2 := (hu.run.regs p2 (by
    have := (hl1 p2 (.inr (.inl rfl))).ct_x
    have := hl2.x_ne_scratch
    simp [mem_regRange]
    omega)).1
  obtain ⟨w, hrun, hobserved, hflt, -, hread⟩ :=
    ((hu.run.mono (ds' := t :: (regRange c1 (k + 1) ++ regRange c2 (k + 1))) (by simp)).trans hv).decrypt hs
      (hl1 out (.inr (.inr rfl))) hk hb1 hb hkey hvalid hhides
  refine ⟨w, by simpa [homomorphicLines] using hrun, hobserved, hflt, fun j hj hwindow => ?_⟩
  simp only [hp2Kept, noiseDraw_of_drawn hu.run.noise] at hread
  exact_mod_cast hread j hj hwindow

/-- After any number of additions of fresh encryptions the running sum hides that many payloads more, with the sum of
all noises. -/
theorem Ready.chainedAdd {p : Params} {s : State} {k acc fresh kb pt t b : Nat} (hs : Ready p s)
    (hacc : Layout p.nr k acc kb pt t) (hfresh : Layout p.nr k fresh kb pt t)
    (hapart : acc + k < fresh ∨ fresh + k < acc) (hb1 : 1 ≤ b) (hb : b ≤ 31)
    (hkey : ∀ i < k, s.isValid (kb + i) = true) (hpt : s.isValid pt = true) (adds : Nat) :
    ∃ u, RegRun (chainedAddLines k acc fresh kb pt t b adds) (t :: (regRange acc (k + 1) ++ regRange fresh (k + 1)))
        ((adds + 1) * (k * p.n)) ((adds + 1) * p.n) s u ∧
      ciphertextValid u k acc = true ∧
      Hides u k kb acc b (fun j => (adds + 1 : Nat) * (coeff (s.reg pt) j).toNat) (noiseTotal s (adds + 1)) := by
  obtain rfl := hs.params
  induction adds with
  | zero =>
    obtain ⟨u, hu⟩ := hs.encrypt hacc hb1 hb hkey hpt
    refine ⟨u, ?_, hu.valid, ?_⟩
    · simpa [chainedAddLines] using hu.run.mono (List.cons_subset_cons t (List.subset_append_left _ _))
    · have hhides := hu.hides hs
      simpa [noiseTotal] using hhides
  | succ adds ih =>
    obtain ⟨u, hu, hvalid, hhides⟩ := ih
    obtain ⟨v, hv, hvalid', hhides'⟩ := (hu.ready hs).encrypt_ctadd hacc hfresh hapart hb1 hb
      (fun i hi => hu.valid _ (hkey i hi)) (hu.valid _ hpt) hvalid hhides
    have hptKept : u.reg pt = s.reg pt := (hu.regs pt (by
      have := hacc.x_ne_scratch
      have := hacc.ct_x
      have := hfresh.ct_x
      simp [mem_regRange]
      omega)).1
    refine ⟨v, ?_, hvalid', ?_⟩
    · rw [Nat.succ_mul (adds + 1), Nat.succ_mul (adds + 1), chainedAddLines, List.append_assoc]
      exact hu.trans hv
    · have hpayload (j : Nat) : ((adds + 1 : Nat) : Int) * (coeff (s.reg pt) j).toNat + (coeff (s.reg pt) j).toNat =
          ((adds + 1 + 1 : Nat) : Int) * (coeff (s.reg pt) j).toNat := by
        push_cast
        ring
      simp only [hptKept, noiseDraw_of_drawn hu.noise, hpayload] at hhides'
      exact hhides'

/-- Settles O58: one addition by distributivity, the chain by induction on the number of additions. -/
theorem additionAccumulatesPayloadsAndNoises : Obligations.AdditionAccumulatesPayloadsAndNoises := by
  refine ⟨fun s k cd c1 c2 kb b m₁ m₂ e₁ e₂ hwf good hcd _ _ hkb h1 h2 hkey hv1 hv2 hm₁ hm₂ => ?_,
    fun s k out acc fresh kb pt t b adds hwf good hk hb1 hb hlayout hkey hpt => ?_⟩
  · have hs : Ready s.params s := ⟨rfl, hwf, good⟩
    obtain ⟨u, hu, hvalid, hhides⟩ := hs.ctadd_hides hcd hkb h1 h2 hkey hv1 hv2 hm₁ hm₂
    exact ⟨u, hu.run, hvalid, hhides, hu.fault, (hu.ready hs).wf, hu.params_eq, hu.regs⟩
  · have hs : Ready s.params s := ⟨rfl, hwf, good⟩
    have hacc (x : Nat) (hx : x = pt ∨ x = out) : Layout s.params.nr k acc kb x t :=
      layout_of_count_le hk hlayout fun r => by
        simp only [encryptRegs, List.count_append, List.count_cons]
        rcases hx with rfl | rfl <;> omega
    have hfresh : Layout s.params.nr k fresh kb pt t := layout_of_count_le hk hlayout fun r => by
      simp only [encryptRegs, List.count_append, List.count_cons]
      omega
    have hapart := apart_of_layoutOk (layoutOk_of_count_le (l' := regRange acc (k + 1) ++ regRange fresh (k + 1))
      hlayout fun r => by
        simp only [encryptRegs, List.count_append, List.count_cons]
        omega)
    obtain ⟨u, hu, hvalid, hhides⟩ := hs.chainedAdd (hacc pt (.inl rfl)) hfresh hapart hb1 hb (keyReady_iff.1 hkey)
      hpt adds
    obtain ⟨v, hrun, hobserved, hflt, -, hread⟩ := hu.decrypt hs (hacc out (.inr rfl)) hk hb1 hb hkey hvalid hhides
    exact ⟨v, hrun, hobserved, hflt, fun j hj hwindow => by exact_mod_cast hread j hj hwindow⟩

end Sys2Proof.Machine
end

section
/-! SUPPORT. CTEQ (42_lwe_protocol.md R133): the flags that the host reads and what it makes of them. -/

namespace Sys2Proof.Machine

/-- One round of CTEQ: the flag says whether the two registers are equal, and the host reads it in a STATUS word. -/
theorem Ready.runLines_compare {p : Params} {s : State} {a c : Nat} (hs : Ready p s) (ha : s.isValid a = true)
    (hc : s.isValid c = true) :
    ∃ e w, runLines [.command (.cmpeq a c), .status] s = .next { s with eq := e, observed := s.observed ++ [w] } ∧
      (w.getLsbD 0 = true ↔ s.reg a = s.reg c) := by
  obtain rfl := hs.params
  have ok : Executable (.cmpeq a c) s := by
    simp [Executable, usedRegs, immediateOf, sourceRegs, hs.lt_of_isValid, ha, hc]
  refine ⟨_, _, (runLines_append (hs.runLines_command ok)).trans runLines_status, ?_⟩
  rw [getLsbD_statusWord, if_pos rfl]
  exact ringEq_iff_eq (hs.length_reg ha) (hs.length_reg hc)

/-- The first `m` rounds of CTEQ: a STATUS word for each, the AND of whose flags says whether all pairs so far are
equal. -/
theorem Ready.runLines_compares {p : Params} {s : State} {m c1 c2 : Nat} (hs : Ready p s)
    (hv1 : ∀ i < m, s.isValid (c1 + i) = true) (hv2 : ∀ i < m, s.isValid (c2 + i) = true) :
    ∃ e ws, runLines ((List.range m).flatMap fun i => [.command (.cmpeq (c1 + i) (c2 + i)), .status]) s =
        .next { s with eq := e, observed := s.observed ++ ws } ∧
      ws.length = m ∧ (cteqAnswer ws = true ↔ ∀ i < m, s.reg (c1 + i) = s.reg (c2 + i)) := by
  induction m with
  | zero => exact ⟨s.eq, [], by simp, rfl, by simp [cteqAnswer]⟩
  | succ m ih =>
    obtain ⟨e, ws, hrun, hlength, hanswer⟩ := ih (fun i hi => hv1 i (by omega)) fun i hi => hv2 i (by omega)
    have hready : Ready p { s with eq := e, observed := s.observed ++ ws } :=
      ⟨hs.params, wf_of_runLines hrun hs.wf, hs.good⟩
    obtain ⟨e', w, hround, hflag⟩ := hready.runLines_compare (hv1 m (by omega)) (hv2 m (by omega))
    refine ⟨e', ws ++ [w], ?_, by simp [hlength], ?_⟩
    · rw [List.range_succ, List.flatMap_append, List.flatMap_singleton, runLines_trans hrun hround, List.append_assoc]
    · rw [Nat.forall_lt_succ_right, ← hanswer, cteqAnswer, List.all_append, Bool.and_eq_true, List.all_cons,
        List.all_nil, Bool.and_true]
      exact and_congr_right fun _ => hflag

/-- Settles O60: CTEQ is `k + 1` rounds, which change the flag and what the host has read only. -/
theorem cteqComparesAllComponents : Obligations.CteqComparesAllComponents := by
  intro s k c1 c2 hwf good _ _ hv1 hv2
  have hs : Ready s.params s := ⟨rfl, hwf, good⟩
  obtain ⟨e, ws, hrun, hlength, hanswer⟩ :=
    hs.runLines_compares (ciphertextValid_iff.1 hv1) (ciphertextValid_iff.1 hv2)
  exact ⟨_, ws, hrun, rfl, hlength, hanswer.trans ciphertextAt_eq_iff.symm, fun _ => ⟨rfl, rfl⟩, ⟨rfl, rfl⟩,
    ⟨rfl, rfl, rfl⟩, ⟨rfl, rfl⟩, ⟨rfl, rfl⟩⟩

end Sys2Proof.Machine
end

section
/-! SUPPORT. The exception family (60_exceptions.md): the order of the checks, what a fault changes, the faulted state,
and which steps complete. -/

namespace Sys2Proof.Machine

/-! ### The checks of a CMD write (60_exceptions.md R155) -/

/-- Settles O19: a CMD write is the decoder and then the checks of the decoded command, one lemma for each check. -/
theorem checksRunInTheirFixedOrder : Obligations.ChecksRunInTheirFixedOrder := by
  refine fun w s good => ⟨fun e => writeCmd_of_decode_error good, fun i hdecode => ?_⟩
  rw [writeCmd_of_decode_ok good hdecode]
  refine ⟨exec_of_reg_out_of_range good, fun hused himm => ?_, exec_of_source_invalid good, fun ok => ?_⟩
  · obtain ⟨b, hb, hout⟩ := himm
    exact exec_of_width_out_of_range good hused hb (by omega)
  · exact ⟨_, exec_of_executable ok, effectOf_keepsFault i s⟩

/-! ### What a fault changes (60_exceptions.md R153) -/

/-- A transaction that raises a fault records its code, and changes nothing else of the unit. -/
theorem Performed.eq_faulted {tr : Transaction} {s t : State} (h : Performed tr s t) (good : s.flt = false)
    (hflt : t.flt = true) : ∃ c l j, t = { faulted (faultByte c) s with observed := l, freeIx := j } := by
  cases h with
  | commandFaults c => exact ⟨c, s.observed, s.freeIx, raiseFault_eq_faulted c good⟩
  | readFaults v => exact ⟨.obEmpty, s.observed ++ [v], s.freeIx + 1, rfl⟩
  | commandRuns i => simp [(effectOf_keepsFault i s).1, good] at hflt
  | wasReset => simp at hflt
  | _ => simp [good] at hflt

/-- Settles O20: the next state of a faulting transaction is `faulted`, whose frame is `rfl` field by field. -/
theorem faultsArePreciseAndTheFirstIsKept : Obligations.FaultsArePreciseAndTheFirstIsKept := by
  refine ⟨fun s c d good => ⟨raiseFault_eq_faulted c good, raiseFault_of_faulted d (by simp)⟩,
    fun tr s t good hperf hflt => ?_⟩
  obtain ⟨c, l, j, rfl⟩ := (perform_inversion hperf).eq_faulted good hflt
  exact ⟨fun _ => ⟨rfl, rfl⟩, ⟨rfl, rfl⟩, ⟨rfl, rfl, rfl⟩, rfl, ⟨rfl, rfl⟩, rfl, rfl, faultByte_ne_zero c⟩

/-! ### The faulted state (60_exceptions.md R154, R157) -/

/-- In the faulted state a transaction but reset changes at most what the host has read. -/
theorem Performed.eq_of_faulted {tr : Transaction} {s t : State} (h : Performed tr s t) (hf : s.flt = true)
    (hreset : tr ≠ .reset) : ∃ l j, t = { s with observed := l, freeIx := j } := by
  cases h with
  | ignored => exact ⟨s.observed, s.freeIx, rfl⟩
  | wasRead v k r _ still => exact ⟨s.observed ++ [v], s.freeIx + k, by rw [still hf]⟩
  | wasReset isReset => exact absurd isReset hreset
  | commandFaults _ _ good => simp [hf] at good
  | commandRuns _ _ good => simp [hf] at good
  | dataWritten _ _ good => simp [hf] at good
  | readFaults _ _ good => simp [hf] at good

theorem isValid_resetUnit (s : State) (r : RegNum) : (resetUnit s).isValid r = false := by
  simp only [State.isValid, resetUnit_valid, List.getD_eq_getElem?_getD, List.getElem?_replicate]
  split <;> rfl

/-- Settles O22: but for reset, only what the host has read changes in the faulted state. -/
theorem onlyResetLeavesTheFaultedState : Obligations.OnlyResetLeavesTheFaultedState := by
  refine fun s hf => ⟨fun tr t hreset hperf => ?_, resetUnit s, rfl, rfl, rfl, isValid_resetUnit s⟩
  obtain ⟨l, j, rfl⟩ := (perform_inversion hperf).eq_of_faulted hf hreset
  exact ⟨⟨rfl, rfl⟩, rfl, fun _ => ⟨rfl, rfl⟩, ⟨rfl, rfl⟩, ⟨rfl, rfl, rfl⟩, ⟨rfl, rfl⟩⟩

theorem writeCmd_of_faulted {s : State} (w : Word) (h : s.flt = true) : writeCmd w s = .next s := by
  simp [writeCmd, h]

/-- Settles O21, one clause for each row of the table of R154; the bits of STATUS are those of O29. -/
theorem faultedStateIgnoresAllButReadsAndReset : Obligations.FaultedStateIgnoresAllButReadsAndReset := by
  intro s hf
  obtain ⟨w, hread, heq, hflt, hovalid, -, hcode, -⟩ := statusReadReturnsTheLayout s
  obtain rfl : statusWord s = w := by simpa [perform, readPort, readStatus, State.observe] using hread
  exact ⟨fun w => writeCmd_of_faulted w hf, fun w => congrArg _ (writeDin_of_faulted w hf),
    ⟨Config.unspecified s.freeIx, congrArg _ (readDout_of_faulted hf)⟩, rfl, rfl, rfl,
    hflt.trans hf, hcode, heq, hovalid, resetUnit s, rfl, rfl, rfl⟩

/-! ### Which steps complete (60_exceptions.md R156; 20_memory.md R38) -/

theorem writeCmd_completes (w : Word) (s : State) : ∃ t, writeCmd w s = .next t := by
  unfold writeCmd
  split
  · exact ⟨s, rfl⟩
  · split
    · exact exec_completes _ s
    · exact ⟨_, rfl⟩

theorem writePort_completes (p : WritePort) (w : Word) (s : State) : ∃ t, writePort p w s = .next t := by
  cases p with
  | cmd => exact writeCmd_completes w s
  | din => exact ⟨_, rfl⟩

theorem busWriteAt_completes (off : Nat) (w : Word) (s : State) : ∃ t, busWriteAt off w s = .next t := by
  unfold busWriteAt
  split
  · exact writePort_completes .cmd w s
  · split
    · exact writePort_completes .din w s
    · exact ⟨s, rfl⟩

/-- Only a bus access can fail to complete, and one aligned word of the window does complete. -/
theorem perform_completes {tr : Transaction} {s : State}
    (hwrite : ∀ a l, tr = .busWrite a l → isWordAccess s.params a l.length = true)
    (hread : ∀ a k, tr = .busRead a k → isWordAccess s.params a k = true) : ∃ t, perform tr s = .next t := by
  cases tr with
  | portWrite p w => exact writePort_completes p w s
  | portRead p => exact ⟨_, rfl⟩
  | reset => exact ⟨_, rfl⟩
  | busWrite a l =>
    simp only [perform, busWrite, hwrite a l rfl, if_true]
    exact busWriteAt_completes _ _ s
  | busRead a k =>
    simp only [perform, busRead, hread a k rfl, if_true]
    exact ⟨_, rfl⟩

theorem strayAccess_refuses (p : Params) (addr size : Nat) : ∃ r, strayAccess p addr size = .refused r := by
  unfold strayAccess
  split <;> exact ⟨_, rfl⟩

/-- A step whose next transaction is known is that transaction, in a state with the same parameters. -/
theorem step_of_head {s : State} {tr : Transaction} (h : s.pending.head? = some tr) :
    ∃ u : State, u.params = s.params ∧ step s = perform tr u := by
  obtain ⟨rest, hpending⟩ := List.head?_eq_some_iff.1 h
  exact ⟨{ s with pending := rest }, rfl, step_of_pending_cons hpending⟩

/-- Settles O24, by what the host's list begins with. -/
theorem everyStepCompletesButStrayBusAccesses : Obligations.EveryStepCompletesButStrayBusAccesses := by
  refine ⟨exec_completes, fun s => ⟨fun hwrite hread => ?_, fun a l hhead hstray => ?_, fun a k hhead hstray => ?_⟩⟩
  · cases hhead : s.pending.head? with
    | none => exact ⟨s, step_of_pending_nil (List.head?_eq_none_iff.1 hhead)⟩
    | some tr =>
      obtain ⟨u, hparams, hstep⟩ := step_of_head hhead
      rw [hstep]
      refine perform_completes (fun a l e => ?_) fun a k e => ?_
      · exact hparams ▸ hwrite a l (e ▸ hhead)
      · exact hparams ▸ hread a k (e ▸ hhead)
  · obtain ⟨u, hparams, hstep⟩ := step_of_head hhead
    rw [hstep, perform_busWrite_stray (hparams ▸ hstray)]
    exact strayAccess_refuses _ _ _
  · obtain ⟨u, hparams, hstep⟩ := step_of_head hhead
    rw [hstep, perform_busRead_stray (hparams ▸ hstray)]
    exact strayAccess_refuses _ _ _

end Sys2Proof.Machine
end

section
/-! SUPPORT. The reset family (70_reset_and_hazards.md): what reset clears, and what a clear FLT says of the step
before it. -/

namespace Sys2Proof.Machine

/-! ### Reset (70_reset_and_hazards.md R170, R171) -/

/-- Settles O33: the next state is `resetUnit`, whose fields say the rest. -/
theorem resetClearsTheUnit : Obligations.ResetClearsTheUnit := fun s =>
  ⟨resetUnit s, rfl, isValid_resetUnit s, coeff_replicate_zero _, List.length_replicate, resetUnit_wp s,
    resetUnit_ovalid s, resetUnit_rp s, resetUnit_eq s, resetUnit_flt s, resetUnit_code s, resetUnit_params s,
    resetUnit_pending s, resetUnit_observed s, resetUnit_random s, resetUnit_noise s⟩

/-! ### A step that ends with FLT clear (70_reset_and_hazards.md R178) -/

/-- A transaction but reset that ends with FLT clear raised no fault: both ways to raise one set FLT. -/
theorem Performed.keepsFault_of_clear {tr : Transaction} {s t : State} (h : Performed tr s t) (hreset : tr ≠ .reset)
    (clear : t.flt = false) : KeepsFault s t := by
  cases h with
  | ignored => exact ⟨rfl, rfl⟩
  | commandFaults c _ good => simp [raiseFault_of_good c good] at clear
  | commandRuns i => exact effectOf_keepsFault i s
  | dataWritten => exact ⟨rfl, rfl⟩
  | wasRead => exact ⟨rfl, rfl⟩
  | readFaults => simp at clear
  | wasReset isReset => exact absurd isReset hreset

/-- Settles O23: a step does nothing or one transaction, and either keeps FLT and CODE. -/
theorem clearFaultFlagVouchesForTheStep : Obligations.ClearFaultFlagVouchesForTheStep := by
  intro s t hstep clear hreset
  rcases step_inversion hstep with ⟨-, rfl⟩ | ⟨tr, rest, hpending, hperf⟩
  · exact ⟨clear, rfl⟩
  · have hne : tr ≠ .reset := by simpa [hpending] using hreset
    obtain ⟨hflt, hcode⟩ := hperf.keepsFault_of_clear hne clear
    exact ⟨hflt.symm.trans clear, hcode⟩

end Sys2Proof.Machine
end
